-- ==== Sys2Proof/Word.lean ====
section
/-! DEFINITION. The widths the spec gives (R5 of 00_scope.md, R20 of 10_state.md) and the encoded words of the
three formats of spec/opcode_table.json. -/

namespace Sys2Proof

/-- A byte, 8 bits (00_scope.md section 5). -/
abbrev Byte := BitVec 8

/-- The wire's length field, 16 bits (R80). -/
abbrev Length := BitVec 16

/-- An index into a wire buffer, 17 bits (R30): the largest, 65543, fits. -/
abbrev Ptr := BitVec 17

/-- A checksum or the CRC register, 32 bits (R28, R80). -/
abbrev Sum := BitVec 32

/-- An encoded instruction as it reaches the block, one constructor per format of spec/opcode_table.json. -/
inductive PortWord where
  /-- Format `TOP`: the 2-bit command code written to `CMD` (R86). -/
  | command (c : BitVec 2)
  /-- Format `CRC`: the 10-bit control word `{crc_op[1:0], din[7:0]}` of the CRC unit (R88). -/
  | control (cw : BitVec 10)
  /-- Format `WIRE`: a byte sequence in wire order (R80). -/
  | wire (bytes : List Byte)
  deriving DecidableEq, Repr

end Sys2Proof
end

