-- ==== Sys2Proof/Config.lean ====
section
/-! DEFINITION. The open parameters of R5 (00_scope.md) and the free values: constants without a body, so that
nothing proved here depends on what they are. -/

namespace Sys2Proof

/-- How many bits `LENW` has beyond the 17 it must have (R5, D6). -/
opaque Config.lenwExcess : Nat

/-- `LENW`, the width in bits of `FI.len` and `WI.len`: any number from 17 up (R5, D6). -/
def Config.lenw : Nat :=
  17 + Config.lenwExcess

/-- Chooses `WI_CAP` within its bounds (R5, D16). -/
opaque Config.wiCapExcess : Nat

/-- `WI_CAP`, the number of cells of `WI.bytes`: any number with `65543 <= WI_CAP < 2^LENW` (R5, D16). -/
def Config.wiCap : Nat :=
  65543 + Config.wiCapExcess % (2 ^ Config.lenw - 65543)

/-- `v < 2^LENW`: the number fits a `LENW`-bit register. What fits the 17 bits every `LENW` has is answered without
looking at the open parameter. -/
def Config.fitsLen (v : Nat) : Bool :=
  decide (v < 131072) || decide (v < 2 ^ Config.lenw)

/-- `n <= WI_CAP`: so many bytes fit `WI.bytes`. What every `WI_CAP` admits is answered without looking at the open
parameter. -/
def Config.fitsWire (n : Nat) : Bool :=
  decide (n ≤ 65543) || decide (n ≤ Config.wiCap)

/-- `CRC_DATAPATH` (R5, D12): which micro-operations a realisation issues for one message byte. No rule's result
depends on it (R120), so the machine's step takes no side; `byteStep` of Machine/Generator.lean takes it as an
argument. -/
inductive Config.Datapath where
  /-- Eight `CRC.BIT`. -/
  | serial
  /-- One `CRC.BYTE`. -/
  | parallel8
  deriving DecidableEq, Repr

/-- FREE VALUE: the byte a command computes with when it reads a cell of `FI.payload` that the host has not written
since the last `RESET` (R233, U5). The arguments are the number of `RESET` events so far and the cell's index. -/
opaque Config.unwrittenPayload : Nat → Nat → Byte

/-- FREE VALUE: the same for a cell of `WI.bytes` (R234, U5). -/
opaque Config.unwrittenWire : Nat → Nat → Byte

/-- FREE VALUE: what `ST.code` reads as while `ST.busy = 1` (R195), one for each such read: the number of one of the
six codes, since 6 and 7 are never produced (R89, R90). -/
opaque Config.codeWhileBusy : Nat → Fin 6

end Sys2Proof
end

