-- ==== Sys2Proof/Machine/Generator.lean ====
section
/-! DEFINITION. The CRC-32 generator as functions of the register: the four next-state functions, the output
function, `CRC32`, and the equivalent forms (40_crc32.md). -/

namespace Sys2Proof.Machine

/-- `POLY`, the reversed IEEE/ISO-HDLC polynomial (R5, R110). -/
def poly : Sum := 0xEDB88320#32

/-- What `CRC.INIT` loads (R114; GK1). -/
def crcInitValue : Sum := 0xFFFFFFFF#32

/-- `CRC.BIT b` (R112): combine with bit 0, shift right, zero into bit 31, exclusive-or the polynomial in if the
combined bit was 1. -/
def crcBit (c : Sum) (b : Bool) : Sum :=
  (c >>> 1) ^^^ (if (c.getLsbD 0 ^^ b) then poly else 0#32)

/-- `CRC.BYTE d` (R113): the eight bits of `d`, bit 0 first. -/
def crcByte (c : Sum) (d : Byte) : Sum :=
  [0, 1, 2, 3, 4, 5, 6, 7].foldl (fun r i => crcBit r (d.getLsbD i)) c

/-- `crc_out` (R115; GK2). -/
def crcOut (c : Sum) : Sum :=
  c ^^^ 0xFFFFFFFF#32

/-- The register after the bytes of a message, in order, from `CRC.INIT` (R116, the loop). -/
def crcRegister (message : List Byte) : Sum :=
  message.foldl crcByte crcInitValue

/-- `CRC32(s)` (R116). -/
def crc32 (message : List Byte) : Sum :=
  crcOut (crcRegister message)

/-- The loop body of R117: one shift with feedback from bit 0 alone. -/
def crcShift (t : Sum) : Sum :=
  (t >>> 1) ^^^ (if t.getLsbD 0 then poly else 0#32)

/-- Eight times R117's loop body. -/
def crcShift8 (t : Sum) : Sum :=
  crcShift (crcShift (crcShift (crcShift (crcShift (crcShift (crcShift (crcShift t)))))))

/-- The exclusive-or-first form of the byte step (R117). -/
def crcByteXorFirst (c : Sum) (d : Byte) : Sum :=
  crcShift8 (c ^^^ d.setWidth 32)

/-- `T[m]` (R119). -/
def crcTable (m : Byte) : Sum :=
  crcShift8 (m.setWidth 32)

/-- The table form of the byte step (R119). -/
def crcByteTable (c : Sum) (d : Byte) : Sum :=
  crcTable ((c ^^^ d.setWidth 32).setWidth 8) ^^^ (c >>> 8)

/-- R118's 32 equations, row `j` for bit `j` of the result: the positions of `x = c[7:0] ^ d` that enter it; for
`j` up to 23 bit `j + 8` of `c` enters it too. -/
def parallelTaps : List (List Nat) :=
  [[2], [0, 3], [0, 1, 4], [1, 2, 5], [0, 2, 3, 6], [1, 3, 4, 7], [4, 5], [0, 5, 6],
    [1, 6, 7], [7], [2], [3], [0, 4], [0, 1, 5], [1, 2, 6], [2, 3, 7]]
  ++ [[0, 2, 3, 4], [0, 1, 3, 4, 5], [0, 1, 2, 4, 5, 6], [1, 2, 3, 5, 6, 7], [3, 4, 6, 7], [2, 4, 5, 7],
    [2, 3, 5, 6], [3, 4, 6, 7], [0, 2, 4, 5, 7], [0, 1, 2, 3, 5, 6], [0, 1, 2, 3, 4, 6, 7], [1, 3, 4, 5, 7],
    [0, 4, 5, 6], [0, 1, 5, 6, 7], [0, 1, 6, 7], [1, 7]]

/-- Bit `j` of the byte step by R118's equation for it. -/
def parallelBit (c : Sum) (d : Byte) (j : Nat) : Bool :=
  ((parallelTaps.getD j []).foldl (fun acc k => acc ^^ (c.getLsbD k ^^ d.getLsbD k)) false)
    ^^ (decide (j < 24) && c.getLsbD (j + 8))

/-- The parallel form of the byte step (R118): all 32 equations at once. -/
def crcByteParallel (c : Sum) (d : Byte) : Sum :=
  BitVec.ofFnLE (fun j : Fin 32 => parallelBit c d j.val)

/-- One message byte on either datapath (R120, D12). -/
def byteStep (datapath : Config.Datapath) (c : Sum) (d : Byte) : Sum :=
  match datapath with
  | .serial =>
    crcBit (crcBit (crcBit (crcBit (crcBit (crcBit (crcBit (crcBit c (d.getLsbD 0)) (d.getLsbD 1))
      (d.getLsbD 2)) (d.getLsbD 3)) (d.getLsbD 4)) (d.getLsbD 5)) (d.getLsbD 6)) (d.getLsbD 7)
  | .parallel8 => crcByte c d

end Sys2Proof.Machine
end

