-- ==== Sys2Proof/Machine/Bytes.lean ====
section
/-! DEFINITION. Byte order: the only two multi-byte integers, the length and the checksum, are big-endian
(R52 of 20_memory.md, R91 of 30_encoding.md, the helpers of 00_scope.md section 5). -/

namespace Sys2Proof.Machine

/-- `be16(v)`: `v[15:8]`, `v[7:0]`. -/
def be16 (v : Length) : List Byte :=
  [v.extractLsb' 8 8, v.extractLsb' 0 8]

/-- `be32(v)`: `v[31:24]`, `v[23:16]`, `v[15:8]`, `v[7:0]`. -/
def be32 (v : Sum) : List Byte :=
  [v.extractLsb' 24 8, v.extractLsb' 16 8, v.extractLsb' 8 8, v.extractLsb' 0 8]

/-- `from_be16(a, b) = {a, b}`. -/
def fromBe16 (a b : Byte) : Length :=
  a ++ b

/-- `from_be32(a, b, c, d) = {a, b, c, d}`. -/
def fromBe32 (a b c d : Byte) : Sum :=
  a ++ b ++ c ++ d

/-- The first four wire bytes: version, kind, and the length, more significant byte first (R80, R142). -/
def headerBytes (version kind : Byte) (length : Length) : List Byte :=
  [version, kind] ++ be16 length

/-- All the bytes of a Wire Frame with the given checksum field, in wire order (R80). -/
def wireBytes (version kind : Byte) (payload : List Byte) (checksum : Sum) : List Byte :=
  headerBytes version kind (BitVec.ofNat 16 payload.length) ++ payload ++ be32 checksum

end Sys2Proof.Machine
end

