-- ==== Sys2Proof/Syntax.lean ====
section
/-! DEFINITION. The instructions: one constructor per row of spec/opcode_table.json. -/

namespace Sys2Proof

/-- The nine rows of spec/opcode_table.json. The commands have no operand fields: their operands are the records
`FI` and `WI` (R86). A control word keeps its whole `din`, ignored bits included, so that no bit of an encoding is
dropped (R88). -/
inductive Instr where
  /-- `NOP`, command `0b00` (R191). -/
  | nop
  /-- `ENCODE`, command `0b01` (R140). -/
  | encode
  /-- `DECODE`, command `0b10` (R160). -/
  | decode
  /-- `RSVD3`, the reserved command `0b11` (R192). -/
  | rsvd3
  /-- `CRC.HOLD`, `crc_op = 0b00`; `din` is ignored (R111). -/
  | crcHold (din : Byte)
  /-- `CRC.BIT b`, `crc_op = 0b01`; the message bit `b` is `din[0]`, `din[7:1]` is ignored (R112). -/
  | crcBit (din : Byte)
  /-- `CRC.BYTE d`, `crc_op = 0b10`; the message byte is `din[7:0]` (R113). -/
  | crcByte (din : Byte)
  /-- `CRC.INIT`, `crc_op = 0b11`; `din` is ignored (R114). -/
  | crcInit (din : Byte)
  /-- `WIREFRAME`: version, kind, length, payload, checksum (R80). The length field is the payload's byte count and
  so no operand of its own; the checksum field is any 32-bit value, right or wrong (R85 says when it is right). -/
  | wireframe (version kind : Byte) (payload : List Byte) (checksum : Sum)
  deriving DecidableEq, Repr

end Sys2Proof
end

