-- ==== Sys2Proof/WellFormed.lean ====
section
/-! DEFINITION. Which terms of Instr are instructions of the hardware. -/

namespace Sys2Proof

/-- A Wire Frame's payload has at most 65535 bytes, since its length field has 16 bits (R81, R22); every other
operand is of the width its type gives it, so every other term is well formed (R94: no value is reserved). -/
def Instr.wellFormed : Instr → Bool
  | .nop => true
  | .encode => true
  | .decode => true
  | .rsvd3 => true
  | .crcHold _ => true
  | .crcBit _ => true
  | .crcByte _ => true
  | .crcInit _ => true
  | .wireframe _ _ payload _ => decide (payload.length ≤ 65535)

end Sys2Proof
end

