-- ==== Sys2Proof/Decode.lean ====
section
/-! DEFINITION. Decoding, total on every word of every port and rejecting by name, and after it the encoder, both
from the tables of 30_encoding.md (R80, R86, R88). -/

namespace Sys2Proof

/-- Why a byte sequence is not one Wire Frame (R80). The two other formats reject nothing: every command code and
every control word is defined (R87, R88). -/
inductive DecodeError where
  /-- Fewer than the 4 header bytes. -/
  | shortHeader
  /-- Fewer payload bytes than the length field says. -/
  | shortPayload
  /-- Fewer than the 4 checksum bytes after the payload. -/
  | shortChecksum
  /-- Bytes after the checksum: the sequence begins with a Wire Frame and is not one. -/
  | bytesLeftOver
  deriving DecidableEq, Repr

/-- The command table (R86). -/
def decodeCommand (c : BitVec 2) : Instr :=
  if c = 0b00#2 then .nop
  else if c = 0b01#2 then .encode
  else if c = 0b10#2 then .decode
  else .rsvd3

/-- The control-word table (R88): `crc_op` is bits 9:8, `din` bits 7:0. -/
def decodeControl (cw : BitVec 10) : Instr :=
  let op : BitVec 2 := cw.extractLsb' 8 2
  let din : Byte := cw.extractLsb' 0 8
  if op = 0b00#2 then .crcHold din
  else if op = 0b01#2 then .crcBit din
  else if op = 0b10#2 then .crcByte din
  else .crcInit din

/-- What follows the header of a Wire Frame: `length` payload bytes and 4 checksum bytes (R80, R84). -/
def decodeBody (version kind : Byte) (length : Length) (rest : List Byte) : Except DecodeError Instr :=
  if rest.length < length.toNat then .error .shortPayload
  else
    match rest.drop length.toNat with
    | [a, b, c, d] => .ok (.wireframe version kind (rest.take length.toNat) (Machine.fromBe32 a b c d))
    | _ :: _ :: _ :: _ :: _ :: _ => .error .bytesLeftOver
    | _ => .error .shortChecksum

/-- A byte sequence read as one Wire Frame (R80, R82). -/
def decodeWire : List Byte → Except DecodeError Instr
  | v :: k :: hi :: lo :: rest => decodeBody v k (Machine.fromBe16 hi lo) rest
  | _ => .error .shortHeader

/-- The decoder. -/
def decode : PortWord → Except DecodeError Instr
  | .command c => .ok (decodeCommand c)
  | .control cw => .ok (decodeControl cw)
  | .wire bytes => decodeWire bytes

/-- The encoder, from the same tables (R80, R86, R88). -/
def encode : Instr → PortWord
  | .nop => .command 0b00#2
  | .encode => .command 0b01#2
  | .decode => .command 0b10#2
  | .rsvd3 => .command 0b11#2
  | .crcHold din => .control (0b00#2 ++ din)
  | .crcBit din => .control (0b01#2 ++ din)
  | .crcByte din => .control (0b10#2 ++ din)
  | .crcInit din => .control (0b11#2 ++ din)
  | .wireframe version kind payload checksum => .wire (Machine.wireBytes version kind payload checksum)

/-- Whether an instruction is a control word of the CRC unit, which the host cannot issue to a running block (R88). -/
def Instr.isControlWord : Instr → Bool
  | .nop => false
  | .encode => false
  | .decode => false
  | .rsvd3 => false
  | .crcHold _ => true
  | .crcBit _ => true
  | .crcByte _ => true
  | .crcInit _ => true
  | .wireframe _ _ _ _ => false

/-- The word of a port that a row of spec/opcode_table.json with the bits `w` stands for. A row of one byte is a
2-bit command, a row of two bytes a 10-bit control word, a row of four bytes the header of a Wire Frame as R82's
big-endian word, with a payload and a checksum of zero bytes behind it. A number with bits above the format's width
is no word of the port. -/
def tableWord (nbits w : Nat) : Option PortWord :=
  if nbits ≤ 8 then (if w < 4 then some (.command (BitVec.ofNat 2 w)) else none)
  else if nbits ≤ 16 then (if w < 1024 then some (.control (BitVec.ofNat 10 w)) else none)
  else if nbits ≤ 32 then
    (if w < 4294967296 then
      some (.wire (Machine.be32 (BitVec.ofNat 32 w) ++ List.replicate (w % 65536 + 4) 0#8))
    else none)
  else none

/-- The instruction the decoder reads from a table row's bits. -/
def decodeTableWord (nbits w : Nat) : Option Instr :=
  match tableWord nbits w with
  | some word => (decode word).toOption
  | none => none

end Sys2Proof
end

