-- ==== Sys2Proof/Machine/State.lean ====
section
/-! DEFINITION. The state of one instance of the block (R20 of 10_state.md), the host actions that drive it, the
reasons a step can stop, and the state after reset (R35). -/

namespace Sys2Proof.Machine

/-- Cells of one byte space, `(index, byte)` with the indices strictly rising. An unlisted cell holds no value. -/
abbrev Memory := List Host.Cell

/-- The five error kinds, a closed list (R200 to R205). -/
inductive CodecError where
  /-- Code 1, by `ENCODE` (R201). -/
  | oversizedPayload
  /-- Code 2, by `DECODE` (R202). -/
  | truncatedHeader
  /-- Code 3, by `DECODE` (R203). -/
  | truncatedPayload
  /-- Code 4, by `DECODE` (R204). -/
  | truncatedChecksum
  /-- Code 5, by `DECODE` (R205). -/
  | checksumMismatch
  deriving DecidableEq, Repr

/-- The six values of `ST.code` (R89, R90). -/
inductive StatusCode where
  /-- 0, success. -/
  | ok
  /-- 1 to 5, the one error the command reported. -/
  | err (e : CodecError)
  deriving DecidableEq, Repr

/-- `ST`, the status register (R27). -/
structure Status where
  /-- `ST.busy`, bit 3. -/
  busy : Bool
  /-- `ST.code`, bits 2:0. -/
  code : StatusCode
  deriving DecidableEq, Repr

/-- The two commands that run (R190). -/
inductive Command where
  /-- `ENCODE`; its output record is `WO`. -/
  | encode
  /-- `DECODE`; its output record is `FO`. -/
  | decode
  deriving DecidableEq, Repr

/-- `PHASE`, the sequencer's position (R30). -/
inductive Phase where
  /-- No command is running. -/
  | idle
  /-- `E_CHECK` (R151). -/
  | eCheck
  /-- `E_HDR` (R151). -/
  | eHdr
  /-- `E_PAY` (R151). -/
  | ePay
  /-- `E_SUM` (R151). -/
  | eSum
  /-- `D_HDR` (R177). -/
  | dHdr
  /-- `D_PAY` (R177). -/
  | dPay
  /-- `D_SUM` (R177). -/
  | dSum
  /-- `D_CMP` (R177). -/
  | dCmp
  deriving DecidableEq, Repr

/-- `FI`, the frame input record (R21). -/
structure FrameIn where
  /-- `FI.version`, 8 bits. -/
  version : Byte
  /-- `FI.kind`, 8 bits. -/
  kind : Byte
  /-- `FI.len`, a `LENW`-bit count: a number below `2^LENW`. -/
  len : Nat
  /-- `FI.payload[0..65534]`. -/
  payload : Memory
  deriving DecidableEq, Repr

/-- `WI`, the wire input record (R24). -/
structure WireIn where
  /-- `WI.len`, a `LENW`-bit count: a number below `2^LENW`. -/
  len : Nat
  /-- `WI.bytes[0..WI_CAP-1]`. -/
  bytes : Memory
  deriving DecidableEq, Repr

/-- What `WO` holds when `WO.valid = 1` (R23). -/
structure WireOut where
  /-- `WO.len`, 17 bits. -/
  len : Ptr
  /-- `WO.bytes[0 .. WO.len)`. -/
  bytes : Memory
  deriving DecidableEq, Repr

/-- What `FO` holds when `FO.valid = 1` (R25). -/
structure FrameOut where
  /-- `FO.version`, 8 bits. -/
  version : Byte
  /-- `FO.kind`, 8 bits. -/
  kind : Byte
  /-- `FO.len`, 16 bits. -/
  len : Length
  /-- `FO.payload[0 .. FO.len)`. -/
  payload : Memory
  deriving DecidableEq, Repr

/-- An output record with its valid flag (R23, R25, D8). While the flag is 0 the record's elements hold no value
(U1, U2): there are none here to read. -/
inductive Output (α : Type) where
  /-- The valid flag is 0. -/
  | absent
  /-- The record's command is running; `cells` are the wire bytes it has passed so far, by wire offset. The host has
  no value of the record, flag included (R63, R236, U8). -/
  | building (cells : Memory)
  /-- The valid flag is 1. -/
  | valid (record : α)
  deriving DecidableEq, Repr

/-- The four byte spaces (R50). -/
inductive Space where
  /-- `FI.payload`. -/
  | fiPayload
  /-- `WO.bytes`. -/
  | woBytes
  /-- `WI.bytes`. -/
  | wiBytes
  /-- `FO.payload`. -/
  | foPayload
  deriving DecidableEq, Repr

/-- The registers and the port a host can name (R20, R32, R92). -/
inductive Reg where
  /-- `FI.version`. -/
  | fiVersion
  /-- `FI.kind`. -/
  | fiKind
  /-- `FI.len`. -/
  | fiLen
  /-- `WI.len`. -/
  | wiLen
  /-- `CMD`, a write-only port (R26). -/
  | cmd
  /-- `ST`. -/
  | st
  /-- `WO.valid`. -/
  | woValid
  /-- `WO.len`. -/
  | woLen
  /-- `FO.valid`. -/
  | foValid
  /-- `FO.version`. -/
  | foVersion
  /-- `FO.kind`. -/
  | foKind
  /-- `FO.len`. -/
  | foLen
  deriving DecidableEq, Repr

/-- One action of the host (R32, R92), an input of the machine. DESIGN CHOICE (notes/assumptions/3.md). -/
inductive HostAct where
  /-- One encoded instruction: R92's `CMD <mnemonic>` line (write and wait, one atomic step by R63), R92's line for
  the CRC unit, or a Wire Frame presented at `WI` (R234). -/
  | issue (w : PortWord)
  /-- `WR <reg>, <value>`: a host write of a register. `WR CMD` starts a command and does not wait (R190). -/
  | wr (r : Reg) (value : Nat)
  /-- `POKE <buffer>[<i>], <byte>`: a host write of one cell. -/
  | poke (space : Space) (i : Nat) (b : Byte)
  /-- `RD <reg>`: a host read of a register. -/
  | rd (r : Reg)
  /-- A host read of one cell. -/
  | peek (space : Space) (i : Nat)
  /-- The host does nothing while the sequencer makes one step. -/
  | wait
  /-- The reset event (R230). -/
  | reset
  deriving DecidableEq, Repr

/-- The complete state of one instance (R20), and behind it the model's own fields, which are no state of the block:
the host's side (`pending`, `reads`) and the counters the free values are drawn with (`epoch`, `draws`). -/
structure State where
  /-- `FI` (R21, R22). -/
  fi : FrameIn
  /-- `WO` with `WO.valid` (R23, R31). -/
  wo : Output WireOut
  /-- `WI` (R24). -/
  wi : WireIn
  /-- `FO` with `FO.valid` (R25, R31). -/
  fo : Output FrameOut
  /-- `ST` (R27). -/
  st : Status
  /-- `CRC` (R28). -/
  crc : Sum
  /-- `PHASE` (R30). -/
  phase : Phase
  /-- `PTR` (R30). -/
  ptr : Ptr
  /-- `LEN16` (R29). -/
  len16 : Length
  /-- `SUMRX` (R29). -/
  sumrx : Sum
  /-- The model's own: the host's actions that have not yet happened, oldest first. -/
  pending : List HostAct
  /-- The model's own: the values that host reads returned, newest first. -/
  reads : List Nat
  /-- The model's own: how many `RESET` events there were; the free values of unwritten cells depend on it. -/
  epoch : Nat
  /-- The model's own: how many free values of `ST.code` were drawn. -/
  draws : Nat
  deriving DecidableEq, Repr

/-- Why the machine stops with a fault: a host access to something the spec says holds no value or does not exist.
Instructions raise none of them. -/
inductive Fault where
  /-- Raised by a host read or write of a cell whose index lies outside its space (R50). Safe. -/
  | noSuchCell
  /-- Raised by a host read of an element that holds no value: `WO` or `FO` while its valid flag is 0, or a cell at or
  beyond the record's length (R237, U1, U2, U3), or an input cell never written (R35). Safe. -/
  | noValue
  /-- Raised by a host read of the running command's output record (R236, U8). Safe. -/
  | runningOutput
  /-- Raised by a host read of `CMD`, which has no read path (R26, U11). Safe. -/
  | cmdHasNoReadPath
  deriving DecidableEq, Repr

/-- Why a step has no meaning. -/
inductive Refusal where
  /-- An instruction without a meaning in this model: raised by `exec`'s arm for it. No arm raises it. Safe. -/
  | notModelled (mnemonic : String)
  /-- Raised by the step when a presented byte sequence is not one Wire Frame (R80). Safe. -/
  | undecodable (why : DecodeError)
  /-- Raised by a host write to `FI` or `WI`, a presented Wire Frame included, while `ST.busy = 1`: the model gives
  such a host no meaning (R235, U6). Safe. -/
  | inputWriteWhileBusy
  /-- Raised by `DECODE` with `WI.len > WI_CAP`: the model gives such a host no meaning (R238, U6). Safe. -/
  | inputBeyondCapacity
  /-- Raised by a host write of a number that the register's width cannot hold (R20): there is no such write. Safe. -/
  | valueTooWide
  /-- Raised by the step when a control word for the CRC unit on its own is pending while a command runs: then the
  sequencer drives the unit and nobody else can (R88). Safe. -/
  | controlWordWhileBusy
  /-- Raised by `WIREFRAME` with a payload over 65535 bytes, which cannot be represented (R22); the decoder gives no
  such instruction. Safe. -/
  | payloadTooLong
  deriving DecidableEq, Repr

/-- The machine right after `RESET` (R35): `ST.busy`, `ST.code`, the valid flags and `PHASE` are the spec's; no cell
is listed; `FI.version`, `FI.kind`, `FI.len`, `WI.len`, `CRC`, `PTR`, `LEN16` and `SUMRX`, which the spec leaves
unspecified, are zero. DESIGN CHOICE (notes/assumptions/1.md), unsafe. -/
def State.reset : State where
  fi := { version := 0#8, kind := 0#8, len := 0, payload := [] }
  wo := .absent
  wi := { len := 0, bytes := [] }
  fo := .absent
  st := { busy := false, code := .ok }
  crc := 0#32
  phase := .idle
  ptr := 0#17
  len16 := 0#16
  sumrx := 0#32
  pending := []
  reads := []
  epoch := 0
  draws := 0

end Sys2Proof.Machine
end

