-- ==== Sys2Proof/Machine/Ops.lean ====
section
/-! DEFINITION. The named operations over memories and registers, and the two ways a command ends: `completeOk`
(R194) and `raise` (R208), which is this hardware's taking of an exception. There is no return from an error (R209). -/

namespace Sys2Proof.Machine

/-- The byte a cell holds; `none` for an unlisted cell, which holds no value. -/
def Memory.read : Memory → Nat → Option Byte
  | [], _ => none
  | (a, b) :: rest, i => if i = a then some b else Memory.read rest i

/-- The memory with one cell written, in canonical form. -/
def Memory.write : Memory → Nat → Byte → Memory
  | [], i, b => [(i, b)]
  | (a, old) :: rest, i, b =>
    if i < a then (i, b) :: (a, old) :: rest
    else if i = a then (a, b) :: rest
    else (a, old) :: Memory.write rest i b

/-- Bytes at consecutive cells from `base` on. -/
def Memory.ofBytes : Nat → List Byte → Memory
  | _, [] => []
  | base, b :: rest => (base, b) :: Memory.ofBytes (base + 1) rest

/-- The memory with bytes written to consecutive cells from `base` on. -/
def Memory.writeBytes : Memory → Nat → List Byte → Memory
  | m, _, [] => m
  | m, base, b :: rest => Memory.writeBytes (Memory.write m base b) (base + 1) rest

/-- Whether every cell's index is at least `low` and the indices strictly rise. -/
def Memory.risesFrom : Nat → Memory → Bool
  | _, [] => true
  | low, (a, _) :: rest => decide (low ≤ a) && Memory.risesFrom (a + 1) rest

/-- The canonical form: indices strictly rising. -/
def Memory.wf (m : Memory) : Bool :=
  Memory.risesFrom 0 m

/-- Whether every listed index is below `bound`. -/
def Memory.below (bound : Nat) (m : Memory) : Bool :=
  m.all (fun cell => decide (cell.1 < bound))

/-- The byte of `FI.payload[i]` as `ENCODE` reads it: what the host wrote, else a free byte (R233, U5). -/
def State.payloadByte (s : State) (i : Nat) : Byte :=
  (Memory.read s.fi.payload i).getD (Config.unwrittenPayload s.epoch i)

/-- The byte of `WI.bytes[i]` as `DECODE` reads it: what the host wrote, else a free byte (R234, U5). -/
def State.wireByte (s : State) (i : Nat) : Byte :=
  (Memory.read s.wi.bytes i).getD (Config.unwrittenWire s.epoch i)

/-- The running command's output record, given the command, is absent: its valid flag is 0 and its elements hold no
value (R208). -/
def State.invalidate (s : State) : Command → State
  | .encode => { s with wo := .absent }
  | .decode => { s with fo := .absent }

/-- A command ends: `ST.code` is its result, `ST.busy <- 0`, `PHASE <- IDLE` (R194). -/
def State.finish (s : State) (code : StatusCode) : State :=
  { s with st := { busy := false, code := code }, phase := .idle }

/-- `complete_ok` (R194). -/
def State.completeOk (s : State) : State :=
  s.finish .ok

/-- `raise <Error>`, the error completion (R208): the code, the command's valid flag, busy, phase, and nothing else. -/
def State.raise (s : State) (c : Command) (e : CodecError) : State :=
  (s.invalidate c).finish (.err e)

/-- The CRC register consumes one message byte: `CRC.BYTE` (R113), or eight `CRC.BIT` to the same effect (R120). -/
def State.feed (s : State) (d : Byte) : State :=
  { s with crc := crcByte s.crc d }

/-- The wire bytes passed so far with one more. -/
def Output.pass {α : Type} (o : Output α) (i : Nat) (b : Byte) : Output α :=
  match o with
  | .building cells => .building (Memory.write cells i b)
  | .absent => .building (Memory.write [] i b)
  | .valid _ => .building (Memory.write [] i b)

/-- The wire bytes passed so far; none where no command is building the record. -/
def Output.cells {α : Type} (o : Output α) : Memory :=
  match o with
  | .building cells => cells
  | .absent => []
  | .valid _ => []

/-- A value returned to the host. -/
def State.returns (s : State) (v : Nat) : State :=
  { s with reads := v :: s.reads }

end Sys2Proof.Machine
end

