-- ==== Sys2Proof/Machine/Flags.lean ====
section
/-! DEFINITION. The three flags, the status word, and the conditions of the five errors (R27, R31, R89, R201 to
R205). -/

namespace Sys2Proof.Machine

/-- The number of an error kind (R89). -/
def CodecError.number : CodecError → BitVec 3
  | .oversizedPayload => 1#3
  | .truncatedHeader => 2#3
  | .truncatedPayload => 3#3
  | .truncatedChecksum => 4#3
  | .checksumMismatch => 5#3

/-- `ST.code[2:0]` (R89). -/
def StatusCode.bits : StatusCode → BitVec 3
  | .ok => 0#3
  | .err e => e.number

/-- `ST` as the host reads it, `{ST.busy, ST.code}` (R27, R195). -/
def Status.word (st : Status) : BitVec 4 :=
  BitVec.ofBool st.busy ++ st.code.bits

/-- The valid flag of an output record (R31). -/
def Output.isValid {α : Type} : Output α → Bool
  | .absent => false
  | .building _ => false
  | .valid _ => true

/-- The command a phase belongs to (R151, R177). -/
def Phase.command : Phase → Option Command
  | .idle => none
  | .eCheck => some .encode
  | .eHdr => some .encode
  | .ePay => some .encode
  | .eSum => some .encode
  | .dHdr => some .decode
  | .dPay => some .decode
  | .dSum => some .decode
  | .dCmp => some .decode

/-- `FI.len > 65535`, on the full width (R141, R201). -/
def oversized (fiLen : Nat) : Bool :=
  decide (65535 < fiLen)

/-- `WI.len < 4` (R161, R202). -/
def headerTruncated (wiLen : Nat) : Bool :=
  decide (wiLen < 4)

/-- `WI.len - 4 < LEN16` over the natural numbers, where `WI.len >= 4` (R163, R203). -/
def payloadTruncated (wiLen : Nat) (length : Length) : Bool :=
  decide (wiLen - 4 < length.toNat)

/-- `WI.len - 4 - LEN16 < 4` over the natural numbers, where `WI.len - 4 >= LEN16` (R164, R204). -/
def checksumTruncated (wiLen : Nat) (length : Length) : Bool :=
  decide (wiLen - 4 - length.toNat < 4)

/-- `SUMRX != C`, all 32 bits (R168, R205). -/
def checksumDiffers (received recomputed : Sum) : Bool :=
  decide (received ≠ recomputed)

end Sys2Proof.Machine
end

