-- ==== Sys2Proof/Machine/Operands.lean ====
section
/-! DEFINITION. The operand forms: the Frame in `FI` (R22), the byte sequence in `WI` (R24), the wire fields
assembled from bytes (R91), and a control word's message bit (R88). -/

namespace Sys2Proof.Machine

/-- `FI.payload[0 .. n)` (R22). -/
def State.payloadIn (s : State) (n : Nat) : List Byte :=
  (List.range n).map s.payloadByte

/-- `WI.bytes[a .. a+n)` (R24). -/
def State.wireIn (s : State) (a n : Nat) : List Byte :=
  (List.range n).map (fun j => s.wireByte (a + j))

/-- `LEN16` of an `ENCODE`: `FI.len[15:0]` (R141). -/
def State.frameLength (s : State) : Length :=
  BitVec.ofNat 16 s.fi.len

/-- The bytes of the Frame in `FI` as encoded, without the checksum (R142, R143): what the checksum covers (R144). -/
def State.frameBytes (s : State) : List Byte :=
  headerBytes s.fi.version s.fi.kind s.frameLength ++ s.payloadIn s.frameLength.toNat

/-- The length field of the input, `{WI.bytes[2], WI.bytes[3]}` (R162). -/
def State.wireLength (s : State) : Length :=
  fromBe16 (s.wireByte 2) (s.wireByte 3)

/-- The received checksum of the input, big-endian behind a payload of `n` bytes (R166). -/
def State.wireChecksum (s : State) (n : Nat) : Sum :=
  fromBe32 (s.wireByte (4 + n)) (s.wireByte (5 + n)) (s.wireByte (6 + n)) (s.wireByte (7 + n))

/-- Header byte `j` of an `ENCODE` (R142). -/
def State.headerByte (s : State) (j : Nat) : Byte :=
  (headerBytes s.fi.version s.fi.kind s.len16).getD j 0#8

/-- Checksum byte `m` of an `ENCODE`, 0 the most significant (R145, R198). -/
def State.checksumByte (s : State) (m : Nat) : Byte :=
  (be32 (crcOut s.crc)).getD m 0#8

/-- The message bit of a `CRC.BIT`, `din[0]` (R88). -/
def messageBit (din : Byte) : Bool :=
  din.getLsbD 0

end Sys2Proof.Machine
end

