-- ==== Sys2Proof/Machine/Sequencer.lean ====
section
/-! DEFINITION. The sequencer: how `ENCODE` and `DECODE` advance `PHASE` and `PTR`, one byte step at a time (R151 of
41_marshal.md, R177 of 42_parse.md). -/

namespace Sys2Proof.Machine

/-- `ENCODE` is accepted: `ST.busy <- 1`, `PHASE <- E_CHECK` (R190). -/
def State.startEncode (s : State) : State :=
  { s with st := { s.st with busy := true }, phase := .eCheck }

/-- `DECODE` is accepted: `ST.busy <- 1`, `PHASE <- D_HDR` (R190), where `PTR` starts at 0 (R177). -/
def State.startDecode (s : State) : State :=
  { s with st := { s.st with busy := true }, phase := .dHdr, ptr := 0#17 }

/-- `ENCODE` writes one wire byte at `WO.bytes[PTR]`, `PTR <- PTR + 1` (R151). -/
def State.emit (s : State) (b : Byte) : State :=
  { s with wo := s.wo.pass s.ptr.toNat b, ptr := s.ptr + 1#17 }

/-- `DECODE` notes one wire byte of the frame for `FO` and feeds it to the generator, `PTR <- PTR + 1` (R177). -/
def State.absorb (s : State) (b : Byte) : State :=
  State.feed { s with fo := s.fo.pass s.ptr.toNat b, ptr := s.ptr + 1#17 } b

/-- `E_CHECK` (R141, R151). -/
def State.stepECheck (s : State) : State :=
  if oversized s.fi.len then s.raise .encode .oversizedPayload
  else { s with len16 := s.frameLength, ptr := 0#17, crc := crcInitValue, wo := .building [], phase := .eHdr }

/-- `E_HDR`: one header byte (R142, R151). -/
def State.stepEHdr (s : State) : State :=
  let b := s.headerByte s.ptr.toNat
  let s' := (s.emit b).feed b
  if s'.ptr = 4#17 then { s' with phase := if s.len16 = 0#16 then .eSum else .ePay } else s'

/-- `E_PAY`: one payload byte (R143, R151). -/
def State.stepEPay (s : State) : State :=
  let b := s.payloadByte (s.ptr.toNat - 4)
  let s' := (s.emit b).feed b
  if s'.ptr.toNat = 4 + s.len16.toNat then { s' with phase := .eSum } else s'

/-- `E_SUM`: one checksum byte, `CRC.HOLD`; behind the last, completion (R145, R146, R151). -/
def State.stepESum (s : State) : State :=
  let s' := s.emit (s.checksumByte (s.ptr.toNat - 4 - s.len16.toNat))
  if s'.ptr.toNat = 8 + s.len16.toNat then
    State.completeOk { s' with wo := .valid { len := s'.ptr, bytes := s'.wo.cells } }
  else s'

/-- The check made once the payload has passed, before the checksum is read (R164, R177). -/
def State.enterDSum (s : State) : State :=
  if checksumTruncated s.wi.len s.len16 then s.raise .decode .truncatedChecksum else { s with phase := .dSum }

/-- The check made once the header has passed (R163, R177). -/
def State.enterDPay (s : State) : State :=
  if payloadTruncated s.wi.len s.len16 then s.raise .decode .truncatedPayload
  else if s.len16 = 0#16 then s.enterDSum
  else { s with phase := .dPay }

/-- `LEN16` as the header bytes pass: byte 2 is its upper half, byte 3 its lower (R162, R52). -/
def State.noteLength (s : State) (i : Nat) (b : Byte) : State :=
  if i = 2 then { s with len16 := fromBe16 b (s.len16.extractLsb' 0 8) }
  else if i = 3 then { s with len16 := fromBe16 (s.len16.extractLsb' 8 8) b }
  else s

/-- `D_HDR`: at `PTR = 0` the check of R161 and `CRC.INIT`; then one header byte; behind the fourth, R163 (R177). -/
def State.stepDHdr (s : State) : State :=
  if s.ptr = 0#17 && headerTruncated s.wi.len then s.raise .decode .truncatedHeader
  else
    let begun : State := if s.ptr = 0#17 then { s with crc := crcInitValue, fo := .building [] } else s
    let b := s.wireByte s.ptr.toNat
    let s' := (begun.absorb b).noteLength s.ptr.toNat b
    if s'.ptr = 4#17 then s'.enterDPay else s'

/-- `D_PAY`: one payload byte (R165, R177). -/
def State.stepDPay (s : State) : State :=
  let s' := s.absorb (s.wireByte s.ptr.toNat)
  if s'.ptr.toNat = 4 + s.len16.toNat then s'.enterDSum else s'

/-- `D_SUM`: one checksum byte shifted into `SUMRX`, `CRC.HOLD` (R166, R177). -/
def State.stepDSum (s : State) : State :=
  let s' : State :=
    { s with sumrx := s.sumrx.extractLsb' 0 24 ++ s.wireByte s.ptr.toNat, ptr := s.ptr + 1#17 }
  if s'.ptr.toNat = 8 + s.len16.toNat then { s' with phase := .dCmp } else s'

/-- The Frame in the wire bytes `DECODE` noted (R169). -/
def State.notedFrame (s : State) : FrameOut where
  version := (Memory.read s.fo.cells 0).getD 0#8
  kind := (Memory.read s.fo.cells 1).getD 0#8
  len := s.len16
  payload := (s.fo.cells.drop 4).map (fun cell => (cell.1 - 4, cell.2))

/-- `D_CMP`: the comparison, and success or the mismatch (R168, R169, R177). -/
def State.stepDCmp (s : State) : State :=
  if checksumDiffers s.sumrx (crcOut s.crc) then s.raise .decode .checksumMismatch
  else State.completeOk { s with fo := .valid s.notedFrame }

/-- One step of the sequencer; an idle block does nothing (R231). -/
def State.advance (s : State) : State :=
  match s.phase with
  | .idle => s
  | .eCheck => s.stepECheck
  | .eHdr => s.stepEHdr
  | .ePay => s.stepEPay
  | .eSum => s.stepESum
  | .dHdr => s.stepDHdr
  | .dPay => s.stepDPay
  | .dSum => s.stepDSum
  | .dCmp => s.stepDCmp

end Sys2Proof.Machine
end

