-- ==== Sys2Proof/Machine/Access.lean ====
section
/-! DEFINITION. The host's accesses: register and cell writes and reads, the raw write of `CMD`, the reset event, and
the script lines that expand to them (R32, R92, R190, R195, R230, R235 to R237). -/

namespace Sys2Proof.Machine

/-- A host write of an input register or cell: without a meaning while a command runs (R235, U6). -/
def State.inputWrite (s s' : State) : Host.Outcome State Fault Refusal :=
  if s.st.busy then .refused .inputWriteWhileBusy else .next s'

/-- A raw host write of `CMD` (R190): `0b01` and `0b10` start a command and do not wait, `0b00` and `0b11` change
nothing (R191, R192); ignored while a command runs (R193). A `DECODE` of more input than `WI.bytes` has cells is given
no meaning (R238, U6). -/
def State.commandWrite (s : State) (c : BitVec 2) : Host.Outcome State Fault Refusal :=
  if s.st.busy then .next s
  else if c = 0b01#2 then .next s.startEncode
  else if c = 0b10#2 then
    if Config.fitsWire s.wi.len then .next s.startDecode else .refused .inputBeyondCapacity
  else .next s

/-- `WR <reg>, <value>` (R32, R92). A number the register cannot hold is no such write; a write of an output register
or of `ST` has no effect (R27, R32). -/
def State.writeReg (s : State) (r : Reg) (v : Nat) : Host.Outcome State Fault Refusal :=
  match r with
  | .fiVersion =>
    if v < 256 then s.inputWrite { s with fi := { s.fi with version := BitVec.ofNat 8 v } }
    else .refused .valueTooWide
  | .fiKind =>
    if v < 256 then s.inputWrite { s with fi := { s.fi with kind := BitVec.ofNat 8 v } }
    else .refused .valueTooWide
  | .fiLen =>
    if Config.fitsLen v then s.inputWrite { s with fi := { s.fi with len := v } } else .refused .valueTooWide
  | .wiLen =>
    if Config.fitsLen v then s.inputWrite { s with wi := { s.wi with len := v } } else .refused .valueTooWide
  | .cmd => if v < 4 then s.commandWrite (BitVec.ofNat 2 v) else .refused .valueTooWide
  | .st => .next s
  | .woValid => .next s
  | .woLen => .next s
  | .foValid => .next s
  | .foVersion => .next s
  | .foKind => .next s
  | .foLen => .next s

/-- Whether a space has a cell of that index (R50). -/
def Space.hasCell : Space → Nat → Bool
  | .fiPayload, i => decide (i < 65535)
  | .woBytes, i => decide (i < 65543)
  | .wiBytes, i => Config.fitsWire (i + 1)
  | .foPayload, i => decide (i < 65535)

/-- `POKE <buffer>[<i>], <byte>` (R32, R92); a write of an output cell has no effect (R32). -/
def State.poke (s : State) (space : Space) (i : Nat) (b : Byte) : Host.Outcome State Fault Refusal :=
  if space.hasCell i then
    match space with
    | .fiPayload => s.inputWrite { s with fi := { s.fi with payload := Memory.write s.fi.payload i b } }
    | .wiBytes => s.inputWrite { s with wi := { s.wi with bytes := Memory.write s.wi.bytes i b } }
    | .woBytes => .next s
    | .foPayload => .next s
  else .fault .noSuchCell

/-- The value of a register or a cell goes to the host; an element without a value faults (R237). -/
def State.answer (s : State) (v : Option Nat) : Host.Outcome State Fault Refusal :=
  match v with
  | some n => .next (s.returns n)
  | none => .fault .noValue

/-- A host read of the output record of command `c`: without a value while that command runs (R236, U8). -/
def State.outputRead (s : State) (c : Command) (v : Option Nat) : Host.Outcome State Fault Refusal :=
  if s.phase.command = some c then .fault .runningOutput else s.answer v

/-- An element of an output record; none unless the valid flag is 1 (R23, R25, R237). -/
def Output.element {α : Type} (o : Output α) (f : α → Option Nat) : Option Nat :=
  match o with
  | .absent => none
  | .building _ => none
  | .valid r => f r

/-- A host read of `ST` (R195): `{ST.busy, ST.code}`, and while busy the code is a free value among the six. -/
def State.readStatus (s : State) : State :=
  if s.st.busy then
    State.returns { s with draws := s.draws + 1 } (8 + (Config.codeWhileBusy s.draws).val)
  else s.returns s.st.word.toNat

/-- `RD <reg>` (R32, R92). -/
def State.readReg (s : State) (r : Reg) : Host.Outcome State Fault Refusal :=
  match r with
  | .fiVersion => s.answer (some s.fi.version.toNat)
  | .fiKind => s.answer (some s.fi.kind.toNat)
  | .fiLen => s.answer (some s.fi.len)
  | .wiLen => s.answer (some s.wi.len)
  | .cmd => .fault .cmdHasNoReadPath
  | .st => .next s.readStatus
  | .woValid => s.outputRead .encode (some s.wo.isValid.toNat)
  | .woLen => s.outputRead .encode (s.wo.element (fun r => some r.len.toNat))
  | .foValid => s.outputRead .decode (some s.fo.isValid.toNat)
  | .foVersion => s.outputRead .decode (s.fo.element (fun r => some r.version.toNat))
  | .foKind => s.outputRead .decode (s.fo.element (fun r => some r.kind.toNat))
  | .foLen => s.outputRead .decode (s.fo.element (fun r => some r.len.toNat))

/-- The byte a cell of any of the four spaces holds: none where the spec gives the cell no value (U1, U2, U3, U5). -/
def State.cell (s : State) (space : Space) (i : Nat) : Option Byte :=
  match space with
  | .fiPayload => Memory.read s.fi.payload i
  | .wiBytes => Memory.read s.wi.bytes i
  | .woBytes =>
    match s.wo with
    | .absent => none
    | .building _ => none
    | .valid r => Memory.read r.bytes i
  | .foPayload =>
    match s.fo with
    | .absent => none
    | .building _ => none
    | .valid r => Memory.read r.payload i

/-- A host read of one cell (R32, R56, R237). -/
def State.peek (s : State) (space : Space) (i : Nat) : Host.Outcome State Fault Refusal :=
  if space.hasCell i then
    match space with
    | .fiPayload => s.answer ((s.cell .fiPayload i).map BitVec.toNat)
    | .wiBytes => s.answer ((s.cell .wiBytes i).map BitVec.toNat)
    | .woBytes => s.outputRead .encode ((s.cell .woBytes i).map BitVec.toNat)
    | .foPayload => s.outputRead .decode ((s.cell .foPayload i).map BitVec.toNat)
  else .fault .noSuchCell

/-- The reset event (R230): every state element as in R35, a running command abandoned. The host's side stays. -/
def State.resetEvent (s : State) : State :=
  { State.reset with pending := s.pending, reads := s.reads, epoch := s.epoch + 1, draws := s.draws }

/-- `LOAD <buffer>, <bytes>` (R92): cells `0, 1, ...`. -/
def loadLine (space : Space) (bytes : List Byte) : List HostAct :=
  (bytes.zipIdx).map (fun p => .poke space p.2 p.1)

/-- `SETFRAME v, k, <bytes>` (R92). -/
def setFrameLine (version kind : Byte) (bytes : List Byte) : List HostAct :=
  [.wr .fiVersion version.toNat, .wr .fiKind kind.toNat, .wr .fiLen bytes.length] ++ loadLine .fiPayload bytes

/-- `COPY WI, WO` (R92): it requires `WO.valid = 1`. -/
def State.copyLine (s : State) : Option (List HostAct) :=
  match s.wo with
  | .absent => none
  | .building _ => none
  | .valid r => some (.wr .wiLen r.len.toNat :: r.bytes.map (fun cell => .poke .wiBytes cell.1 cell.2))

end Sys2Proof.Machine
end

