-- ==== Sys2Proof/Machine/Control.lean ====
section
/-! DEFINITION. `NOP` and the reserved command (43_control.md). -/

namespace Sys2Proof.Machine

/-- `NOP`: no state element changes (R191). -/
def execNop (s : State) : Host.Outcome State Fault Refusal :=
  .next s

/-- The reserved command `0b11`: no state element changes and no error is reported (R192). -/
def execRsvd3 (s : State) : Host.Outcome State Fault Refusal :=
  .next s

end Sys2Proof.Machine
end

