-- ==== Sys2Proof/Machine/Crc.lean ====
section
/-! DEFINITION. The four micro-operations of the CRC generator (40_crc32.md). None changes anything but `CRC` (R123). -/

namespace Sys2Proof.Machine

/-- `CRC.HOLD`: `CRC <- CRC`, whatever `din` (R111). -/
def execCrcHold (_din : Byte) (s : State) : Host.Outcome State Fault Refusal :=
  .next { s with crc := s.crc }

/-- `CRC.BIT b` with `b = din[0]` (R112). -/
def execCrcBit (din : Byte) (s : State) : Host.Outcome State Fault Refusal :=
  .next { s with crc := crcBit s.crc (messageBit din) }

/-- `CRC.BYTE d` with `d = din` (R113). -/
def execCrcByte (din : Byte) (s : State) : Host.Outcome State Fault Refusal :=
  .next (s.feed din)

/-- `CRC.INIT`: `CRC <- 0xFFFFFFFF`, whatever `din` (R114). -/
def execCrcInit (_din : Byte) (s : State) : Host.Outcome State Fault Refusal :=
  .next { s with crc := crcInitValue }

end Sys2Proof.Machine
end

