-- ==== Sys2Proof/Machine/Marshal.lean ====
section
/-! DEFINITION. `ENCODE`, the frame marshaller (41_marshal.md), as one atomic step (R63). -/

namespace Sys2Proof.Machine

/-- The whole of an `ENCODE` from its acceptance to its completion (R141 to R146, assembled in 41_marshal.md section
3). The working registers end as the sequencer leaves them (R151; notes/assumptions/9.md). -/
def State.marshal (s : State) : State :=
  if oversized s.fi.len then s.raise .encode .oversizedPayload
  else
    let covered := s.frameBytes
    let register := crcRegister covered
    let size : Ptr := s.frameLength.setWidth 17 + 8#17
    State.completeOk
      { s with
        len16 := s.frameLength
        crc := register
        ptr := size
        wo := .valid { len := size, bytes := Memory.ofBytes 0 (covered ++ be32 (crcOut register)) } }

/-- `ENCODE` (R140); ignored while a command runs (R193). -/
def execEncode (s : State) : Host.Outcome State Fault Refusal :=
  if s.st.busy then .next s else .next s.marshal

end Sys2Proof.Machine
end

