-- ==== Sys2Proof/Machine/Parse.lean ====
section
/-! DEFINITION. `DECODE`, the frame parser and checksum validator (42_parse.md), as one atomic step (R63). -/

namespace Sys2Proof.Machine

/-- The sequencer's registers once the first `n` bytes of the input have passed the generator: `LEN16` is the length
field, `PTR` and `CRC` have reached byte `n` (R162, R167, R177). -/
def State.consumed (s : State) (n : Nat) : State :=
  { s with len16 := s.wireLength, ptr := BitVec.ofNat 17 n, crc := crcRegister (s.wireIn 0 n) }

/-- The Frame an input with `length` payload bytes holds (R169). -/
def State.parsedFrame (s : State) (length : Length) : FrameOut where
  version := s.wireByte 0
  kind := s.wireByte 1
  len := length
  payload := Memory.ofBytes 0 (s.wireIn 4 length.toNat)

/-- The whole of a `DECODE` from its acceptance to its completion: the checks in the source's order, the first that
fails ends it (R161 to R169, R174, assembled in 42_parse.md section 3). The working registers end as the sequencer
leaves them (R177; notes/assumptions/9.md). -/
def State.parse (s : State) : State :=
  let n := s.wi.len
  if headerTruncated n then State.raise { s with ptr := 0#17 } .decode .truncatedHeader
  else
    let length := s.wireLength
    if payloadTruncated n length then (s.consumed 4).raise .decode .truncatedPayload
    else
      let passed := s.consumed (4 + length.toNat)
      if checksumTruncated n length then passed.raise .decode .truncatedChecksum
      else
        let received := s.wireChecksum length.toNat
        let compared : State := { passed with ptr := BitVec.ofNat 17 (8 + length.toNat), sumrx := received }
        if checksumDiffers received (crcOut compared.crc) then compared.raise .decode .checksumMismatch
        else State.completeOk { compared with fo := .valid (s.parsedFrame length) }

/-- `DECODE` (R160); ignored while a command runs (R193); a host that claims more input than `WI.bytes` has cells is
given no meaning (R238, U6). -/
def execDecode (s : State) : Host.Outcome State Fault Refusal :=
  if s.st.busy then .next s
  else if Config.fitsWire s.wi.len then .next s.parse
  else .refused .inputBeyondCapacity

end Sys2Proof.Machine
end

