-- ==== Sys2Proof/Machine/Wire.lean ====
section
/-! DEFINITION. `WIREFRAME`, the data format (R80 to R85): a Wire Frame presented at the block's wire input. -/

namespace Sys2Proof.Machine

/-- The host loads a byte sequence into `WI`: cells `0, 1, ...` and `WI.len` (R234; R92's `LOAD` and `WR`). -/
def State.present (s : State) (bytes : List Byte) : State :=
  { s with wi := { len := bytes.length, bytes := Memory.writeBytes s.wi.bytes 0 bytes } }

/-- A Wire Frame is presented at `WI`, where it begins at offset 0 (R57, R234). The row is a data format and no
operation; that running it presents the frame is a DESIGN CHOICE (notes/assumptions/6.md). While a command runs the
host must not write its inputs (R235); a payload over 65535 bytes has no Wire Frame (R22). -/
def execWireframe (version kind : Byte) (payload : List Byte) (checksum : Sum) (s : State) :
    Host.Outcome State Fault Refusal :=
  if payload.length ≤ 65535 then
    if s.st.busy then .refused .inputWriteWhileBusy
    else .next (s.present (wireBytes version kind payload checksum))
  else .refused .payloadTooLong

end Sys2Proof.Machine
end

