-- ==== Sys2Proof/Machine/Dispatch.lean ====
section
/-! DEFINITION. exec: one arm per instruction, each one call of its meaning. -/

namespace Sys2Proof.Machine

def exec (i : Instr) (s : State) : Host.Outcome State Fault Refusal :=
  match i with
  | .nop => Sys2Proof.Machine.execNop s
  | .encode => Sys2Proof.Machine.execEncode s
  | .decode => Sys2Proof.Machine.execDecode s
  | .rsvd3 => Sys2Proof.Machine.execRsvd3 s
  | .crcHold din => Sys2Proof.Machine.execCrcHold din s
  | .crcBit din => Sys2Proof.Machine.execCrcBit din s
  | .crcByte din => Sys2Proof.Machine.execCrcByte din s
  | .crcInit din => Sys2Proof.Machine.execCrcInit din s
  | .wireframe version kind payload checksum => Sys2Proof.Machine.execWireframe version kind payload checksum s

end Sys2Proof.Machine
end

