-- ==== Sys2Proof/Machine/Run.lean ====
section
/-! DEFINITION. What a pending host action does, and how an instruction reaches `exec`. -/

namespace Sys2Proof.Machine

/-- A word at a port is decoded and run. A control word drives the CRC unit on its own, so it has no meaning while
the sequencer drives that unit (R88). -/
def State.runWord (s : State) (w : PortWord) : Host.Outcome State Fault Refusal :=
  match decode w with
  | .error why => .refused (.undecodable why)
  | .ok i => if i.isControlWord && s.st.busy then .refused .controlWordWhileBusy else exec i s

/-- One host action (R92). -/
def State.act (s : State) (a : HostAct) : Host.Outcome State Fault Refusal :=
  match a with
  | .issue w => s.runWord w
  | .wr r v => s.writeReg r v
  | .poke space i b => s.poke space i b
  | .rd r => s.readReg r
  | .peek space i => s.peek space i
  | .wait => .next s.advance
  | .reset => .next s.resetEvent

/-- The oldest pending host action happens; with none pending the block goes on by itself (R194, R231). -/
def State.proceed (s : State) : Host.Outcome State Fault Refusal :=
  match s.pending with
  | [] => .next s.advance
  | a :: rest => State.act { s with pending := rest } a

/-- The state with the word of a table row pending first. -/
def State.withPending (s : State) (nbits w : Nat) : State :=
  match tableWord nbits w with
  | some word => { s with pending := .issue word :: s.pending }
  | none => s

end Sys2Proof.Machine
end

