-- ==== Sys2Proof/Machine/Step.lean ====
section
/-! DEFINITION. The step, and where its next instruction stands. -/

namespace Sys2Proof.Machine

/-- One step of the machine. -/
def step (s : State) : Host.Outcome State Fault Refusal :=
  s.proceed

/-- `s` with one instruction, its bits numbered as spec/opcode_table.json numbers them, as the next thing the host
does (notes/assumptions/3.md). -/
def State.withFetchWord (s : State) (nbits w : Nat) : State :=
  s.withPending nbits w

end Sys2Proof.Machine
end

