-- ==== Sys2Proof/Safety.lean ====
section
/-! DEFINITION. The terms the claims are stated in: sequences of instructions, valid Wire Frames (R85), the canonical
form of the memories, and the invariant of the machine. -/

namespace Sys2Proof.Machine

/-- Instructions one after the other, stopping at the first that does not answer a next state. -/
def execAll : List Instr → State → Host.Outcome State Fault Refusal
  | [], s => .next s
  | i :: rest, s =>
    match exec i s with
    | .next t => execAll rest t
    | .fault r => .fault r
    | .refused r => .refused r

/-- The outcome is a next state with the property. -/
def Answers (o : Host.Outcome State Fault Refusal) (p : State → Prop) : Prop :=
  ∃ t, o = .next t ∧ p t

/-- Command `c` has just completed: success with its output valid, or one error with its output invalid (R194, R208). -/
def State.Completed (s : State) (c : Command) : Prop :=
  s.st.busy = false ∧ s.phase = .idle
    ∧ match c with
      | .encode => if s.st.code = .ok then s.wo.isValid = true else s.wo = .absent
      | .decode => if s.st.code = .ok then s.fo.isValid = true else s.fo = .absent

/-- The two bytes as R91 numbers them. -/
def wordOf2 (a b : Byte) : Nat :=
  a.toNat * 256 + b.toNat

/-- The four bytes as R91 numbers them. -/
def wordOf4 (a b c d : Byte) : Nat :=
  a.toNat * 2 ^ 24 + b.toNat * 2 ^ 16 + c.toNat * 2 ^ 8 + d.toNat

/-- The number in the length field of `WI` (R162, R91). -/
def State.lengthField (s : State) : Nat :=
  wordOf2 (s.wireByte 2) (s.wireByte 3)

/-- The number in the checksum field of `WI`, behind `n` payload bytes (R166, R91). -/
def State.checksumField (s : State) (n : Nat) : Nat :=
  wordOf4 (s.wireByte (4 + n)) (s.wireByte (5 + n)) (s.wireByte (6 + n)) (s.wireByte (7 + n))

/-- A byte sequence begins with a valid Wire Frame (R85). -/
def BeginsWithValidFrame (bytes : List Byte) : Prop :=
  4 ≤ bytes.length ∧
    let n := wordOf2 (bytes.getD 2 0#8) (bytes.getD 3 0#8)
    n + 8 ≤ bytes.length ∧
      wordOf4 (bytes.getD (4 + n) 0#8) (bytes.getD (5 + n) 0#8) (bytes.getD (6 + n) 0#8) (bytes.getD (7 + n) 0#8)
        = (crc32 (bytes.take (4 + n))).toNat

/-- A byte sequence is a Wire Frame with the right checksum and nothing behind it: `encode(v, k, p)` of 41_marshal.md
section 3. -/
def IsValidFrame (bytes : List Byte) : Prop :=
  ∃ version kind payload,
    payload.length ≤ 65535 ∧
      bytes = wireBytes version kind payload
        (crc32 (headerBytes version kind (BitVec.ofNat 16 payload.length) ++ payload))

/-- The bytes a memory lists, in the order of their indices. -/
def Memory.bytes (m : Memory) : List Byte :=
  m.map Prod.snd

/-- The memory lists exactly the cells `0 .. n-1`. -/
def Memory.fills (m : Memory) (n : Nat) : Prop :=
  m.map Prod.fst = List.range n

/-- Everything an output record holds of its byte space is in canonical form. -/
def Output.canonical {α : Type} (memory : α → Memory) : Output α → Prop
  | .absent => True
  | .building cells => Memory.wf cells = true
  | .valid r => Memory.wf (memory r) = true

/-- The four byte spaces are in canonical form, and the host's cells lie inside their spaces (R50). -/
def State.Canonical (s : State) : Prop :=
  Memory.wf s.fi.payload = true ∧ Memory.below 65535 s.fi.payload = true
    ∧ Memory.wf s.wi.bytes = true ∧ Memory.below Config.wiCap s.wi.bytes = true
    ∧ s.wo.canonical WireOut.bytes ∧ s.fo.canonical FrameOut.payload

/-- No command is building the record. -/
def Output.settled {α : Type} : Output α → Prop
  | .absent => True
  | .building _ => False
  | .valid _ => True

/-- `ENCODE` under way: the length is the Frame's, and the bytes written are the first `PTR` of `passed` (R151). -/
def State.Marshalling (s : State) (passed : List Byte) : Prop :=
  s.fi.len = s.len16.toNat ∧ s.fo.settled
    ∧ ∃ cells, s.wo = .building cells ∧ Memory.fills cells s.ptr.toNat
        ∧ Memory.bytes cells = passed.take s.ptr.toNat

/-- `DECODE` under way: `n` bytes of the input have been noted and have passed the generator (R177). -/
def State.Parsing (s : State) (n : Nat) : Prop :=
  s.wo.settled ∧ n ≤ s.wi.len
    ∧ ∃ cells, s.fo = .building cells ∧ Memory.fills cells n ∧ Memory.bytes cells = s.wireIn 0 n
        ∧ s.crc = crcRegister (s.wireIn 0 n)

/-- What holds in each phase (R151, R177). -/
def State.PhaseInv (s : State) : Prop :=
  match s.phase with
  | .idle => s.wo.settled ∧ s.fo.settled
  | .eCheck => s.wo.settled ∧ s.fo.settled
  | .eHdr => s.ptr.toNat < 4 ∧ s.Marshalling s.frameBytes ∧ s.crc = crcRegister (s.frameBytes.take s.ptr.toNat)
  | .ePay =>
    4 ≤ s.ptr.toNat ∧ s.ptr.toNat < 4 + s.len16.toNat
      ∧ s.Marshalling s.frameBytes ∧ s.crc = crcRegister (s.frameBytes.take s.ptr.toNat)
  | .eSum =>
    4 + s.len16.toNat ≤ s.ptr.toNat ∧ s.ptr.toNat < 8 + s.len16.toNat
      ∧ s.Marshalling (s.frameBytes ++ be32 (crcOut s.crc)) ∧ s.crc = crcRegister s.frameBytes
  | .dHdr =>
    s.ptr.toNat < 4 ∧ s.wi.len ≤ Config.wiCap ∧ s.wo.settled
      ∧ (s.ptr = 0#17 → s.fo.settled) ∧ (s.ptr ≠ 0#17 → 4 ≤ s.wi.len ∧ s.Parsing s.ptr.toNat)
  | .dPay =>
    4 ≤ s.ptr.toNat ∧ s.ptr.toNat < 4 + s.len16.toNat ∧ 4 + s.len16.toNat ≤ s.wi.len
      ∧ s.wi.len ≤ Config.wiCap ∧ s.Parsing s.ptr.toNat
  | .dSum =>
    4 + s.len16.toNat ≤ s.ptr.toNat ∧ s.ptr.toNat < 8 + s.len16.toNat ∧ 8 + s.len16.toNat ≤ s.wi.len
      ∧ s.wi.len ≤ Config.wiCap ∧ s.Parsing (4 + s.len16.toNat)
  | .dCmp =>
    s.ptr.toNat = 8 + s.len16.toNat ∧ 8 + s.len16.toNat ≤ s.wi.len
      ∧ s.wi.len ≤ Config.wiCap ∧ s.Parsing (4 + s.len16.toNat)

/-- The invariant of the machine: canonical memories, lengths of their registers' width, `ST.busy` exactly in a
phase other than `IDLE` (R30, R190, R194), a valid `WO` is exactly a valid Wire Frame of `WO.len` bytes (R23, R147),
a valid `FO` has exactly `FO.len` payload bytes (R25), and the phase's own part. -/
structure State.Inv (s : State) : Prop where
  canonical : s.Canonical
  frameLen : s.fi.len < 2 ^ Config.lenw
  wireLen : s.wi.len < 2 ^ Config.lenw
  busy : s.st.busy = decide (s.phase ≠ .idle)
  wireOut : ∀ r, s.wo = .valid r → Memory.fills r.bytes r.len.toNat ∧ IsValidFrame (Memory.bytes r.bytes)
  frameOut : ∀ r, s.fo = .valid r → Memory.fills r.payload r.len.toNat
  phase : s.PhaseInv

end Sys2Proof.Machine
end

