-- ==== Sys2Proof/Certificates/Slice0/Obligations.lean ====
section
/-! DEFINITION. The statements for the provers, from the numbered rules of spec/. -/

open Sys2Proof Sys2Proof.Machine

/-! ### The encodings (30_encoding.md) -/

/-- R86: `NOP` is `0b00`, `ENCODE` `0b01`, `DECODE` `0b10`, and `0b11` is the reserved command; R88: `crc_op` 0, 1, 2,
3 in bits 9:8 is `CRC.HOLD`, `CRC.BIT`, `CRC.BYTE`, `CRC.INIT`, each with any `din` in bits 7:0. -/
def Obligations.CommandAndControlCodes : Prop :=
  decode (.command 0b00#2) = .ok .nop ∧ decode (.command 0b01#2) = .ok .encode
    ∧ decode (.command 0b10#2) = .ok .decode ∧ decode (.command 0b11#2) = .ok .rsvd3
    ∧ ∀ din : BitVec 8,
        decode (.control (0b00#2 ++ din)) = .ok (.crcHold din) ∧ decode (.control (0b01#2 ++ din)) = .ok (.crcBit din)
          ∧ decode (.control (0b10#2 ++ din)) = .ok (.crcByte din)
          ∧ decode (.control (0b11#2 ++ din)) = .ok (.crcInit din)

/-- Words written out from the tables of 30_encoding.md decode to what they stand for. That a row of 8, 16 or 32 bits
is read as a command, a control word or the header of a frame of zero payload and checksum bytes, and that a set bit
above the format's width is no word, is the model's choice (log 6). -/
def Obligations.TableWordsDecode : Prop :=
  decodeTableWord 8 0 = some .nop ∧ decodeTableWord 8 1 = some .encode ∧ decodeTableWord 8 2 = some .decode
    ∧ decodeTableWord 8 3 = some .rsvd3 ∧ decodeTableWord 8 4 = none
    ∧ decodeTableWord 16 0x0FF = some (.crcHold 0xFF#8) ∧ decodeTableWord 16 0x101 = some (.crcBit 0x01#8)
    ∧ decodeTableWord 16 0x231 = some (.crcByte 0x31#8) ∧ decodeTableWord 16 0x300 = some (.crcInit 0x00#8)
    ∧ decodeTableWord 16 0x400 = none
    ∧ decodeTableWord 32 0x01020003 = some (.wireframe 0x01#8 0x02#8 [0#8, 0#8, 0#8] 0#32)

/-- For every well-formed instruction, decoding its encoding gives it back, with every operand at every value its
encoding admits. -/
def Obligations.DecodingInvertsEncoding : Prop :=
  ∀ i : Instr, i.wellFormed = true → decode (encode i) = .ok i

/-- No two words of a port decode to one instruction, and what decodes is well formed: encoding the instruction gives
the word back. -/
def Obligations.EncodingInvertsDecoding : Prop :=
  ∀ (w : PortWord) (i : Instr), decode w = .ok i → i.wellFormed = true ∧ encode i = w

/-- R81: a byte sequence is one Wire Frame exactly when it has the 4 header bytes and its size is the length field
plus 8; the size is 8 to 65543, 8 exactly with length 0 and 65543 exactly with length 65535. -/
def Obligations.WireFrameSizeIsLengthPlusEight : Prop :=
  ∀ bytes : List Byte,
    let length := wordOf2 (bytes.getD 2 0#8) (bytes.getD 3 0#8)
    ((∃ i, decode (.wire bytes) = .ok i) ↔ 4 ≤ bytes.length ∧ bytes.length = length + 8)
      ∧ ((∃ i, decode (.wire bytes) = .ok i) →
        8 ≤ bytes.length ∧ bytes.length ≤ 65543
          ∧ (bytes.length = 8 ↔ length = 0) ∧ (bytes.length = 65543 ↔ length = 65535))

/-- R89: the numbers of the six status codes, all distinct, and none is 6 or 7 (R90). -/
def Obligations.StatusCodesAreNumberedZeroToFive : Prop :=
  StatusCode.ok.bits = 0#3 ∧ (StatusCode.err .oversizedPayload).bits = 1#3
    ∧ (StatusCode.err .truncatedHeader).bits = 2#3 ∧ (StatusCode.err .truncatedPayload).bits = 3#3
    ∧ (StatusCode.err .truncatedChecksum).bits = 4#3 ∧ (StatusCode.err .checksumMismatch).bits = 5#3
    ∧ ∀ c : StatusCode, c.bits ≠ 6#3 ∧ c.bits ≠ 7#3

/-! ### The CRC generator (40_crc32.md) -/

/-- R111: `CRC.HOLD` changes nothing, whatever `din`. -/
def Obligations.CrcHoldChangesNothing : Prop :=
  ∀ (din : Byte) (s : State), exec (.crcHold din) s = .next s

/-- R112: with `fb = CRC[0] ^ b` and `b = din[0]`, `CRC <- {0b0, CRC[31:1]} ^ (fb ? 0xEDB88320 : 0)`, and nothing else
changes; bit by bit, `CRC'[j] = CRC[j+1] ^ (POLY[j] & fb)` and `CRC'[31] = fb`. -/
def Obligations.CrcBitShiftsWithFeedback : Prop :=
  ∀ (din : Byte) (s : State),
    let fb := s.crc.getLsbD 0 ^^ din.getLsbD 0
    Answers (exec (.crcBit din) s) fun t =>
      t.crc = ((0#1 ++ s.crc.extractLsb' 1 31 : BitVec 32) ^^^ (if fb then 0xEDB88320#32 else 0x00000000#32))
        ∧ (∀ j, j < 31 → t.crc.getLsbD j = (s.crc.getLsbD (j + 1) ^^ ((0xEDB88320#32).getLsbD j && fb)))
        ∧ t.crc.getLsbD 31 = fb
        ∧ t = { s with crc := t.crc }

/-- R113: `CRC.BYTE d` is `CRC.BIT d[0]`, then `CRC.BIT d[1]`, up to `CRC.BIT d[7]`; it answers a next state. -/
def Obligations.CrcByteIsEightCrcBits : Prop :=
  ∀ (d : Byte) (s : State),
    exec (.crcByte d) s
        = execAll ([0, 1, 2, 3, 4, 5, 6, 7].map fun i => .crcBit ((BitVec.ofBool (d.getLsbD i)).setWidth 8)) s
      ∧ Answers (exec (.crcByte d) s) fun t => t = { s with crc := t.crc }

/-- R114: `CRC.INIT` loads `0xFFFFFFFF`, whatever `din` and the register's value, and changes nothing else. -/
def Obligations.CrcInitLoadsAllOnes : Prop :=
  ∀ (din : Byte) (s : State), exec (.crcInit din) s = .next { s with crc := 0xFFFFFFFF#32 }

/-- R115: `crc_out = CRC ^ 0xFFFFFFFF`, not reflected: each bit is the complement of the same bit of `CRC`; the
checksum of a message is `crc_out` once its last byte has been consumed. -/
def Obligations.CrcOutputIsComplement : Prop :=
  (∀ c : Sum,
    crcOut c = c ^^^ 0xFFFFFFFF#32 ∧ (∀ j, j < 32 → (crcOut c).getLsbD j = !c.getLsbD j))
    ∧ crcOut 0x340BC6D9#32 = 0xCBF43926#32
    ∧ ∀ message : List Byte, crc32 message = crcOut (message.foldl crcByte 0xFFFFFFFF#32)

/-- R116: `CRC.INIT`, one `CRC.BYTE` per message byte in order, and then `crc_out` is `CRC32` of the message, from
every state; with the values R116 lists. -/
def Obligations.Crc32IsTheRunOfMicroOperations : Prop :=
  (∀ (message : List Byte) (s : State),
    Answers (execAll (.crcInit 0#8 :: message.map .crcByte) s) fun t =>
      crcOut t.crc = crc32 message ∧ t = { s with crc := t.crc })
    ∧ crc32 [] = 0x00000000#32 ∧ crc32 [0x00#8] = 0xD202EF8D#32 ∧ crc32 [0x61#8] = 0xE8B7BE43#32
    ∧ crc32 [0x00#8, 0x00#8, 0x00#8, 0x00#8] = 0x2144DF1C#32
    ∧ crc32 [0xFF#8, 0xFF#8, 0xFF#8, 0xFF#8] = 0xFFFFFFFF#32
    ∧ crc32 [0x31#8, 0x32#8, 0x33#8, 0x34#8, 0x35#8, 0x36#8, 0x37#8, 0x38#8, 0x39#8] = 0xCBF43926#32

/-- R123: every control word answers a next state that differs from the old one in `CRC` at most. -/
def Obligations.ControlWordsChangeOnlyCrc : Prop :=
  ∀ (i : Instr) (s : State), i.isControlWord = true → Answers (exec i s) fun t => t = { s with crc := t.crc }

/-- The exclusive-or-first form of the byte step is the byte step, for all 2^40 inputs (40_crc32.md section 4, an
equivalence the spec derives). -/
def Obligations.XorFirstFormAgrees : Prop :=
  ∀ (c : Sum) (d : Byte), crcByteXorFirst c d = crcByte c d

/-- The 32 equations of the parallel form are the byte step, for all 2^40 inputs (40_crc32.md section 4, an
equivalence the spec derives). -/
def Obligations.ParallelFormAgrees : Prop :=
  ∀ (c : Sum) (d : Byte), crcByteParallel c d = crcByte c d

/-- The table form is the byte step, for all 2^40 inputs, with the five table entries the spec prints (40_crc32.md
section 4, an equivalence the spec derives). -/
def Obligations.TableFormAgrees : Prop :=
  (∀ (c : Sum) (d : Byte), crcByteTable c d = crcByte c d)
    ∧ crcTable 0#8 = 0x00000000#32 ∧ crcTable 1#8 = 0x77073096#32 ∧ crcTable 2#8 = 0xEE0E612C#32
    ∧ crcTable 128#8 = 0xEDB88320#32 ∧ crcTable 255#8 = 0x2D02EF8D#32

/-- A serial and a parallel datapath leave the same register after a message, whole byte by whole byte (40_crc32.md
section 4). -/
def Obligations.DatapathMakesNoDifference : Prop :=
  ∀ (datapath : Config.Datapath) (message : List Byte),
    message.foldl (byteStep datapath) crcInitValue = crcRegister message

/-- The bit step and the byte step are linear over exclusive-or in register and data together (40_crc32.md section 5,
which derives it). -/
def Obligations.GeneratorIsLinear : Prop :=
  (∀ (c1 c2 : Sum) (b1 b2 : Bool), crcBit (c1 ^^^ c2) (b1 ^^ b2) = crcBit c1 b1 ^^^ crcBit c2 b2)
    ∧ ∀ (c1 c2 : Sum) (d1 d2 : Byte), crcByte (c1 ^^^ c2) (d1 ^^^ d2) = crcByte c1 d1 ^^^ crcByte c2 d2

/-- Two messages of equal length that differ in exactly one bit have different `CRC32` (40_crc32.md section 5, which
marks it as general knowledge GK8). -/
def Obligations.SingleBitErrorChangesCrc32 : Prop :=
  ∀ (before after : List Byte) (b : Byte) (k : Nat), k < 8 →
    crc32 (before ++ b :: after) ≠ crc32 (before ++ (b ^^^ (1#8 <<< k)) :: after)

/-! ### ENCODE (41_marshal.md) -/

/-- R142, R143, R145, R146: with a payload of at most 65535 bytes `ENCODE` answers the state whose `WO` holds version,
kind, the length with its more significant byte first, the payload bytes in order, and the four checksum bytes, most
significant first, of `CRC32` over the bytes before them; `WO.len = FI.len + 8`, `WO.valid = 1`, code 0, not busy,
`IDLE`. -/
def Obligations.EncodeWritesTheWireFrame : Prop :=
  ∀ s : State, s.st.busy = false → s.fi.len ≤ 65535 →
    Answers (exec .encode s) fun t =>
      (∃ r, t.wo = .valid r ∧ r.len.toNat = s.fi.len + 8)
        ∧ t.cell .woBytes 0 = some s.fi.version ∧ t.cell .woBytes 1 = some s.fi.kind
        ∧ (∃ hi lo, t.cell .woBytes 2 = some hi ∧ t.cell .woBytes 3 = some lo ∧ wordOf2 hi lo = s.fi.len)
        ∧ (∀ i, i < s.fi.len → t.cell .woBytes (4 + i) = some (s.payloadByte i))
        ∧ (∃ a b c d,
            t.cell .woBytes (4 + s.fi.len) = some a ∧ t.cell .woBytes (5 + s.fi.len) = some b
              ∧ t.cell .woBytes (6 + s.fi.len) = some c ∧ t.cell .woBytes (7 + s.fi.len) = some d
              ∧ wordOf4 a b c d
                = (crc32 ((List.range (4 + s.fi.len)).map fun i => (t.cell .woBytes i).getD 0#8)).toNat)
        ∧ t.st = { busy := false, code := .ok } ∧ t.phase = .idle

/-- R201: `ENCODE`, and only `ENCODE`, reports `OversizedPayloadError`, exactly when `FI.len > 65535`; then
`WO.valid = 0` and nothing but `WO`, `ST` and `PHASE` changes. -/
def Obligations.OversizedPayloadIsRejected : Prop :=
  ∀ s : State, s.st.busy = false →
    (65535 < s.fi.len →
      exec .encode s
        = .next { s with wo := .absent, st := { busy := false, code := .err .oversizedPayload }, phase := .idle })
      ∧ (Answers (exec .encode s) fun t => t.st.code = .err .oversizedPayload ↔ 65535 < s.fi.len)
      ∧ ∀ t, exec .decode s = .next t → t.st.code ≠ .err .oversizedPayload

/-- The frame of `ENCODE` (41_marshal.md section 4): `FI`, `WI` and `FO` with its valid flag are unchanged, so is every
byte outside `WO.bytes`, the host's actions and readings; and of `WO.bytes` no cell at or beyond `WO.len` holds a
value. `SUMRX` is unchanged too: only `DECODE` writes it (10_state.md section 1), and that it keeps its value between
commands, where the spec gives it none, is the model's choice (log 9). -/
def Obligations.EncodeFrame : Prop :=
  ∀ s t : State, exec .encode s = .next t →
    t.fi = s.fi ∧ t.wi = s.wi ∧ t.fo = s.fo ∧ t.sumrx = s.sumrx
      ∧ t.pending = s.pending ∧ t.reads = s.reads ∧ t.epoch = s.epoch ∧ t.draws = s.draws
      ∧ (∀ space i, space ≠ .woBytes → t.cell space i = s.cell space i)
      ∧ (s.st.busy = false → ∀ r, t.wo = .valid r → ∀ i, r.len.toNat ≤ i → t.cell .woBytes i = none)

/-- What `ENCODE` delivers is exactly a valid Wire Frame of the Frame in `FI`, of `FI.len + 8` bytes (41_marshal.md
section 4, guarantees the spec derives). -/
def Obligations.EncodeDeliversExactlyAValidFrame : Prop :=
  ∀ s : State, s.st.busy = false → s.fi.len ≤ 65535 →
    Answers (exec .encode s) fun t =>
      ∃ r, t.wo = .valid r ∧ Memory.fills r.bytes (s.fi.len + 8) ∧ IsValidFrame (Memory.bytes r.bytes)
        ∧ BeginsWithValidFrame (Memory.bytes r.bytes)

/-- R33: the result of `ENCODE` depends on the Frame in `FI` alone, that of `DECODE` on the input sequence in `WI`
alone. Two states that agree on these, whatever else they hold, get the same output record and the same code. -/
def Obligations.ResultsDependOnInputsAlone : Prop :=
  ∀ s t : State, s.st.busy = false → t.st.busy = false →
    (s.fi.version = t.fi.version → s.fi.kind = t.fi.kind → s.fi.len = t.fi.len →
      (∀ i, i < s.fi.len → s.payloadByte i = t.payloadByte i) →
      Answers (exec .encode s) fun s' => Answers (exec .encode t) fun t' => s'.wo = t'.wo ∧ s'.st = t'.st)
    ∧ (s.wi.len ≤ Config.wiCap → s.wi.len = t.wi.len →
      (∀ i, i < s.wi.len → s.wireByte i = t.wireByte i) →
      Answers (exec .decode s) fun s' => Answers (exec .decode t) fun t' => s'.fo = t'.fo ∧ s'.st = t'.st)

/-! ### DECODE (42_parse.md) -/

/-- R202: `DECODE`, and only `DECODE`, reports `TruncatedHeaderError`, exactly when `WI.len < 4`; then `FO.valid = 0`. -/
def Obligations.TruncatedHeaderIsReported : Prop :=
  ∀ s : State, s.st.busy = false → s.wi.len ≤ Config.wiCap →
    (Answers (exec .decode s) fun t =>
      (t.st.code = .err .truncatedHeader ↔ s.wi.len < 4) ∧ (s.wi.len < 4 → t.fo = .absent)
        ∧ t.st.busy = false ∧ t.phase = .idle)
    ∧ ∀ t, exec .encode s = .next t → t.st.code ≠ .err .truncatedHeader

/-- R203: `DECODE`, and only `DECODE`, reports `TruncatedPayloadError`, exactly when `WI.len >= 4` and
`WI.len - 4 < length`; then `FO.valid = 0`. -/
def Obligations.TruncatedPayloadIsReported : Prop :=
  ∀ s : State, s.st.busy = false → s.wi.len ≤ Config.wiCap →
    (Answers (exec .decode s) fun t =>
      (t.st.code = .err .truncatedPayload ↔ 4 ≤ s.wi.len ∧ s.wi.len - 4 < s.lengthField)
        ∧ (4 ≤ s.wi.len → s.wi.len - 4 < s.lengthField → t.fo = .absent))
    ∧ ∀ t, exec .encode s = .next t → t.st.code ≠ .err .truncatedPayload

/-- R204: `DECODE`, and only `DECODE`, reports `TruncatedChecksumError`, exactly when `WI.len - 4 >= length` and
`WI.len - 4 - length < 4` (with the header present, R161); then `FO.valid = 0`. -/
def Obligations.TruncatedChecksumIsReported : Prop :=
  ∀ s : State, s.st.busy = false → s.wi.len ≤ Config.wiCap →
    (Answers (exec .decode s) fun t =>
      (t.st.code = .err .truncatedChecksum
          ↔ 4 ≤ s.wi.len ∧ s.lengthField ≤ s.wi.len - 4 ∧ s.wi.len - 4 - s.lengthField < 4)
        ∧ (4 ≤ s.wi.len → s.lengthField ≤ s.wi.len - 4 → s.wi.len - 4 - s.lengthField < 4 → t.fo = .absent))
    ∧ ∀ t, exec .encode s = .next t → t.st.code ≠ .err .truncatedChecksum

/-- R205: `DECODE`, and only `DECODE`, reports `ChecksumMismatchError`, exactly when all `8 + length` bytes are present
and the received checksum differs from `CRC32` of the first `4 + length` input bytes; then `FO.valid = 0`. -/
def Obligations.ChecksumMismatchIsReported : Prop :=
  ∀ s : State, s.st.busy = false → s.wi.len ≤ Config.wiCap →
    (Answers (exec .decode s) fun t =>
      (t.st.code = .err .checksumMismatch
          ↔ 8 + s.lengthField ≤ s.wi.len
            ∧ s.checksumField s.lengthField ≠ (crc32 (s.wireIn 0 (4 + s.lengthField))).toNat)
        ∧ (8 + s.lengthField ≤ s.wi.len →
            s.checksumField s.lengthField ≠ (crc32 (s.wireIn 0 (4 + s.lengthField))).toNat → t.fo = .absent))
    ∧ ∀ t, exec .encode s = .next t → t.st.code ≠ .err .checksumMismatch

/-- R162, R165, R166, R167, R169: with all `8 + length` bytes present and the received checksum equal to `CRC32` of the
first `4 + length` of them, `DECODE` answers the state whose `FO` holds version, kind, length and a copy of the payload
bytes and no other cell, with `FO.valid = 1`, code 0, not busy, `IDLE`. -/
def Obligations.DecodeDeliversTheFrame : Prop :=
  ∀ s : State, s.st.busy = false → s.wi.len ≤ Config.wiCap → 8 + s.lengthField ≤ s.wi.len →
    s.checksumField s.lengthField = (crc32 (s.wireIn 0 (4 + s.lengthField))).toNat →
    Answers (exec .decode s) fun t =>
      (∃ r, t.fo = .valid r ∧ r.version = s.wireByte 0 ∧ r.kind = s.wireByte 1 ∧ r.len.toNat = s.lengthField)
        ∧ (∀ i, i < s.lengthField → t.cell .foPayload i = some (s.wireByte (4 + i)))
        ∧ (∀ i, s.lengthField ≤ i → t.cell .foPayload i = none)
        ∧ t.st = { busy := false, code := .ok } ∧ t.phase = .idle

/-- `DECODE` completes on every input within `WI_CAP`, and it succeeds exactly on the sequences that begin with a valid
Wire Frame (30_encoding.md section 1 and 42_parse.md section 2, which derive it). -/
def Obligations.DecodeSucceedsExactlyOnValidFrames : Prop :=
  ∀ s : State, s.st.busy = false → s.wi.len ≤ Config.wiCap →
    Answers (exec .decode s) fun t =>
      (t.st.code = .ok ↔ BeginsWithValidFrame (s.wireIn 0 s.wi.len)) ∧ (t.fo.isValid = true ↔ t.st.code = .ok)

/-- The frame of `DECODE` (42_parse.md section 4): `WI`, `FI` and `WO` with its valid flag are unchanged, so is every byte outside
`FO.payload` and the host's actions and readings; and on success no cell of `FO.payload` at or beyond `FO.len` holds a
value. -/
def Obligations.DecodeFrame : Prop :=
  ∀ s t : State, exec .decode s = .next t →
    t.wi = s.wi ∧ t.fi = s.fi ∧ t.wo = s.wo
      ∧ t.pending = s.pending ∧ t.reads = s.reads ∧ t.epoch = s.epoch ∧ t.draws = s.draws
      ∧ (∀ space i, space ≠ .foPayload → t.cell space i = s.cell space i)
      ∧ (s.st.busy = false → ∀ r, t.fo = .valid r → ∀ i, r.len.toNat ≤ i → t.cell .foPayload i = none)

/-- R171: the bytes behind the checksum have no effect. Two inputs that agree on their first `8 + length` bytes, both
at least that long, give the same record and the same code. -/
def Obligations.TrailingBytesAreIgnored : Prop :=
  ∀ s t : State, s.st.busy = false → t.st.busy = false →
    s.wi.len ≤ Config.wiCap → t.wi.len ≤ Config.wiCap →
    8 + s.lengthField ≤ s.wi.len → 8 + s.lengthField ≤ t.wi.len →
    (∀ i, i < 8 + s.lengthField → s.wireByte i = t.wireByte i) →
    Answers (exec .decode s) fun s' => Answers (exec .decode t) fun t' => s'.fo = t'.fo ∧ s'.st = t'.st

/-- The model's treatment of a host that breaks `WI.len <= WI_CAP` (70_reset_and_hazards.md section 3 and U6 of
93_implementation_defined.md: refuse): `DECODE` is given no meaning, nor is its start by a raw write of `CMD`. -/
def Obligations.InputBeyondCapacityIsRefused : Prop :=
  ∀ s : State, s.st.busy = false → Config.wiCap < s.wi.len →
    exec .decode s = .refused .inputBeyondCapacity
      ∧ ∀ rest, s.pending = .wr .cmd 2 :: rest → step s = .refused .inputBeyondCapacity

/-- R173: what `ENCODE` delivered, carried to `WI` cell by cell, with anything or nothing behind it, is decoded by
`DECODE` with code 0 to the Frame it came from. -/
def Obligations.DecodeInvertsEncode : Prop :=
  ∀ s t u : State, s.st.busy = false → s.fi.len ≤ 65535 → exec .encode s = .next t →
    u.st.busy = false → s.fi.len + 8 ≤ u.wi.len → u.wi.len ≤ Config.wiCap →
    (∀ i, i < s.fi.len + 8 → u.cell .wiBytes i = t.cell .woBytes i) →
    Answers (exec .decode u) fun v =>
      v.st = { busy := false, code := .ok }
        ∧ (∃ r, v.fo = .valid r ∧ r.version = s.fi.version ∧ r.kind = s.fi.kind ∧ r.len.toNat = s.fi.len)
        ∧ ∀ i, i < s.fi.len → v.cell .foPayload i = some (s.payloadByte i)

/-- One flipped bit in the version, the kind, the payload or the checksum field of a valid frame makes `DECODE` report
`ChecksumMismatchError` and deliver nothing (42_parse.md section 5, corner cases, resting on GK8). -/
def Obligations.FlippedBitIsDetected : Prop :=
  ∀ (s t : State) (i k : Nat), s.st.busy = false → t.st.busy = false →
    s.wi.len ≤ Config.wiCap → t.wi.len = s.wi.len → 8 + s.lengthField ≤ s.wi.len →
    s.checksumField s.lengthField = (crc32 (s.wireIn 0 (4 + s.lengthField))).toNat →
    i < 8 + s.lengthField → i ≠ 2 → i ≠ 3 → k < 8 →
    t.wireByte i = s.wireByte i ^^^ (1#8 <<< k) → (∀ j, j ≠ i → t.wireByte j = s.wireByte j) →
    Answers (exec .decode t) fun t' =>
      t'.st = { busy := false, code := .err .checksumMismatch } ∧ t'.fo = .absent

/-! ### WIREFRAME (30_encoding.md) -/

/-- The model's choice (log 6), with the layout of 30_encoding.md section 1: running `WIREFRAME` presents the frame at
`WI`. Version at offset 0, kind at 1, length at 2 and 3, payload from 4, checksum behind it, `WI.len = length + 8`;
every other cell and everything outside `WI` is unchanged. -/
def Obligations.WireFrameIsPresentedAtWI : Prop :=
  ∀ (s : State) (version kind : Byte) (payload : List Byte) (checksum : Sum),
    s.st.busy = false → payload.length ≤ 65535 →
    Answers (exec (.wireframe version kind payload checksum) s) fun t =>
      t.wi.len = payload.length + 8
        ∧ t.cell .wiBytes 0 = some version ∧ t.cell .wiBytes 1 = some kind
        ∧ t.lengthField = payload.length
        ∧ (∀ i, i < payload.length → t.cell .wiBytes (4 + i) = payload[i]?)
        ∧ t.checksumField payload.length = checksum.toNat
        ∧ (∀ i, payload.length + 8 ≤ i → t.cell .wiBytes i = s.cell .wiBytes i)
        ∧ t = { s with wi := t.wi }

/-- A presented Wire Frame decodes to its fields when its checksum field is `CRC32` of the bytes before it, and to
`ChecksumMismatchError` when it is not (30_encoding.md section 1; presenting is log 6). -/
def Obligations.PresentedFrameDecodesWhenItsChecksumIsRight : Prop :=
  ∀ (s : State) (version kind : Byte) (payload : List Byte) (checksum : Sum),
    s.st.busy = false → payload.length ≤ 65535 →
    Answers (execAll [.wireframe version kind payload checksum, .decode] s) fun t =>
      (checksum = crc32 (headerBytes version kind (BitVec.ofNat 16 payload.length) ++ payload) →
        t.st.code = .ok
          ∧ (∃ r, t.fo = .valid r ∧ r.version = version ∧ r.kind = kind ∧ r.len.toNat = payload.length)
          ∧ ∀ i, i < payload.length → t.cell .foPayload i = payload[i]?)
      ∧ (checksum ≠ crc32 (headerBytes version kind (BitVec.ofNat 16 payload.length) ++ payload) →
        t.st.code = .err .checksumMismatch ∧ t.fo = .absent)

/-! ### Commands, the sequencer and the host (43_control.md, 10_state.md, 70_reset_and_hazards.md) -/

/-- R191 and R192: `NOP` and the reserved command answer the same state. -/
def Obligations.NopAndReservedChangeNothing : Prop :=
  ∀ s : State, exec .nop s = .next s ∧ exec .rsvd3 s = .next s

/-- R193: a raw write of `CMD` while `ST.busy = 1` is ignored: nothing changes, nothing is queued, and no error is
reported. That an issued, atomic command is ignored just so and does not wait for the running one is the model's choice
(log 3); R193 says that the case cannot arise for it. -/
def Obligations.CommandsAreIgnoredWhileBusy : Prop :=
  ∀ s : State, s.st.busy = true →
    (∀ c : BitVec 2, exec (decodeCommand c) s = .next s)
      ∧ ∀ v rest, v < 4 → s.pending = .wr .cmd v :: rest → step s = .next { s with pending := rest }

/-- R190: a write to `CMD` while `ST.busy = 0` starts `ENCODE` (`ST.busy <- 1`, `PHASE <- E_CHECK`) on `0b01` and
`DECODE` (`ST.busy <- 1`, `PHASE <- D_HDR`) on `0b10`, and changes nothing on `0b00` and `0b11`. -/
def Obligations.CommandWriteStartsTheCommand : Prop :=
  ∀ (s : State) (v : Nat) (rest : List HostAct), s.st.busy = false → s.pending = .wr .cmd v :: rest →
    (v = 0 ∨ v = 3 → step s = .next { s with pending := rest })
      ∧ (v = 1 →
        Answers (step s) fun t =>
          t = { s with pending := rest, st := { s.st with busy := true }, phase := .eCheck })
      ∧ (v = 2 → s.wi.len ≤ Config.wiCap →
        Answers (step s) fun t =>
          t = { s with pending := rest, st := { s.st with busy := true }, phase := .dHdr, ptr := t.ptr })

/-- An `ENCODE` started by a write of `CMD` and run byte by byte by the sequencer ends in exactly the state in which the
atomic `ENCODE` ends, from every idle state. For what a host sees this is the spec's (20_memory.md section 6,
41_marshal.md section 5); that `CRC`, `PTR`, `LEN16` and `SUMRX` agree too is the model's choice (log 9). -/
def Obligations.SequencerRefinesEncode : Prop :=
  ∀ s : State, s.st.busy = false → s.pending = [] →
    ∃ n, Sys2Proof.core.run (n + 1) { s with pending := [.wr .cmd 1] } = exec .encode s

/-- A `DECODE` started by a write of `CMD` and run byte by byte by the sequencer ends in exactly the state in which the
atomic `DECODE` ends, from every idle state and on every input. For what a host sees this is the spec's (20_memory.md
section 6, 42_parse.md section 6); that `CRC`, `PTR`, `LEN16` and `SUMRX` agree too is the model's choice (log 9). -/
def Obligations.SequencerRefinesDecode : Prop :=
  ∀ s : State, s.st.busy = false → s.pending = [] → s.wi.len ≤ Config.wiCap →
    ∃ n, Sys2Proof.core.run (n + 1) { s with pending := [.wr .cmd 2] } = exec .decode s

/-- R212: from every state of the invariant, whatever command is running and wherever it stands, the block, left alone,
is idle again after finitely many steps. -/
def Obligations.EveryCommandCompletes : Prop :=
  ∀ s : State, s.Inv → s.pending = [] →
    ∃ n, Answers (Sys2Proof.core.run n s) fun t => t.st.busy = false ∧ t.phase = .idle

/-- R195: a read of `ST` returns `{ST.busy, ST.code}` and changes nothing but the host's readings; while busy the code
read is some one of the six codes, never 6 or 7 (a free value, log 5), and `ST` itself does not change. -/
def Obligations.StatusReadReturnsBusyAndCode : Prop :=
  ∀ (s : State) (rest : List HostAct), s.pending = .rd .st :: rest →
    (s.st.busy = false →
      step s = .next { s with pending := rest, reads := s.st.code.bits.toNat :: s.reads })
    ∧ (s.st.busy = true →
      Answers (step s) fun t =>
        ∃ code : StatusCode,
          t = { s with pending := rest, reads := (8 + code.bits.toNat) :: s.reads, draws := t.draws })

/-- R27: `ST.code` changes only when an `ENCODE` or a `DECODE` completes, or at `RESET`. -/
def Obligations.StatusCodeChangesOnlyAtCompletion : Prop :=
  ∀ s t : State, step s = .next t → t.st.code ≠ s.st.code →
    t.st.busy = false
      ∧ (s.phase ≠ .idle ∨ (∃ rest, s.pending = .reset :: rest)
        ∨ (∃ rest, s.pending = .issue (encode .encode) :: rest)
        ∨ ∃ rest, s.pending = .issue (encode .decode) :: rest)

/-- `WO` changes only through `ENCODE` and at `RESET`, `FO` only through `DECODE` and at `RESET`: the rule on who writes
the valid flags, for the whole records (10_state.md section 4, 70_reset_and_hazards.md section 3). -/
def Obligations.OutputRecordsHaveOneWriter : Prop :=
  ∀ s t : State, step s = .next t →
    (t.wo ≠ s.wo →
      s.phase.command = some .encode ∨ (∃ rest, s.pending = .reset :: rest)
        ∨ ∃ rest, s.pending = .issue (encode .encode) :: rest)
    ∧ (t.fo ≠ s.fo →
      s.phase.command = some .decode ∨ (∃ rest, s.pending = .reset :: rest)
        ∨ ∃ rest, s.pending = .issue (encode .decode) :: rest)

/-- The block never writes its inputs: `FI` and `WI` change only by a host write, a presented Wire Frame included, or at
`RESET`, and never by a host write while a command runs (10_state.md section 8, 70_reset_and_hazards.md section 3). -/
def Obligations.InputsChangeOnlyByTheHost : Prop :=
  ∀ s t : State, step s = .next t → t.fi ≠ s.fi ∨ t.wi ≠ s.wi →
    (∃ rest, s.pending = .reset :: rest)
      ∨ s.st.busy = false
        ∧ ∃ a rest, s.pending = a :: rest
          ∧ ((∃ r v, a = .wr r v) ∨ (∃ space i b, a = .poke space i b) ∨ ∃ bytes, a = .issue (.wire bytes))

/-- The refusal of a host that breaks the hazard rule (70_reset_and_hazards.md section 3; U6: refuse): while
`ST.busy = 1` a write of `FI`, of `WI` or of one of their cells is given no meaning. That a presented Wire Frame is such
a write of `WI` is the model's choice (log 6). -/
def Obligations.InputWritesWhileBusyAreRefused : Prop :=
  ∀ (s : State) (a : HostAct) (rest : List HostAct), s.st.busy = true → s.pending = a :: rest →
    ((∃ v, v < 256 ∧ (a = .wr .fiVersion v ∨ a = .wr .fiKind v))
      ∨ (∃ v, v < 2 ^ Config.lenw ∧ (a = .wr .fiLen v ∨ a = .wr .wiLen v))
      ∨ (∃ i b, i < 65535 ∧ a = .poke .fiPayload i b) ∨ (∃ i b, i < Config.wiCap ∧ a = .poke .wiBytes i b)
      ∨ ∃ v k p c, p.length ≤ 65535 ∧ a = .issue (encode (.wireframe v k p c))) →
    step s = .refused .inputWriteWhileBusy

/-- R32: a host write of `ST`, of a register of `WO` or `FO`, or of one of their cells has no effect, busy or not. -/
def Obligations.HostCannotWriteOutputs : Prop :=
  ∀ (s : State) (a : HostAct) (rest : List HostAct), s.pending = a :: rest →
    ((∃ r v, a = .wr r v ∧ r ∈ [Reg.st, .woValid, .woLen, .foValid, .foVersion, .foKind, .foLen])
      ∨ (∃ i b, i < 65543 ∧ a = .poke .woBytes i b) ∨ ∃ i b, i < 65535 ∧ a = .poke .foPayload i b) →
    step s = .next { s with pending := rest }

/-- R56 and R50 for the host's cells: after a write of an input cell of an idle block, that cell reads as the byte
written and every other cell of every space as before, and every register too; reading it returns the byte and changes
nothing else. -/
def Obligations.WrittenCellsReadBack : Prop :=
  ∀ (s : State) (space : Space) (i : Nat) (b : Byte) (rest : List HostAct), s.st.busy = false →
    (space = .fiPayload ∧ i < 65535 ∨ space = .wiBytes ∧ i < Config.wiCap) →
    s.pending = .poke space i b :: .peek space i :: rest →
    Answers (step s) fun t =>
      t.cell space i = some b ∧ (∀ space' j, (space', j) ≠ (space, i) → t.cell space' j = s.cell space' j)
        ∧ t = { s with fi := { s.fi with payload := t.fi.payload }, wi := { s.wi with bytes := t.wi.bytes },
                       pending := .peek space i :: rest }
        ∧ step t = .next { t with pending := rest, reads := b.toNat :: t.reads }

/-- A register write of an idle block is read back as the number written, for every number the register's width holds,
and it changes no other input register, no cell and nothing outside `FI` and `WI` (10_state.md sections 1 and 2). -/
def Obligations.WrittenRegistersReadBack : Prop :=
  ∀ (s : State) (r : Reg) (v : Nat) (rest : List HostAct), s.st.busy = false →
    (r = .fiVersion ∧ v < 256 ∨ r = .fiKind ∧ v < 256 ∨ r = .fiLen ∧ v < 2 ^ Config.lenw
      ∨ r = .wiLen ∧ v < 2 ^ Config.lenw) →
    s.pending = .wr r v :: .rd r :: rest →
    Answers (step s) fun t =>
      t = { s with fi := t.fi, wi := t.wi, pending := .rd r :: rest }
        ∧ t.fi.payload = s.fi.payload ∧ t.wi.bytes = s.wi.bytes
        ∧ (∀ space i, t.cell space i = s.cell space i)
        ∧ (r ≠ .fiVersion → t.fi.version = s.fi.version) ∧ (r ≠ .fiKind → t.fi.kind = s.fi.kind)
        ∧ (r ≠ .fiLen → t.fi.len = s.fi.len) ∧ (r ≠ .wiLen → t.wi.len = s.wi.len)
        ∧ step t = .next { t with pending := rest, reads := v :: t.reads }

/-- The rule against reading what has no value (70_reset_and_hazards.md section 3; U1, U2, U3: fault): with no command
running, a host read of `WO.len` or a cell of `WO.bytes` faults unless `WO.valid = 1`, one of `FO.version`, `FO.kind`,
`FO.len` or a cell of `FO.payload` unless `FO.valid = 1`, and a cell at or beyond `WO.len` or `FO.len` always. -/
def Obligations.OutputsWithoutValueCannotBeRead : Prop :=
  ∀ (s : State) (a : HostAct) (rest : List HostAct), s.Inv → s.st.busy = false → s.pending = a :: rest →
    (s.wo.isValid = false ∧ (a = .rd .woLen ∨ ∃ i, i < 65543 ∧ a = .peek .woBytes i))
      ∨ (s.fo.isValid = false
        ∧ (a = .rd .foVersion ∨ a = .rd .foKind ∨ a = .rd .foLen ∨ ∃ i, i < 65535 ∧ a = .peek .foPayload i))
      ∨ (∃ r i, s.wo = .valid r ∧ r.len.toNat ≤ i ∧ i < 65543 ∧ a = .peek .woBytes i)
      ∨ (∃ r i, s.fo = .valid r ∧ r.len.toNat ≤ i ∧ i < 65535 ∧ a = .peek .foPayload i) →
    step s = .fault .noValue

/-- What a command delivered can be read, also while the other command runs (70_reset_and_hazards.md section 3), and
no register and no cell of its record, the valid flag included, while its own command runs (U8: fault). -/
def Obligations.DeliveredOutputsCanBeRead : Prop :=
  ∀ (s : State) (rest : List HostAct),
    (∀ r, s.wo = .valid r → s.phase.command ≠ some .encode →
      (s.pending = .rd .woValid :: rest → step s = .next { s with pending := rest, reads := 1 :: s.reads })
        ∧ (s.pending = .rd .woLen :: rest →
          step s = .next { s with pending := rest, reads := r.len.toNat :: s.reads })
        ∧ ∀ i b, i < 65543 → Memory.read r.bytes i = some b → s.pending = .peek .woBytes i :: rest →
          step s = .next { s with pending := rest, reads := b.toNat :: s.reads })
    ∧ (∀ r, s.fo = .valid r → s.phase.command ≠ some .decode →
      (s.pending = .rd .foValid :: rest → step s = .next { s with pending := rest, reads := 1 :: s.reads })
        ∧ (s.pending = .rd .foVersion :: rest →
          step s = .next { s with pending := rest, reads := r.version.toNat :: s.reads })
        ∧ (s.pending = .rd .foKind :: rest →
          step s = .next { s with pending := rest, reads := r.kind.toNat :: s.reads })
        ∧ (s.pending = .rd .foLen :: rest →
          step s = .next { s with pending := rest, reads := r.len.toNat :: s.reads })
        ∧ ∀ i b, i < 65535 → Memory.read r.payload i = some b → s.pending = .peek .foPayload i :: rest →
          step s = .next { s with pending := rest, reads := b.toNat :: s.reads })
    ∧ (s.phase.command = some .encode → ∀ a, s.pending = a :: rest →
      a = .rd .woValid ∨ a = .rd .woLen ∨ (∃ i, i < 65543 ∧ a = .peek .woBytes i) →
      step s = .fault .runningOutput)
    ∧ (s.phase.command = some .decode → ∀ a, s.pending = a :: rest →
      a = .rd .foValid ∨ a = .rd .foVersion ∨ a = .rd .foKind ∨ a = .rd .foLen
        ∨ (∃ i, i < 65535 ∧ a = .peek .foPayload i) →
      step s = .fault .runningOutput)

/-! ### Reset and the step -/

/-- R230 (the values of R35): after the reset event `ST.busy = 0`, `ST.code = 0`, both valid flags are 0 and
`PHASE = IDLE`, whatever the state was, a running command included; and the reset event alone ends a running command
without its completion. -/
def Obligations.ResetEventLeavesAnIdleBlock : Prop :=
  (∀ (s : State) (rest : List HostAct), s.pending = .reset :: rest →
    Answers (step s) fun t =>
      t.st = { busy := false, code := .ok } ∧ t.wo = .absent ∧ t.fo = .absent ∧ t.phase = .idle
        ∧ t.pending = rest ∧ ∀ space i, t.cell space i = none)
    ∧ ∀ (s t : State) (c : Command), s.st.busy = true → s.phase.command = some c → step s = .next t →
      t.st.busy = false ∨ t.phase = .idle → (∃ rest, s.pending = .reset :: rest) ∨ t.Completed c

/-- The machine starts as the reset event leaves it, with the registers the spec leaves unspecified at zero, which is
the model's choice (log 1). -/
def Obligations.ResetStateIsAsChosen : Prop :=
  State.reset.st = { busy := false, code := .ok } ∧ State.reset.wo = .absent ∧ State.reset.fo = .absent
    ∧ State.reset.phase = .idle
    ∧ State.reset.fi.version = 0#8 ∧ State.reset.fi.kind = 0#8 ∧ State.reset.fi.len = 0 ∧ State.reset.wi.len = 0
    ∧ State.reset.crc = 0#32 ∧ State.reset.ptr = 0#17 ∧ State.reset.len16 = 0#16 ∧ State.reset.sumrx = 0#32

/-- An idle block does nothing until the host acts (70_reset_and_hazards.md section 1, which derives it). -/
def Obligations.IdleBlockDoesNothing : Prop :=
  ∀ s : State, s.pending = [] → s.phase = .idle → step s = .next s

/-- A step runs the decoded instruction: when the host's next action is a word that decodes to `i`, the step is `exec`
of `i` on the state with that action taken off; a control word so only while no command runs, and it is refused while
one does. That words reach the block as pending host actions, and that refusal, are the model's choice (log 3). -/
def Obligations.StepRunsTheDecodedInstruction : Prop :=
  ∀ (s : State) (w : PortWord) (i : Instr) (rest : List HostAct), s.pending = .issue w :: rest → decode w = .ok i →
    (i.isControlWord = false ∨ s.st.busy = false → step s = exec i { s with pending := rest })
      ∧ (i.isControlWord = true → s.st.busy = true → step s = .refused .controlWordWhileBusy)

/-- The invariant holds after reset. -/
def Obligations.ResetMeetsTheInvariant : Prop :=
  State.reset.Inv

/-- Every step keeps the invariant, whatever the host does: canonical memories, lengths of their registers' width, busy
exactly in a phase other than `IDLE`, and a valid `WO` exactly a valid Wire Frame of `WO.len` bytes, also while the
sequencer runs and the host acts between its steps. -/
def Obligations.EveryStepKeepsTheInvariant : Prop :=
  ∀ s t : State, s.Inv → step s = .next t → t.Inv

/-- Every step keeps the memories in their canonical form, from every state in which they are. -/
def Obligations.EveryStepKeepsMemoriesCanonical : Prop :=
  ∀ s t : State, s.Canonical → step s = .next t → t.Canonical
end

