-- ==== Sys2Proof/Laws/Bytes.lean ====
section
/-! SUPPORT. Byte order and the operand forms: taking a number apart and putting it together, lengths, and what the
operands depend on. -/

namespace Sys2Proof.Machine

@[simp] theorem be16_length (v : Length) : (be16 v).length = 2 := rfl

@[simp] theorem be32_length (v : Sum) : (be32 v).length = 4 := rfl

@[simp] theorem headerBytes_length (v k : Byte) (n : Length) : (headerBytes v k n).length = 4 := rfl

theorem headerBytes_eq (v k : Byte) (n : Length) :
    headerBytes v k n = [v, k, n.extractLsb' 8 8, n.extractLsb' 0 8] := rfl

@[simp] theorem wireBytes_length (v k : Byte) (p : List Byte) (c : Sum) :
    (wireBytes v k p c).length = p.length + 8 := by
  simp [wireBytes]; omega

@[simp] theorem fromBe16_toNat (a b : Byte) : (fromBe16 a b).toNat = wordOf2 a b := by
  simp only [fromBe16, wordOf2, BitVec.toNat_append]
  rw [← Nat.shiftLeft_add_eq_or_of_lt b.isLt, Nat.shiftLeft_eq]

@[simp] theorem fromBe32_toNat (a b c d : Byte) : (fromBe32 a b c d).toNat = wordOf4 a b c d := by
  simp only [fromBe32, wordOf4, BitVec.toNat_append]
  rw [← Nat.shiftLeft_add_eq_or_of_lt d.isLt, ← Nat.shiftLeft_add_eq_or_of_lt c.isLt,
    ← Nat.shiftLeft_add_eq_or_of_lt b.isLt]
  simp only [Nat.shiftLeft_eq]
  ring

/-- Taking a length apart and putting it together. -/
@[simp] theorem fromBe16_be16 (v : Length) : fromBe16 (v.extractLsb' 8 8) (v.extractLsb' 0 8) = v := by
  apply BitVec.eq_of_toNat_eq
  simp only [fromBe16_toNat, wordOf2, BitVec.extractLsb'_toNat, Nat.shiftRight_eq_div_pow]
  have := v.isLt
  omega

/-- Taking a checksum apart and putting it together. -/
@[simp] theorem fromBe32_be32 (v : Sum) :
    fromBe32 (v.extractLsb' 24 8) (v.extractLsb' 16 8) (v.extractLsb' 8 8) (v.extractLsb' 0 8) = v := by
  apply BitVec.eq_of_toNat_eq
  simp only [fromBe32_toNat, wordOf4, BitVec.extractLsb'_toNat, Nat.shiftRight_eq_div_pow]
  have := v.isLt
  omega

/-- Putting two bytes together and taking them apart. -/
@[simp] theorem be16_fromBe16 (a b : Byte) : be16 (fromBe16 a b) = [a, b] := by
  have ha := a.isLt
  have hb := b.isLt
  simp only [be16, List.cons.injEq, and_true]
  constructor <;> apply BitVec.eq_of_toNat_eq <;>
    simp only [BitVec.extractLsb'_toNat, fromBe16_toNat, wordOf2, Nat.shiftRight_eq_div_pow] <;> omega

/-- Putting four bytes together and taking them apart. -/
@[simp] theorem be32_fromBe32 (a b c d : Byte) : be32 (fromBe32 a b c d) = [a, b, c, d] := by
  have ha := a.isLt
  have hb := b.isLt
  have hc := c.isLt
  have hd := d.isLt
  simp only [be32, List.cons.injEq, and_true]
  refine ⟨?_, ?_, ?_, ?_⟩ <;> apply BitVec.eq_of_toNat_eq <;>
    simp only [BitVec.extractLsb'_toNat, fromBe32_toNat, wordOf4, Nat.shiftRight_eq_div_pow] <;> omega

/-- The length field is the length. -/
theorem wordOf2_be16 (v : Length) : wordOf2 (v.extractLsb' 8 8) (v.extractLsb' 0 8) = v.toNat := by
  rw [← fromBe16_toNat, fromBe16_be16]

theorem wordOf2_lt (a b : Byte) : wordOf2 a b < 65536 := by
  rw [← fromBe16_toNat]; exact (fromBe16 a b).isLt

@[simp] theorem wordOf4_be32 (v : Sum) :
    wordOf4 (v.extractLsb' 24 8) (v.extractLsb' 16 8) (v.extractLsb' 8 8) (v.extractLsb' 0 8) = v.toNat := by
  rw [← fromBe32_toNat, fromBe32_be32]

/-! ### The operand forms -/

@[simp] theorem State.payloadIn_length (s : State) (n : Nat) : (s.payloadIn n).length = n := by
  simp [State.payloadIn]

@[simp] theorem State.wireIn_length (s : State) (a n : Nat) : (s.wireIn a n).length = n := by
  simp [State.wireIn]

theorem State.payloadIn_getElem? (s : State) (n i : Nat) :
    (s.payloadIn n)[i]? = if i < n then some (s.payloadByte i) else none := by
  by_cases h : i < n <;> simp [State.payloadIn, h]

theorem State.wireIn_getElem? (s : State) (a n i : Nat) :
    (s.wireIn a n)[i]? = if i < n then some (s.wireByte (a + i)) else none := by
  by_cases h : i < n <;> simp [State.wireIn, h]

theorem State.payloadIn_succ (s : State) (n : Nat) : s.payloadIn (n + 1) = s.payloadIn n ++ [s.payloadByte n] := by
  simp [State.payloadIn, List.range_succ]

theorem State.wireIn_succ (s : State) (a n : Nat) : s.wireIn a (n + 1) = s.wireIn a n ++ [s.wireByte (a + n)] := by
  simp [State.wireIn, List.range_succ]

theorem State.wireIn_add (s : State) (a m n : Nat) : s.wireIn a (m + n) = s.wireIn a m ++ s.wireIn (a + m) n := by
  induction n with
  | zero => simp [State.wireIn]
  | succ n ih => rw [← Nat.add_assoc, State.wireIn_succ, ih, State.wireIn_succ, List.append_assoc, Nat.add_assoc a]

/-- The bytes of `FI.payload` depend on the buffer and the reset count only. -/
theorem State.payloadByte_congr {s t : State} (h : t.fi.payload = s.fi.payload) (he : t.epoch = s.epoch) :
    t.payloadByte = s.payloadByte := by
  funext i; simp only [State.payloadByte, h, he]

/-- The bytes of `WI` depend on the buffer and the reset count only. -/
theorem State.wireByte_congr {s t : State} (h : t.wi.bytes = s.wi.bytes) (he : t.epoch = s.epoch) :
    t.wireByte = s.wireByte := by
  funext i; simp only [State.wireByte, h, he]

theorem State.payloadIn_congr {s t : State} (n : Nat) (h : t.fi.payload = s.fi.payload) (he : t.epoch = s.epoch) :
    t.payloadIn n = s.payloadIn n := by
  simp only [State.payloadIn, State.payloadByte_congr h he]

theorem State.wireIn_congr {s t : State} (a n : Nat) (h : t.wi.bytes = s.wi.bytes) (he : t.epoch = s.epoch) :
    t.wireIn a n = s.wireIn a n := by
  simp only [State.wireIn, State.wireByte_congr h he]

theorem State.frameBytes_congr {s t : State} (h : t.fi = s.fi) (he : t.epoch = s.epoch) :
    t.frameBytes = s.frameBytes := by
  simp only [State.frameBytes, State.frameLength, h, State.payloadIn_congr _ (congrArg FrameIn.payload h) he]

theorem State.wireLength_congr {s t : State} (h : t.wi.bytes = s.wi.bytes) (he : t.epoch = s.epoch) :
    t.wireLength = s.wireLength := by
  simp only [State.wireLength, State.wireByte_congr h he]

theorem State.frameBytes_length (s : State) : s.frameBytes.length = s.frameLength.toNat + 4 := by
  simp [State.frameBytes]; omega

/-- `LEN16` holds the whole of a length that passed the check (R141). -/
theorem State.frameLength_toNat {s : State} (h : s.fi.len ≤ 65535) : s.frameLength.toNat = s.fi.len := by
  simp only [State.frameLength, BitVec.toNat_ofNat]; omega

@[simp] theorem State.wireLength_toNat (s : State) : s.wireLength.toNat = s.lengthField := by
  simp [State.wireLength, State.lengthField]

@[simp] theorem State.wireChecksum_toNat (s : State) (n : Nat) : (s.wireChecksum n).toNat = s.checksumField n := by
  simp [State.wireChecksum, State.checksumField]

/-! ### What fits the open parameters -/

theorem lenw_ge : 17 ≤ Config.lenw := by
  simp [Config.lenw]

theorem two_pow_lenw_ge : 131072 ≤ 2 ^ Config.lenw :=
  le_trans (by norm_num) (Nat.pow_le_pow_right (n := 2) (by norm_num) lenw_ge)

/-- `65543 <= WI_CAP < 2^LENW` (R5). -/
theorem wiCap_bounds : 65543 ≤ Config.wiCap ∧ Config.wiCap < 2 ^ Config.lenw := by
  have h := two_pow_lenw_ge
  have := Nat.mod_lt Config.wiCapExcess (y := 2 ^ Config.lenw - 65543) (by omega)
  simp only [Config.wiCap]
  omega

/-- The number fits a `LENW`-bit register. -/
theorem fitsLen_iff (v : Nat) : Config.fitsLen v = true ↔ v < 2 ^ Config.lenw := by
  have := two_pow_lenw_ge
  simp only [Config.fitsLen, Bool.or_eq_true, decide_eq_true_eq]
  omega

/-- So many bytes fit `WI.bytes`. -/
theorem fitsWire_iff (n : Nat) : Config.fitsWire n = true ↔ n ≤ Config.wiCap := by
  have := wiCap_bounds
  simp only [Config.fitsWire, Bool.or_eq_true, decide_eq_true_eq]
  omega

end Sys2Proof.Machine
end

