-- ==== Sys2Proof/Laws/Crc.lean ====
section
/-! SUPPORT. The CRC generator: what the register holds after one more byte, and that a step loses nothing of it. -/

namespace Sys2Proof.Machine

@[simp] theorem crcRegister_nil : crcRegister [] = crcInitValue := rfl

theorem crcRegister_append (l l' : List Byte) : crcRegister (l ++ l') = l'.foldl crcByte (crcRegister l) := by
  simp [crcRegister, List.foldl_append]

/-- One more byte. -/
theorem crcRegister_concat (l : List Byte) (b : Byte) : crcRegister (l ++ [b]) = crcByte (crcRegister l) b := by
  simp [crcRegister_append]

/-- The byte step as the eight bit steps. -/
theorem crcByte_eq (c : Sum) (d : Byte) :
    crcByte c d = crcBit (crcBit (crcBit (crcBit (crcBit (crcBit (crcBit (crcBit c (d.getLsbD 0)) (d.getLsbD 1))
      (d.getLsbD 2)) (d.getLsbD 3)) (d.getLsbD 4)) (d.getLsbD 5)) (d.getLsbD 6)) (d.getLsbD 7) := rfl

/-- Each bit of a bit step: the next higher bit of the register, with the feedback where the polynomial has a bit. -/
theorem crcBit_getLsbD (c : Sum) (b : Bool) (j : Nat) :
    (crcBit c b).getLsbD j = (c.getLsbD (j + 1) ^^ (poly.getLsbD j && (c.getLsbD 0 ^^ b))) := by
  simp only [crcBit, BitVec.getLsbD_xor, BitVec.getLsbD_ushiftRight, Nat.add_comm 1 j]
  cases c.getLsbD 0 ^^ b <;> simp

/-- Bit 31 of a bit step is the feedback, since bit 31 of the polynomial is 1. -/
theorem crcBit_getLsbD_top (c : Sum) (b : Bool) : (crcBit c b).getLsbD 31 = (c.getLsbD 0 ^^ b) := by
  rw [crcBit_getLsbD, BitVec.getLsbD_of_ge c 32 (by omega), show poly.getLsbD 31 = true by decide]
  simp

/-- With the same message bit, different registers stay different. -/
theorem crcBit_injective (b : Bool) {c c' : Sum} (h : crcBit c b = crcBit c' b) : c = c' := by
  have hfb : (c.getLsbD 0 ^^ b) = (c'.getLsbD 0 ^^ b) := by
    rw [← crcBit_getLsbD_top, ← crcBit_getLsbD_top, h]
  apply BitVec.eq_of_getLsbD_eq
  intro i _
  cases i with
  | zero => exact Bool.xor_left_inj.mp hfb
  | succ i =>
    have := congrArg (fun x => x.getLsbD i) h
    simp only [crcBit_getLsbD, hfb] at this
    exact Bool.xor_left_inj.mp this

/-- With the same message byte, different registers stay different. -/
theorem crcByte_injective (d : Byte) {c c' : Sum} (h : crcByte c d = crcByte c' d) : c = c' := by
  rw [crcByte_eq, crcByte_eq] at h
  iterate 8 replace h := crcBit_injective _ h
  exact h

@[simp] theorem crcOut_crcOut (c : Sum) : crcOut (crcOut c) = c := by
  simp [crcOut]

theorem crcOut_injective {c c' : Sum} (h : crcOut c = crcOut c') : c = c' := by
  rw [← crcOut_crcOut c, h, crcOut_crcOut]

end Sys2Proof.Machine
end

