-- ==== Sys2Proof/Laws/Memory.lean ====
section
/-! SUPPORT. The laws of the byte spaces: a read after a write, the canonical form, and bytes laid out in a row. -/

namespace Sys2Proof.Machine

@[simp] theorem Memory.read_nil (i : Nat) : Memory.read [] i = none := rfl

theorem Memory.read_cons (a i : Nat) (b : Byte) (m : Memory) :
    Memory.read ((a, b) :: m) i = if i = a then some b else Memory.read m i := rfl

/-- A read after a write: the byte written at its place, every other place as before. -/
theorem Memory.read_write (m : Memory) (i j : Nat) (b : Byte) :
    Memory.read (Memory.write m i b) j = if j = i then some b else Memory.read m j := by
  induction m with
  | nil => rfl
  | cons head rest ih =>
    obtain ⟨a, old⟩ := head
    simp only [Memory.write]
    split
    · rfl
    · split
      next h => subst h; simp only [Memory.read_cons]; split <;> rfl
      next h1 h2 =>
        simp only [Memory.read_cons, ih]
        split
        · next h => rw [if_neg (by omega)]
        · rfl

/-- Writing keeps the canonical form. -/
theorem Memory.risesFrom_write {m : Memory} {low i : Nat} (b : Byte) (h : Memory.risesFrom low m = true)
    (hi : low ≤ i) : Memory.risesFrom low (Memory.write m i b) = true := by
  induction m generalizing low with
  | nil => simp [Memory.write, Memory.risesFrom, hi]
  | cons head rest ih =>
    obtain ⟨a, old⟩ := head
    simp only [Memory.risesFrom, Bool.and_eq_true, decide_eq_true_eq] at h
    simp only [Memory.write]
    split
    · next hlt => simp [Memory.risesFrom, hi, h.2]; omega
    · split
      · simp [Memory.risesFrom, h.1, h.2]
      · simp [Memory.risesFrom, h.1]; exact ih h.2 (by omega)

theorem Memory.wf_write {m : Memory} (i : Nat) (b : Byte) (h : Memory.wf m = true) :
    Memory.wf (Memory.write m i b) = true :=
  Memory.risesFrom_write b h (Nat.zero_le i)

theorem Memory.below_write {m : Memory} {n i : Nat} (b : Byte) (h : Memory.below n m = true) (hi : i < n) :
    Memory.below n (Memory.write m i b) = true := by
  induction m with
  | nil => simpa [Memory.write, Memory.below] using hi
  | cons head rest ih =>
    obtain ⟨a, old⟩ := head
    simp only [Memory.below, List.all_cons, Bool.and_eq_true, decide_eq_true_eq] at h ih
    simp only [Memory.write]
    split
    · simp only [Memory.below, List.all_cons, Bool.and_eq_true, decide_eq_true_eq]; exact ⟨hi, h⟩
    · split
      · simp only [Memory.below, List.all_cons, Bool.and_eq_true, decide_eq_true_eq]; exact h
      · simp only [Memory.below, List.all_cons, Bool.and_eq_true, decide_eq_true_eq]; exact ⟨h.1, ih h.2⟩

theorem Memory.risesFrom_mono {m : Memory} {low low' : Nat} (h : Memory.risesFrom low m = true) (hl : low' ≤ low) :
    Memory.risesFrom low' m = true := by
  cases m with
  | nil => rfl
  | cons head rest =>
    obtain ⟨a, b⟩ := head
    simp only [Memory.risesFrom, Bool.and_eq_true, decide_eq_true_eq] at h ⊢
    exact ⟨by omega, h.2⟩

/-- Below its first index a canonical memory lists nothing. -/
theorem Memory.read_eq_none_of_lt {m : Memory} {low i : Nat} (h : Memory.risesFrom low m = true) (hi : i < low) :
    Memory.read m i = none := by
  induction m generalizing low with
  | nil => rfl
  | cons head rest ih =>
    obtain ⟨a, b⟩ := head
    simp only [Memory.risesFrom, Bool.and_eq_true, decide_eq_true_eq] at h
    rw [Memory.read_cons, if_neg (by omega)]
    exact ih h.2 (by omega)

/-- Equal memories are equal data: canonical memories that read alike are the same list. -/
theorem Memory.ext_of_risesFrom {m m' : Memory} {low : Nat} (h : Memory.risesFrom low m = true)
    (h' : Memory.risesFrom low m' = true) (hr : ∀ i, Memory.read m i = Memory.read m' i) : m = m' := by
  induction m generalizing m' low with
  | nil =>
    cases m' with
    | nil => rfl
    | cons head rest => have := hr head.1; obtain ⟨a, b⟩ := head; simp [Memory.read_cons] at this
  | cons head rest ih =>
    obtain ⟨a, b⟩ := head
    cases m' with
    | nil => have := hr a; simp [Memory.read_cons] at this
    | cons head' rest' =>
      obtain ⟨a', b'⟩ := head'
      simp only [Memory.risesFrom, Bool.and_eq_true, decide_eq_true_eq] at h h'
      have hne : ∀ {k x y : Nat} {l : Memory}, Memory.risesFrom (k + 1) l = true → x ≤ k → Memory.read l x = none :=
        fun hl hx => Memory.read_eq_none_of_lt hl (by omega)
      have haa : a = a' := by
        rcases Nat.lt_trichotomy a a' with hlt | heq | hgt
        · have h1 := hr a
          rw [Memory.read_cons, if_pos rfl, Memory.read_cons, if_neg (by omega),
            Memory.read_eq_none_of_lt h'.2 (by omega)] at h1
          simp at h1
        · exact heq
        · have h1 := hr a'
          rw [Memory.read_cons, if_neg (by omega), Memory.read_eq_none_of_lt h.2 (by omega), Memory.read_cons,
            if_pos rfl] at h1
          simp at h1
      subst haa
      have hbb : b = b' := by
        have h1 := hr a
        simpa [Memory.read_cons] using h1
      subst hbb
      congr 1
      refine ih h.2 h'.2 fun i => ?_
      have h1 := hr i
      rw [Memory.read_cons, Memory.read_cons] at h1
      split at h1
      next hi =>
        subst hi
        rw [Memory.read_eq_none_of_lt h.2 (by omega), Memory.read_eq_none_of_lt h'.2 (by omega)]
      next => exact h1

theorem Memory.ext {m m' : Memory} (h : Memory.wf m = true) (h' : Memory.wf m' = true)
    (hr : ∀ i, Memory.read m i = Memory.read m' i) : m = m' :=
  Memory.ext_of_risesFrom h h' hr

/-! ### Bytes in a row -/

theorem Memory.read_ofBytes (l : List Byte) (base i : Nat) :
    Memory.read (Memory.ofBytes base l) i = if base ≤ i then l[i - base]? else none := by
  induction l generalizing base with
  | nil => simp [Memory.ofBytes]
  | cons b rest ih =>
    simp only [Memory.ofBytes, Memory.read_cons, ih]
    by_cases h : i = base
    · subst h; simp
    · rw [if_neg h]
      by_cases h1 : base ≤ i
      · rw [if_pos (by omega), if_pos h1, show i - base = (i - (base + 1)) + 1 by omega, List.getElem?_cons_succ]
      · rw [if_neg (by omega), if_neg h1]

theorem Memory.ofBytes_fst (l : List Byte) (base : Nat) :
    (Memory.ofBytes base l).map Prod.fst = List.range' base l.length := by
  induction l generalizing base with
  | nil => rfl
  | cons b rest ih => simp [Memory.ofBytes, ih, List.range'_succ]

@[simp] theorem Memory.bytes_ofBytes (l : List Byte) (base : Nat) : Memory.bytes (Memory.ofBytes base l) = l := by
  induction l generalizing base with
  | nil => rfl
  | cons b rest ih => simpa [Memory.ofBytes, Memory.bytes] using ih (base + 1)

theorem Memory.fills_ofBytes (l : List Byte) : Memory.fills (Memory.ofBytes 0 l) l.length := by
  rw [Memory.fills, Memory.ofBytes_fst, List.range_eq_range']

theorem Memory.ofBytes_append (l l' : List Byte) (base : Nat) :
    Memory.ofBytes base (l ++ l') = Memory.ofBytes base l ++ Memory.ofBytes (base + l.length) l' := by
  induction l generalizing base with
  | nil => simp [Memory.ofBytes]
  | cons b rest ih => simp [Memory.ofBytes, ih, Nat.add_assoc, Nat.add_comm 1]

/-- Writing one cell behind a row of bytes lengthens the row. -/
theorem Memory.write_ofBytes (l : List Byte) (base : Nat) (b : Byte) :
    Memory.write (Memory.ofBytes base l) (base + l.length) b = Memory.ofBytes base (l ++ [b]) := by
  induction l generalizing base with
  | nil => rfl
  | cons c rest ih =>
    simp only [Memory.ofBytes, Memory.write, List.length_cons, List.cons_append]
    rw [if_neg (by omega), if_neg (by omega), ← ih (base + 1)]
    congr 2
    omega

/-- A memory that lists exactly the cells `0 .. n-1` is its bytes in a row. -/
theorem Memory.eq_ofBytes_of_fst {m : Memory} {base n : Nat} (h : m.map Prod.fst = List.range' base n) :
    m = Memory.ofBytes base (Memory.bytes m) := by
  induction m generalizing base n with
  | nil => rfl
  | cons head rest ih =>
    obtain ⟨a, b⟩ := head
    cases n with
    | zero => simp at h
    | succ n =>
      simp only [List.map_cons, List.range'_succ, List.cons.injEq] at h
      obtain ⟨rfl, h⟩ := h
      have := ih h
      simp only [Memory.bytes, List.map_cons, Memory.ofBytes]
      rw [← Memory.bytes, ← this]

theorem Memory.fills_iff {m : Memory} {n : Nat} :
    Memory.fills m n ↔ m = Memory.ofBytes 0 (Memory.bytes m) ∧ (Memory.bytes m).length = n := by
  constructor
  · intro h
    rw [Memory.fills, List.range_eq_range'] at h
    refine ⟨Memory.eq_ofBytes_of_fst h, ?_⟩
    have := congrArg List.length h
    simpa [Memory.bytes] using this
  · rintro ⟨h, rfl⟩
    rw [h]
    simpa using Memory.fills_ofBytes (Memory.bytes m)

theorem Memory.risesFrom_ofBytes (l : List Byte) (base : Nat) :
    Memory.risesFrom base (Memory.ofBytes base l) = true := by
  induction l generalizing base with
  | nil => rfl
  | cons b rest ih => simp [Memory.ofBytes, Memory.risesFrom, ih]

theorem Memory.wf_ofBytes (l : List Byte) (base : Nat) : Memory.wf (Memory.ofBytes base l) = true :=
  Memory.risesFrom_mono (Memory.risesFrom_ofBytes l base) (Nat.zero_le _)

theorem Memory.wf_of_fills {m : Memory} {n : Nat} (h : Memory.fills m n) : Memory.wf m = true := by
  rw [(Memory.fills_iff.mp h).1]
  exact Memory.wf_ofBytes _ _

/-- Bytes written from `base` on: those cells hold them, every other cell is as before. -/
theorem Memory.read_writeBytes (l : List Byte) (m : Memory) (base i : Nat) :
    Memory.read (Memory.writeBytes m base l) i
      = if base ≤ i ∧ i < base + l.length then l[i - base]? else Memory.read m i := by
  induction l generalizing m base with
  | nil => rw [if_neg (by simp)]; rfl
  | cons b rest ih =>
    simp only [Memory.writeBytes, ih, Memory.read_write, List.length_cons]
    by_cases h : i = base
    · subst h
      rw [if_neg (by omega), if_pos rfl, if_pos (by omega)]
      simp
    · by_cases h1 : base + 1 ≤ i ∧ i < base + 1 + rest.length
      · rw [if_pos h1, if_pos (by omega), show i - base = (i - (base + 1)) + 1 by omega, List.getElem?_cons_succ]
      · rw [if_neg h1, if_neg h, if_neg (by omega)]

theorem Memory.wf_writeBytes (l : List Byte) {m : Memory} (base : Nat) (h : Memory.wf m = true) :
    Memory.wf (Memory.writeBytes m base l) = true := by
  induction l generalizing m base with
  | nil => exact h
  | cons b rest ih => exact ih _ (Memory.wf_write _ _ h)

theorem Memory.below_writeBytes (l : List Byte) {m : Memory} {n base : Nat} (h : Memory.below n m = true)
    (hb : base + l.length ≤ n) : Memory.below n (Memory.writeBytes m base l) = true := by
  induction l generalizing m base with
  | nil => exact h
  | cons b rest ih =>
    rw [List.length_cons] at hb
    exact ih (Memory.below_write _ h (by omega)) (by omega)

end Sys2Proof.Machine
end

