-- ==== Sys2Proof/Laws/State.lean ====
section
/-! SUPPORT. What each update of the state does to each field: one lemma per field per update, so that no proof
unfolds a record update. -/

namespace Sys2Proof.Machine

/-! ### finish -/

@[simp] theorem State.finish_fi (s : State) (c : StatusCode) :
    (s.finish c).fi = s.fi := rfl

@[simp] theorem State.finish_wo (s : State) (c : StatusCode) :
    (s.finish c).wo = s.wo := rfl

@[simp] theorem State.finish_wi (s : State) (c : StatusCode) :
    (s.finish c).wi = s.wi := rfl

@[simp] theorem State.finish_fo (s : State) (c : StatusCode) :
    (s.finish c).fo = s.fo := rfl

@[simp] theorem State.finish_st (s : State) (c : StatusCode) :
    (s.finish c).st = { busy := false, code := c } := rfl

@[simp] theorem State.finish_crc (s : State) (c : StatusCode) :
    (s.finish c).crc = s.crc := rfl

@[simp] theorem State.finish_phase (s : State) (c : StatusCode) :
    (s.finish c).phase = .idle := rfl

@[simp] theorem State.finish_ptr (s : State) (c : StatusCode) :
    (s.finish c).ptr = s.ptr := rfl

@[simp] theorem State.finish_len16 (s : State) (c : StatusCode) :
    (s.finish c).len16 = s.len16 := rfl

@[simp] theorem State.finish_sumrx (s : State) (c : StatusCode) :
    (s.finish c).sumrx = s.sumrx := rfl

@[simp] theorem State.finish_pending (s : State) (c : StatusCode) :
    (s.finish c).pending = s.pending := rfl

@[simp] theorem State.finish_reads (s : State) (c : StatusCode) :
    (s.finish c).reads = s.reads := rfl

@[simp] theorem State.finish_epoch (s : State) (c : StatusCode) :
    (s.finish c).epoch = s.epoch := rfl

@[simp] theorem State.finish_draws (s : State) (c : StatusCode) :
    (s.finish c).draws = s.draws := rfl

/-! ### completeOk -/

@[simp] theorem State.completeOk_fi (s : State) :
    (s.completeOk).fi = s.fi := rfl

@[simp] theorem State.completeOk_wo (s : State) :
    (s.completeOk).wo = s.wo := rfl

@[simp] theorem State.completeOk_wi (s : State) :
    (s.completeOk).wi = s.wi := rfl

@[simp] theorem State.completeOk_fo (s : State) :
    (s.completeOk).fo = s.fo := rfl

@[simp] theorem State.completeOk_st (s : State) :
    (s.completeOk).st = { busy := false, code := .ok } := rfl

@[simp] theorem State.completeOk_crc (s : State) :
    (s.completeOk).crc = s.crc := rfl

@[simp] theorem State.completeOk_phase (s : State) :
    (s.completeOk).phase = .idle := rfl

@[simp] theorem State.completeOk_ptr (s : State) :
    (s.completeOk).ptr = s.ptr := rfl

@[simp] theorem State.completeOk_len16 (s : State) :
    (s.completeOk).len16 = s.len16 := rfl

@[simp] theorem State.completeOk_sumrx (s : State) :
    (s.completeOk).sumrx = s.sumrx := rfl

@[simp] theorem State.completeOk_pending (s : State) :
    (s.completeOk).pending = s.pending := rfl

@[simp] theorem State.completeOk_reads (s : State) :
    (s.completeOk).reads = s.reads := rfl

@[simp] theorem State.completeOk_epoch (s : State) :
    (s.completeOk).epoch = s.epoch := rfl

@[simp] theorem State.completeOk_draws (s : State) :
    (s.completeOk).draws = s.draws := rfl

/-! ### raise_encode -/

@[simp] theorem State.raise_encode_fi (s : State) (e : CodecError) :
    (s.raise .encode e).fi = s.fi := rfl

@[simp] theorem State.raise_encode_wo (s : State) (e : CodecError) :
    (s.raise .encode e).wo = .absent := rfl

@[simp] theorem State.raise_encode_wi (s : State) (e : CodecError) :
    (s.raise .encode e).wi = s.wi := rfl

@[simp] theorem State.raise_encode_fo (s : State) (e : CodecError) :
    (s.raise .encode e).fo = s.fo := rfl

@[simp] theorem State.raise_encode_st (s : State) (e : CodecError) :
    (s.raise .encode e).st = { busy := false, code := .err e } := rfl

@[simp] theorem State.raise_encode_crc (s : State) (e : CodecError) :
    (s.raise .encode e).crc = s.crc := rfl

@[simp] theorem State.raise_encode_phase (s : State) (e : CodecError) :
    (s.raise .encode e).phase = .idle := rfl

@[simp] theorem State.raise_encode_ptr (s : State) (e : CodecError) :
    (s.raise .encode e).ptr = s.ptr := rfl

@[simp] theorem State.raise_encode_len16 (s : State) (e : CodecError) :
    (s.raise .encode e).len16 = s.len16 := rfl

@[simp] theorem State.raise_encode_sumrx (s : State) (e : CodecError) :
    (s.raise .encode e).sumrx = s.sumrx := rfl

@[simp] theorem State.raise_encode_pending (s : State) (e : CodecError) :
    (s.raise .encode e).pending = s.pending := rfl

@[simp] theorem State.raise_encode_reads (s : State) (e : CodecError) :
    (s.raise .encode e).reads = s.reads := rfl

@[simp] theorem State.raise_encode_epoch (s : State) (e : CodecError) :
    (s.raise .encode e).epoch = s.epoch := rfl

@[simp] theorem State.raise_encode_draws (s : State) (e : CodecError) :
    (s.raise .encode e).draws = s.draws := rfl

/-! ### raise_decode -/

@[simp] theorem State.raise_decode_fi (s : State) (e : CodecError) :
    (s.raise .decode e).fi = s.fi := rfl

@[simp] theorem State.raise_decode_wo (s : State) (e : CodecError) :
    (s.raise .decode e).wo = s.wo := rfl

@[simp] theorem State.raise_decode_wi (s : State) (e : CodecError) :
    (s.raise .decode e).wi = s.wi := rfl

@[simp] theorem State.raise_decode_fo (s : State) (e : CodecError) :
    (s.raise .decode e).fo = .absent := rfl

@[simp] theorem State.raise_decode_st (s : State) (e : CodecError) :
    (s.raise .decode e).st = { busy := false, code := .err e } := rfl

@[simp] theorem State.raise_decode_crc (s : State) (e : CodecError) :
    (s.raise .decode e).crc = s.crc := rfl

@[simp] theorem State.raise_decode_phase (s : State) (e : CodecError) :
    (s.raise .decode e).phase = .idle := rfl

@[simp] theorem State.raise_decode_ptr (s : State) (e : CodecError) :
    (s.raise .decode e).ptr = s.ptr := rfl

@[simp] theorem State.raise_decode_len16 (s : State) (e : CodecError) :
    (s.raise .decode e).len16 = s.len16 := rfl

@[simp] theorem State.raise_decode_sumrx (s : State) (e : CodecError) :
    (s.raise .decode e).sumrx = s.sumrx := rfl

@[simp] theorem State.raise_decode_pending (s : State) (e : CodecError) :
    (s.raise .decode e).pending = s.pending := rfl

@[simp] theorem State.raise_decode_reads (s : State) (e : CodecError) :
    (s.raise .decode e).reads = s.reads := rfl

@[simp] theorem State.raise_decode_epoch (s : State) (e : CodecError) :
    (s.raise .decode e).epoch = s.epoch := rfl

@[simp] theorem State.raise_decode_draws (s : State) (e : CodecError) :
    (s.raise .decode e).draws = s.draws := rfl

/-! ### feed -/

@[simp] theorem State.feed_fi (s : State) (d : Byte) :
    (s.feed d).fi = s.fi := rfl

@[simp] theorem State.feed_wo (s : State) (d : Byte) :
    (s.feed d).wo = s.wo := rfl

@[simp] theorem State.feed_wi (s : State) (d : Byte) :
    (s.feed d).wi = s.wi := rfl

@[simp] theorem State.feed_fo (s : State) (d : Byte) :
    (s.feed d).fo = s.fo := rfl

@[simp] theorem State.feed_st (s : State) (d : Byte) :
    (s.feed d).st = s.st := rfl

@[simp] theorem State.feed_crc (s : State) (d : Byte) :
    (s.feed d).crc = crcByte s.crc d := rfl

@[simp] theorem State.feed_phase (s : State) (d : Byte) :
    (s.feed d).phase = s.phase := rfl

@[simp] theorem State.feed_ptr (s : State) (d : Byte) :
    (s.feed d).ptr = s.ptr := rfl

@[simp] theorem State.feed_len16 (s : State) (d : Byte) :
    (s.feed d).len16 = s.len16 := rfl

@[simp] theorem State.feed_sumrx (s : State) (d : Byte) :
    (s.feed d).sumrx = s.sumrx := rfl

@[simp] theorem State.feed_pending (s : State) (d : Byte) :
    (s.feed d).pending = s.pending := rfl

@[simp] theorem State.feed_reads (s : State) (d : Byte) :
    (s.feed d).reads = s.reads := rfl

@[simp] theorem State.feed_epoch (s : State) (d : Byte) :
    (s.feed d).epoch = s.epoch := rfl

@[simp] theorem State.feed_draws (s : State) (d : Byte) :
    (s.feed d).draws = s.draws := rfl

/-! ### returns -/

@[simp] theorem State.returns_fi (s : State) (v : Nat) :
    (s.returns v).fi = s.fi := rfl

@[simp] theorem State.returns_wo (s : State) (v : Nat) :
    (s.returns v).wo = s.wo := rfl

@[simp] theorem State.returns_wi (s : State) (v : Nat) :
    (s.returns v).wi = s.wi := rfl

@[simp] theorem State.returns_fo (s : State) (v : Nat) :
    (s.returns v).fo = s.fo := rfl

@[simp] theorem State.returns_st (s : State) (v : Nat) :
    (s.returns v).st = s.st := rfl

@[simp] theorem State.returns_crc (s : State) (v : Nat) :
    (s.returns v).crc = s.crc := rfl

@[simp] theorem State.returns_phase (s : State) (v : Nat) :
    (s.returns v).phase = s.phase := rfl

@[simp] theorem State.returns_ptr (s : State) (v : Nat) :
    (s.returns v).ptr = s.ptr := rfl

@[simp] theorem State.returns_len16 (s : State) (v : Nat) :
    (s.returns v).len16 = s.len16 := rfl

@[simp] theorem State.returns_sumrx (s : State) (v : Nat) :
    (s.returns v).sumrx = s.sumrx := rfl

@[simp] theorem State.returns_pending (s : State) (v : Nat) :
    (s.returns v).pending = s.pending := rfl

@[simp] theorem State.returns_reads (s : State) (v : Nat) :
    (s.returns v).reads = v :: s.reads := rfl

@[simp] theorem State.returns_epoch (s : State) (v : Nat) :
    (s.returns v).epoch = s.epoch := rfl

@[simp] theorem State.returns_draws (s : State) (v : Nat) :
    (s.returns v).draws = s.draws := rfl

/-! ### present -/

@[simp] theorem State.present_fi (s : State) (l : List Byte) :
    (s.present l).fi = s.fi := rfl

@[simp] theorem State.present_wo (s : State) (l : List Byte) :
    (s.present l).wo = s.wo := rfl

@[simp] theorem State.present_wi (s : State) (l : List Byte) :
    (s.present l).wi = { len := l.length, bytes := Memory.writeBytes s.wi.bytes 0 l } := rfl

@[simp] theorem State.present_fo (s : State) (l : List Byte) :
    (s.present l).fo = s.fo := rfl

@[simp] theorem State.present_st (s : State) (l : List Byte) :
    (s.present l).st = s.st := rfl

@[simp] theorem State.present_crc (s : State) (l : List Byte) :
    (s.present l).crc = s.crc := rfl

@[simp] theorem State.present_phase (s : State) (l : List Byte) :
    (s.present l).phase = s.phase := rfl

@[simp] theorem State.present_ptr (s : State) (l : List Byte) :
    (s.present l).ptr = s.ptr := rfl

@[simp] theorem State.present_len16 (s : State) (l : List Byte) :
    (s.present l).len16 = s.len16 := rfl

@[simp] theorem State.present_sumrx (s : State) (l : List Byte) :
    (s.present l).sumrx = s.sumrx := rfl

@[simp] theorem State.present_pending (s : State) (l : List Byte) :
    (s.present l).pending = s.pending := rfl

@[simp] theorem State.present_reads (s : State) (l : List Byte) :
    (s.present l).reads = s.reads := rfl

@[simp] theorem State.present_epoch (s : State) (l : List Byte) :
    (s.present l).epoch = s.epoch := rfl

@[simp] theorem State.present_draws (s : State) (l : List Byte) :
    (s.present l).draws = s.draws := rfl

/-! ### startEncode -/

@[simp] theorem State.startEncode_fi (s : State) :
    (s.startEncode).fi = s.fi := rfl

@[simp] theorem State.startEncode_wo (s : State) :
    (s.startEncode).wo = s.wo := rfl

@[simp] theorem State.startEncode_wi (s : State) :
    (s.startEncode).wi = s.wi := rfl

@[simp] theorem State.startEncode_fo (s : State) :
    (s.startEncode).fo = s.fo := rfl

@[simp] theorem State.startEncode_st (s : State) :
    (s.startEncode).st = { s.st with busy := true } := rfl

@[simp] theorem State.startEncode_crc (s : State) :
    (s.startEncode).crc = s.crc := rfl

@[simp] theorem State.startEncode_phase (s : State) :
    (s.startEncode).phase = .eCheck := rfl

@[simp] theorem State.startEncode_ptr (s : State) :
    (s.startEncode).ptr = s.ptr := rfl

@[simp] theorem State.startEncode_len16 (s : State) :
    (s.startEncode).len16 = s.len16 := rfl

@[simp] theorem State.startEncode_sumrx (s : State) :
    (s.startEncode).sumrx = s.sumrx := rfl

@[simp] theorem State.startEncode_pending (s : State) :
    (s.startEncode).pending = s.pending := rfl

@[simp] theorem State.startEncode_reads (s : State) :
    (s.startEncode).reads = s.reads := rfl

@[simp] theorem State.startEncode_epoch (s : State) :
    (s.startEncode).epoch = s.epoch := rfl

@[simp] theorem State.startEncode_draws (s : State) :
    (s.startEncode).draws = s.draws := rfl

/-! ### startDecode -/

@[simp] theorem State.startDecode_fi (s : State) :
    (s.startDecode).fi = s.fi := rfl

@[simp] theorem State.startDecode_wo (s : State) :
    (s.startDecode).wo = s.wo := rfl

@[simp] theorem State.startDecode_wi (s : State) :
    (s.startDecode).wi = s.wi := rfl

@[simp] theorem State.startDecode_fo (s : State) :
    (s.startDecode).fo = s.fo := rfl

@[simp] theorem State.startDecode_st (s : State) :
    (s.startDecode).st = { s.st with busy := true } := rfl

@[simp] theorem State.startDecode_crc (s : State) :
    (s.startDecode).crc = s.crc := rfl

@[simp] theorem State.startDecode_phase (s : State) :
    (s.startDecode).phase = .dHdr := rfl

@[simp] theorem State.startDecode_ptr (s : State) :
    (s.startDecode).ptr = 0#17 := rfl

@[simp] theorem State.startDecode_len16 (s : State) :
    (s.startDecode).len16 = s.len16 := rfl

@[simp] theorem State.startDecode_sumrx (s : State) :
    (s.startDecode).sumrx = s.sumrx := rfl

@[simp] theorem State.startDecode_pending (s : State) :
    (s.startDecode).pending = s.pending := rfl

@[simp] theorem State.startDecode_reads (s : State) :
    (s.startDecode).reads = s.reads := rfl

@[simp] theorem State.startDecode_epoch (s : State) :
    (s.startDecode).epoch = s.epoch := rfl

@[simp] theorem State.startDecode_draws (s : State) :
    (s.startDecode).draws = s.draws := rfl

/-! ### emit -/

@[simp] theorem State.emit_fi (s : State) (b : Byte) :
    (s.emit b).fi = s.fi := rfl

@[simp] theorem State.emit_wo (s : State) (b : Byte) :
    (s.emit b).wo = s.wo.pass s.ptr.toNat b := rfl

@[simp] theorem State.emit_wi (s : State) (b : Byte) :
    (s.emit b).wi = s.wi := rfl

@[simp] theorem State.emit_fo (s : State) (b : Byte) :
    (s.emit b).fo = s.fo := rfl

@[simp] theorem State.emit_st (s : State) (b : Byte) :
    (s.emit b).st = s.st := rfl

@[simp] theorem State.emit_crc (s : State) (b : Byte) :
    (s.emit b).crc = s.crc := rfl

@[simp] theorem State.emit_phase (s : State) (b : Byte) :
    (s.emit b).phase = s.phase := rfl

@[simp] theorem State.emit_ptr (s : State) (b : Byte) :
    (s.emit b).ptr = s.ptr + 1#17 := rfl

@[simp] theorem State.emit_len16 (s : State) (b : Byte) :
    (s.emit b).len16 = s.len16 := rfl

@[simp] theorem State.emit_sumrx (s : State) (b : Byte) :
    (s.emit b).sumrx = s.sumrx := rfl

@[simp] theorem State.emit_pending (s : State) (b : Byte) :
    (s.emit b).pending = s.pending := rfl

@[simp] theorem State.emit_reads (s : State) (b : Byte) :
    (s.emit b).reads = s.reads := rfl

@[simp] theorem State.emit_epoch (s : State) (b : Byte) :
    (s.emit b).epoch = s.epoch := rfl

@[simp] theorem State.emit_draws (s : State) (b : Byte) :
    (s.emit b).draws = s.draws := rfl

/-! ### absorb -/

@[simp] theorem State.absorb_fi (s : State) (b : Byte) :
    (s.absorb b).fi = s.fi := rfl

@[simp] theorem State.absorb_wo (s : State) (b : Byte) :
    (s.absorb b).wo = s.wo := rfl

@[simp] theorem State.absorb_wi (s : State) (b : Byte) :
    (s.absorb b).wi = s.wi := rfl

@[simp] theorem State.absorb_fo (s : State) (b : Byte) :
    (s.absorb b).fo = s.fo.pass s.ptr.toNat b := rfl

@[simp] theorem State.absorb_st (s : State) (b : Byte) :
    (s.absorb b).st = s.st := rfl

@[simp] theorem State.absorb_crc (s : State) (b : Byte) :
    (s.absorb b).crc = crcByte s.crc b := rfl

@[simp] theorem State.absorb_phase (s : State) (b : Byte) :
    (s.absorb b).phase = s.phase := rfl

@[simp] theorem State.absorb_ptr (s : State) (b : Byte) :
    (s.absorb b).ptr = s.ptr + 1#17 := rfl

@[simp] theorem State.absorb_len16 (s : State) (b : Byte) :
    (s.absorb b).len16 = s.len16 := rfl

@[simp] theorem State.absorb_sumrx (s : State) (b : Byte) :
    (s.absorb b).sumrx = s.sumrx := rfl

@[simp] theorem State.absorb_pending (s : State) (b : Byte) :
    (s.absorb b).pending = s.pending := rfl

@[simp] theorem State.absorb_reads (s : State) (b : Byte) :
    (s.absorb b).reads = s.reads := rfl

@[simp] theorem State.absorb_epoch (s : State) (b : Byte) :
    (s.absorb b).epoch = s.epoch := rfl

@[simp] theorem State.absorb_draws (s : State) (b : Byte) :
    (s.absorb b).draws = s.draws := rfl

/-! ### consumed -/

@[simp] theorem State.consumed_fi (s : State) (n : Nat) :
    (s.consumed n).fi = s.fi := rfl

@[simp] theorem State.consumed_wo (s : State) (n : Nat) :
    (s.consumed n).wo = s.wo := rfl

@[simp] theorem State.consumed_wi (s : State) (n : Nat) :
    (s.consumed n).wi = s.wi := rfl

@[simp] theorem State.consumed_fo (s : State) (n : Nat) :
    (s.consumed n).fo = s.fo := rfl

@[simp] theorem State.consumed_st (s : State) (n : Nat) :
    (s.consumed n).st = s.st := rfl

@[simp] theorem State.consumed_crc (s : State) (n : Nat) :
    (s.consumed n).crc = crcRegister (s.wireIn 0 n) := rfl

@[simp] theorem State.consumed_phase (s : State) (n : Nat) :
    (s.consumed n).phase = s.phase := rfl

@[simp] theorem State.consumed_ptr (s : State) (n : Nat) :
    (s.consumed n).ptr = BitVec.ofNat 17 n := rfl

@[simp] theorem State.consumed_len16 (s : State) (n : Nat) :
    (s.consumed n).len16 = s.wireLength := rfl

@[simp] theorem State.consumed_sumrx (s : State) (n : Nat) :
    (s.consumed n).sumrx = s.sumrx := rfl

@[simp] theorem State.consumed_pending (s : State) (n : Nat) :
    (s.consumed n).pending = s.pending := rfl

@[simp] theorem State.consumed_reads (s : State) (n : Nat) :
    (s.consumed n).reads = s.reads := rfl

@[simp] theorem State.consumed_epoch (s : State) (n : Nat) :
    (s.consumed n).epoch = s.epoch := rfl

@[simp] theorem State.consumed_draws (s : State) (n : Nat) :
    (s.consumed n).draws = s.draws := rfl

/-! ### resetEvent -/

@[simp] theorem State.resetEvent_fi (s : State) :
    (s.resetEvent).fi = State.reset.fi := rfl

@[simp] theorem State.resetEvent_wo (s : State) :
    (s.resetEvent).wo = State.reset.wo := rfl

@[simp] theorem State.resetEvent_wi (s : State) :
    (s.resetEvent).wi = State.reset.wi := rfl

@[simp] theorem State.resetEvent_fo (s : State) :
    (s.resetEvent).fo = State.reset.fo := rfl

@[simp] theorem State.resetEvent_st (s : State) :
    (s.resetEvent).st = State.reset.st := rfl

@[simp] theorem State.resetEvent_crc (s : State) :
    (s.resetEvent).crc = State.reset.crc := rfl

@[simp] theorem State.resetEvent_phase (s : State) :
    (s.resetEvent).phase = State.reset.phase := rfl

@[simp] theorem State.resetEvent_ptr (s : State) :
    (s.resetEvent).ptr = State.reset.ptr := rfl

@[simp] theorem State.resetEvent_len16 (s : State) :
    (s.resetEvent).len16 = State.reset.len16 := rfl

@[simp] theorem State.resetEvent_sumrx (s : State) :
    (s.resetEvent).sumrx = State.reset.sumrx := rfl

@[simp] theorem State.resetEvent_pending (s : State) :
    (s.resetEvent).pending = s.pending := rfl

@[simp] theorem State.resetEvent_reads (s : State) :
    (s.resetEvent).reads = s.reads := rfl

@[simp] theorem State.resetEvent_epoch (s : State) :
    (s.resetEvent).epoch = s.epoch + 1 := rfl

@[simp] theorem State.resetEvent_draws (s : State) :
    (s.resetEvent).draws = s.draws := rfl

/-! ### noteLength -/

@[simp] theorem State.noteLength_fi (s : State) (i : Nat) (b : Byte) :
    (s.noteLength i b).fi = s.fi := by
  unfold State.noteLength; split <;> [rfl; (split <;> rfl)]

@[simp] theorem State.noteLength_wo (s : State) (i : Nat) (b : Byte) :
    (s.noteLength i b).wo = s.wo := by
  unfold State.noteLength; split <;> [rfl; (split <;> rfl)]

@[simp] theorem State.noteLength_wi (s : State) (i : Nat) (b : Byte) :
    (s.noteLength i b).wi = s.wi := by
  unfold State.noteLength; split <;> [rfl; (split <;> rfl)]

@[simp] theorem State.noteLength_fo (s : State) (i : Nat) (b : Byte) :
    (s.noteLength i b).fo = s.fo := by
  unfold State.noteLength; split <;> [rfl; (split <;> rfl)]

@[simp] theorem State.noteLength_st (s : State) (i : Nat) (b : Byte) :
    (s.noteLength i b).st = s.st := by
  unfold State.noteLength; split <;> [rfl; (split <;> rfl)]

@[simp] theorem State.noteLength_crc (s : State) (i : Nat) (b : Byte) :
    (s.noteLength i b).crc = s.crc := by
  unfold State.noteLength; split <;> [rfl; (split <;> rfl)]

@[simp] theorem State.noteLength_phase (s : State) (i : Nat) (b : Byte) :
    (s.noteLength i b).phase = s.phase := by
  unfold State.noteLength; split <;> [rfl; (split <;> rfl)]

@[simp] theorem State.noteLength_ptr (s : State) (i : Nat) (b : Byte) :
    (s.noteLength i b).ptr = s.ptr := by
  unfold State.noteLength; split <;> [rfl; (split <;> rfl)]

@[simp] theorem State.noteLength_sumrx (s : State) (i : Nat) (b : Byte) :
    (s.noteLength i b).sumrx = s.sumrx := by
  unfold State.noteLength; split <;> [rfl; (split <;> rfl)]

@[simp] theorem State.noteLength_pending (s : State) (i : Nat) (b : Byte) :
    (s.noteLength i b).pending = s.pending := by
  unfold State.noteLength; split <;> [rfl; (split <;> rfl)]

@[simp] theorem State.noteLength_reads (s : State) (i : Nat) (b : Byte) :
    (s.noteLength i b).reads = s.reads := by
  unfold State.noteLength; split <;> [rfl; (split <;> rfl)]

@[simp] theorem State.noteLength_epoch (s : State) (i : Nat) (b : Byte) :
    (s.noteLength i b).epoch = s.epoch := by
  unfold State.noteLength; split <;> [rfl; (split <;> rfl)]

@[simp] theorem State.noteLength_draws (s : State) (i : Nat) (b : Byte) :
    (s.noteLength i b).draws = s.draws := by
  unfold State.noteLength; split <;> [rfl; (split <;> rfl)]

end Sys2Proof.Machine
end

