-- ==== Sys2Proof/Laws/Commands.lean ====
section
/-! SUPPORT. What the two commands do, case by case, and what an atomic instruction can answer. -/

namespace Sys2Proof.Machine

@[simp] theorem oversized_eq (n : Nat) : oversized n = decide (65535 < n) := rfl

@[simp] theorem headerTruncated_eq (n : Nat) : headerTruncated n = decide (n < 4) := rfl

@[simp] theorem payloadTruncated_eq (n : Nat) (l : Length) :
    payloadTruncated n l = decide (n - 4 < l.toNat) := rfl

@[simp] theorem checksumTruncated_eq (n : Nat) (l : Length) :
    checksumTruncated n l = decide (n - 4 - l.toNat < 4) := rfl

@[simp] theorem checksumDiffers_eq (a b : Sum) : checksumDiffers a b = decide (a ≠ b) := rfl

/-! ### ENCODE -/

/-- The wire bytes an `ENCODE` writes. -/
theorem State.frameBytes_append_checksum (s : State) (h : s.fi.len ≤ 65535) :
    s.frameBytes ++ be32 (crc32 s.frameBytes)
      = wireBytes s.fi.version s.fi.kind (s.payloadIn s.fi.len) (crc32 s.frameBytes) := by
  simp [wireBytes, State.frameBytes, State.frameLength, Nat.mod_eq_of_lt (show s.fi.len < 65536 by omega)]

theorem State.marshal_of_oversized {s : State} (h : 65535 < s.fi.len) :
    s.marshal = s.raise .encode .oversizedPayload := by
  simp [State.marshal, h]

theorem State.marshal_of_fits {s : State} (h : s.fi.len ≤ 65535) :
    s.marshal = State.completeOk
      { s with
        len16 := s.frameLength
        crc := crcRegister s.frameBytes
        ptr := s.frameLength.setWidth 17 + 8#17
        wo := .valid
          { len := s.frameLength.setWidth 17 + 8#17
            bytes := Memory.ofBytes 0 (s.frameBytes ++ be32 (crc32 s.frameBytes)) } } := by
  rw [State.marshal, oversized_eq, if_neg (by simpa using h)]
  rfl

/-- `WO.len` as a number. -/
theorem State.wireLen_toNat {s : State} (h : s.fi.len ≤ 65535) :
    (s.frameLength.setWidth 17 + 8#17 : Ptr).toNat = s.fi.len + 8 := by
  rw [BitVec.toNat_add, BitVec.toNat_setWidth, State.frameLength_toNat h]
  simp
  omega

/-! ### DECODE -/

theorem State.parse_of_short_header {s : State} (h : s.wi.len < 4) :
    s.parse = State.raise { s with ptr := 0#17 } .decode .truncatedHeader := by
  simp [State.parse, h]

theorem State.parse_of_short_payload {s : State} (h : 4 ≤ s.wi.len) (h1 : s.wi.len - 4 < s.lengthField) :
    s.parse = (s.consumed 4).raise .decode .truncatedPayload := by
  simp [State.parse, h1, Nat.not_lt.mpr h]

theorem State.parse_of_short_checksum {s : State} (h : 4 ≤ s.wi.len) (h1 : s.lengthField ≤ s.wi.len - 4)
    (h2 : s.wi.len - 4 - s.lengthField < 4) :
    s.parse = (s.consumed (4 + s.lengthField)).raise .decode .truncatedChecksum := by
  simp [State.parse, h2, Nat.not_lt.mpr h, Nat.not_lt.mpr h1]

/-- The state in which the checksums are compared (R168). -/
def State.compared (s : State) : State :=
  { s.consumed (4 + s.lengthField) with
    ptr := BitVec.ofNat 17 (8 + s.lengthField)
    sumrx := s.wireChecksum s.lengthField }

theorem State.parse_of_complete {s : State} (h : 8 + s.lengthField ≤ s.wi.len) :
    s.parse =
      if s.wireChecksum s.lengthField = crc32 (s.wireIn 0 (4 + s.lengthField)) then
        State.completeOk { s.compared with fo := .valid (s.parsedFrame s.wireLength) }
      else s.compared.raise .decode .checksumMismatch := by
  have h0 : ¬ s.wi.len < 4 := by omega
  have h1 : ¬ s.wi.len - 4 < s.lengthField := by omega
  have h2 : ¬ s.wi.len - 4 - s.lengthField < 4 := by omega
  simp only [State.parse, headerTruncated_eq, payloadTruncated_eq, checksumTruncated_eq, checksumDiffers_eq,
    State.wireLength_toNat, h0, h1, h2, decide_false, Bool.false_eq_true, if_false, State.consumed_crc]
  by_cases hc : s.wireChecksum s.lengthField = crc32 (s.wireIn 0 (4 + s.lengthField))
  · rw [if_pos hc]
    rw [if_neg (by rw [decide_eq_true_eq, not_not]; exact hc)]
    rfl
  · rw [if_neg hc]
    rw [if_pos (by rw [decide_eq_true_eq]; exact hc)]
    rfl

/-! ### The atomic instructions -/

theorem execEncode_of_idle {s : State} (h : s.st.busy = false) : exec .encode s = .next s.marshal := by
  simp [exec, execEncode, h]

theorem execDecode_of_idle {s : State} (h : s.st.busy = false) (hc : s.wi.len ≤ Config.wiCap) :
    exec .decode s = .next s.parse := by
  simp [exec, execDecode, h, (fitsWire_iff _).mpr hc]

/-- Everything an instruction can answer with a next state. -/
theorem exec_next_cases {i : Instr} {s t : State} (h : exec i s = .next t) :
    t = s
      ∨ (i = .encode ∧ s.st.busy = false ∧ t = s.marshal)
      ∨ (i = .decode ∧ s.st.busy = false ∧ s.wi.len ≤ Config.wiCap ∧ t = s.parse)
      ∨ (i.isControlWord = true ∧ t = { s with crc := t.crc })
      ∨ ∃ v k p c, i = .wireframe v k p c ∧ s.st.busy = false ∧ p.length ≤ 65535
          ∧ t = s.present (wireBytes v k p c) := by
  cases i with
  | nop => left; simpa [exec, execNop] using h.symm
  | rsvd3 => left; simpa [exec, execRsvd3] using h.symm
  | encode =>
    simp only [exec, execEncode] at h
    split at h
    · left; simpa using h.symm
    next hb => right; left; exact ⟨rfl, by simpa using hb, by simpa using h.symm⟩
  | decode =>
    simp only [exec, execDecode] at h
    split at h
    · left; simpa using h.symm
    next hb =>
      split at h
      next hf => right; right; left; exact ⟨rfl, by simpa using hb, (fitsWire_iff _).mp hf, by simpa using h.symm⟩
      · simp at h
  | crcHold din => left; simpa [exec, execCrcHold] using h.symm
  | crcBit din =>
    right; right; right; left
    simp only [exec, execCrcBit, Host.Outcome.next.injEq] at h
    exact ⟨rfl, by rw [← h]⟩
  | crcByte din =>
    right; right; right; left
    simp only [exec, execCrcByte, Host.Outcome.next.injEq] at h
    exact ⟨rfl, by rw [← h]; rfl⟩
  | crcInit din =>
    right; right; right; left
    simp only [exec, execCrcInit, Host.Outcome.next.injEq] at h
    exact ⟨rfl, by rw [← h]⟩
  | wireframe v k p c =>
    simp only [exec, execWireframe] at h
    split at h
    next hp =>
      split at h
      · simp at h
      next hb =>
        right; right; right; right
        exact ⟨v, k, p, c, rfl, by simpa using hb, hp, by simpa using h.symm⟩
    · simp at h

/-- Everything a step can be. -/
theorem step_nil {s : State} (h : s.pending = []) : step s = .next s.advance := by
  simp [step, State.proceed, h]

theorem step_cons {s : State} {a : HostAct} {rest : List HostAct} (h : s.pending = a :: rest) :
    step s = State.act { s with pending := rest } a := by
  simp [step, State.proceed, h]

end Sys2Proof.Machine
end

