-- ==== Sys2Proof/Laws/Access.lean ====
section
/-! SUPPORT. Everything a host action can do. -/

namespace Sys2Proof.Machine

theorem State.inputWrite_next {s s' t : State} (h : s.inputWrite s' = .next t) : s.st.busy = false ∧ t = s' := by
  unfold State.inputWrite at h
  split at h
  · simp at h
  next hb => exact ⟨by simpa using hb, by simpa using h.symm⟩

theorem State.commandWrite_next {s t : State} {c : BitVec 2} (h : s.commandWrite c = .next t) :
    t = s ∨ (s.st.busy = false ∧ t = s.startEncode)
      ∨ (s.st.busy = false ∧ s.wi.len ≤ Config.wiCap ∧ t = s.startDecode) := by
  unfold State.commandWrite at h
  split at h
  · left; simpa using h.symm
  next hb =>
    have hb : s.st.busy = false := by simpa using hb
    split at h
    · right; left; exact ⟨hb, by simpa using h.symm⟩
    · split at h
      · split at h
        next hf => right; right; exact ⟨hb, (fitsWire_iff _).mp hf, by simpa using h.symm⟩
        · simp at h
      · left; simpa using h.symm

/-- What a register write can do. -/
theorem State.writeReg_next {s t : State} {r : Reg} {v : Nat} (h : s.writeReg r v = .next t) :
    t = s
      ∨ (s.st.busy = false
        ∧ ((∃ b, t = { s with fi := { s.fi with version := b } }) ∨ (∃ b, t = { s with fi := { s.fi with kind := b } })
          ∨ (v < 2 ^ Config.lenw ∧ t = { s with fi := { s.fi with len := v } })
          ∨ (v < 2 ^ Config.lenw ∧ t = { s with wi := { s.wi with len := v } })))
      ∨ (s.st.busy = false ∧ t = s.startEncode)
      ∨ (s.st.busy = false ∧ s.wi.len ≤ Config.wiCap ∧ t = s.startDecode) := by
  cases r with
  | fiVersion =>
    simp only [State.writeReg] at h
    split at h
    · obtain ⟨hb, rfl⟩ := State.inputWrite_next h; exact .inr (.inl ⟨hb, .inl ⟨_, rfl⟩⟩)
    · simp at h
  | fiKind =>
    simp only [State.writeReg] at h
    split at h
    · obtain ⟨hb, rfl⟩ := State.inputWrite_next h; exact .inr (.inl ⟨hb, .inr (.inl ⟨_, rfl⟩)⟩)
    · simp at h
  | fiLen =>
    simp only [State.writeReg] at h
    split at h
    next hv =>
      obtain ⟨hb, rfl⟩ := State.inputWrite_next h
      exact .inr (.inl ⟨hb, .inr (.inr (.inl ⟨(fitsLen_iff v).mp hv, rfl⟩))⟩)
    · simp at h
  | wiLen =>
    simp only [State.writeReg] at h
    split at h
    next hv =>
      obtain ⟨hb, rfl⟩ := State.inputWrite_next h
      exact .inr (.inl ⟨hb, .inr (.inr (.inr ⟨(fitsLen_iff v).mp hv, rfl⟩))⟩)
    · simp at h
  | cmd =>
    simp only [State.writeReg] at h
    split at h
    · rcases State.commandWrite_next h with h | h | h
      · exact .inl h
      · exact .inr (.inr (.inl h))
      · exact .inr (.inr (.inr h))
    · simp at h
  | st => left; simpa [State.writeReg] using h.symm
  | woValid => left; simpa [State.writeReg] using h.symm
  | woLen => left; simpa [State.writeReg] using h.symm
  | foValid => left; simpa [State.writeReg] using h.symm
  | foVersion => left; simpa [State.writeReg] using h.symm
  | foKind => left; simpa [State.writeReg] using h.symm
  | foLen => left; simpa [State.writeReg] using h.symm

/-- What a cell write can do. -/
theorem State.poke_next {s t : State} {space : Space} {i : Nat} {b : Byte} (h : s.poke space i b = .next t) :
    t = s
      ∨ (s.st.busy = false ∧ space = .fiPayload ∧ i < 65535
        ∧ t = { s with fi := { s.fi with payload := Memory.write s.fi.payload i b } })
      ∨ (s.st.busy = false ∧ space = .wiBytes ∧ i < Config.wiCap
        ∧ t = { s with wi := { s.wi with bytes := Memory.write s.wi.bytes i b } }) := by
  unfold State.poke at h
  split at h
  next hc =>
    cases space with
    | fiPayload =>
      obtain ⟨hb, rfl⟩ := State.inputWrite_next h
      exact .inr (.inl ⟨hb, rfl, by simpa [Space.hasCell] using hc, rfl⟩)
    | wiBytes =>
      obtain ⟨hb, rfl⟩ := State.inputWrite_next h
      have := (fitsWire_iff (i + 1)).mp (by simpa [Space.hasCell] using hc)
      exact .inr (.inr ⟨hb, rfl, by omega, rfl⟩)
    | woBytes => left; simpa using h.symm
    | foPayload => left; simpa using h.symm
  · simp at h

theorem State.answer_next {s t : State} {v : Option Nat} (h : s.answer v = .next t) :
    ∃ n, v = some n ∧ t = s.returns n := by
  cases v with
  | none => simp [State.answer] at h
  | some n => exact ⟨n, rfl, by simpa [State.answer] using h.symm⟩

theorem State.outputRead_next {s t : State} {c : Command} {v : Option Nat} (h : s.outputRead c v = .next t) :
    ∃ n, v = some n ∧ t = s.returns n := by
  unfold State.outputRead at h
  split at h
  · simp at h
  · exact State.answer_next h

/-- What a register read can do: the host's readings, and nothing of the block. -/
theorem State.readReg_next {s t : State} {r : Reg} (h : s.readReg r = .next t) :
    t = { s with reads := t.reads, draws := t.draws } := by
  cases r with
  | cmd => simp [State.readReg] at h
  | st =>
    simp only [State.readReg, Host.Outcome.next.injEq] at h
    subst h
    unfold State.readStatus
    split <;> rfl
  | fiVersion => obtain ⟨n, _, rfl⟩ := State.answer_next (v := some s.fi.version.toNat) h; rfl
  | fiKind => obtain ⟨n, _, rfl⟩ := State.answer_next (v := some s.fi.kind.toNat) h; rfl
  | fiLen => obtain ⟨n, _, rfl⟩ := State.answer_next (v := some s.fi.len) h; rfl
  | wiLen => obtain ⟨n, _, rfl⟩ := State.answer_next (v := some s.wi.len) h; rfl
  | woValid => obtain ⟨n, _, rfl⟩ := State.outputRead_next h; rfl
  | woLen => obtain ⟨n, _, rfl⟩ := State.outputRead_next h; rfl
  | foValid => obtain ⟨n, _, rfl⟩ := State.outputRead_next h; rfl
  | foVersion => obtain ⟨n, _, rfl⟩ := State.outputRead_next h; rfl
  | foKind => obtain ⟨n, _, rfl⟩ := State.outputRead_next h; rfl
  | foLen => obtain ⟨n, _, rfl⟩ := State.outputRead_next h; rfl

/-- What a cell read can do. -/
theorem State.peek_next {s t : State} {space : Space} {i : Nat} (h : s.peek space i = .next t) :
    ∃ n, t = s.returns n := by
  unfold State.peek at h
  split at h
  · cases space with
    | fiPayload => obtain ⟨n, _, rfl⟩ := State.answer_next h; exact ⟨n, rfl⟩
    | wiBytes => obtain ⟨n, _, rfl⟩ := State.answer_next h; exact ⟨n, rfl⟩
    | woBytes => obtain ⟨n, _, rfl⟩ := State.outputRead_next h; exact ⟨n, rfl⟩
    | foPayload => obtain ⟨n, _, rfl⟩ := State.outputRead_next h; exact ⟨n, rfl⟩
  · simp at h

/-- A word at a port that answers a next state is an instruction that does, and a control word only while no command
runs. -/
theorem State.runWord_next {s t : State} {w : PortWord} (h : s.runWord w = .next t) :
    ∃ i, decode w = .ok i ∧ exec i s = .next t ∧ (i.isControlWord = true → s.st.busy = false) := by
  unfold State.runWord at h
  split at h
  · simp at h
  next i hi =>
    split at h
    · simp at h
    next hc => exact ⟨i, hi, h, by simpa using hc⟩

end Sys2Proof.Machine
end

