-- ==== Sys2Proof/Laws/PerInstr.lean ====
section
/-! SUPPORT. Per instruction: its encoding is the word its row of spec/opcode_table.json gives it. -/

namespace Sys2Proof.Laws.TableRow

/-- The row's `match` in spec/opcode_table.json; the row of the data format has none. -/
def rowMatch : Instr → Nat
  | .nop => 0x0
  | .encode => 0x1
  | .decode => 0x2
  | .rsvd3 => 0x3
  | .crcHold _ => 0x000
  | .crcBit _ => 0x100
  | .crcByte _ => 0x200
  | .crcInit _ => 0x300
  | .wireframe _ _ _ _ => 0

/-- The word an instruction is encoded to, under its row's `mask`, is the row's `match`; a Wire Frame has the row's
`length + 8` bytes with the payload's length in the header's lower half. -/
def Statement (i : Instr) : Prop :=
  i.wellFormed = true →
    match encode i with
    | .command c => (c &&& 0x3#2).toNat = rowMatch i
    | .control cw => (cw &&& 0x300#10).toNat = rowMatch i
    | .wire bytes =>
      bytes.length = Machine.wordOf2 (bytes.getD 2 0#8) (bytes.getD 3 0#8) + 8

theorem control_masked (op : BitVec 2) (din : Byte) :
    ((op ++ din : BitVec 10) &&& 0x300#10).toNat = op.toNat * 256 := by
  have key : ∀ (op : BitVec 2) (din : Byte), ((op ++ din : BitVec 10) &&& 0x300#10).toNat = op.toNat * 256 := by
    decide +kernel
  exact key op din

theorem nop : Statement .nop := fun _ => rfl

theorem encode : Statement .encode := fun _ => rfl

theorem decode : Statement .decode := fun _ => rfl

theorem rsvd3 : Statement .rsvd3 := fun _ => rfl

theorem crcHold (din : Byte) : Statement (.crcHold din) := fun _ => control_masked _ din

theorem crcBit (din : Byte) : Statement (.crcBit din) := fun _ => control_masked _ din

theorem crcByte (din : Byte) : Statement (.crcByte din) := fun _ => control_masked _ din

theorem crcInit (din : Byte) : Statement (.crcInit din) := fun _ => control_masked _ din

theorem wireframe (version kind : Byte) (payload : List Byte) (checksum : Sum) :
    Statement (.wireframe version kind payload checksum) := by
  intro h
  have hp : payload.length ≤ 65535 := by simpa [Instr.wellFormed] using h
  have hn := Machine.wordOf2_be16 (BitVec.ofNat 16 payload.length)
  rw [BitVec.toNat_ofNat, Nat.mod_eq_of_lt (by omega)] at hn
  show (Machine.wireBytes version kind payload checksum).length = _
  rw [Machine.wireBytes_length]
  show _ = Machine.wordOf2 _ _ + 8
  rw [show (Machine.wireBytes version kind payload checksum).getD 2 0#8
      = (BitVec.ofNat 16 payload.length).extractLsb' 8 8 from rfl,
    show (Machine.wireBytes version kind payload checksum).getD 3 0#8
      = (BitVec.ofNat 16 payload.length).extractLsb' 0 8 from rfl, hn]

end Sys2Proof.Laws.TableRow
end

