-- ==== Sys2Proof/Laws/Sequencer.lean ====
section
/-! SUPPORT. What one step of the sequencer does in each phase. -/

namespace Sys2Proof.Machine

theorem State.advance_of_idle {s : State} (h : s.phase = .idle) : s.advance = s := by
  simp [State.advance, h]

/-- `PTR + 1` does not wrap below 131071 (R30). -/
theorem ptr_succ_toNat {p : Ptr} (h : p.toNat < 131071) : (p + 1#17).toNat = p.toNat + 1 := by
  rw [BitVec.toNat_add]
  simp
  omega

theorem Output.pass_building {α : Type} (m : Memory) (i : Nat) (b : Byte) :
    (Output.building m : Output α).pass i b = .building (Memory.write m i b) := rfl

/-- Passing the next byte of a row. -/
theorem Output.pass_row {α : Type} (l : List Byte) (b : Byte) :
    (Output.building (Memory.ofBytes 0 l) : Output α).pass l.length b = .building (Memory.ofBytes 0 (l ++ [b])) := by
  rw [Output.pass_building]
  congr 1
  simpa using Memory.write_ofBytes l 0 b

/-- A header byte of an `ENCODE` is the frame byte at the same offset. -/
theorem State.frameBytes_getElem?_header {s : State} (h : s.frameLength = s.len16) {j : Nat} (hj : j < 4) :
    s.frameBytes[j]? = some (s.headerByte j) := by
  rw [State.frameBytes, List.getElem?_append_left (by simpa using hj), h, State.headerByte, List.getD_eq_getElem?_getD]
  rw [List.getElem?_eq_getElem (by simpa using hj)]
  rfl

/-- A payload byte of an `ENCODE` is the frame byte four further on. -/
theorem State.frameBytes_getElem?_payload (s : State) {i : Nat} (hi : i < s.frameLength.toNat) :
    s.frameBytes[4 + i]? = some (s.payloadByte i) := by
  rw [State.frameBytes, List.getElem?_append_right (by simp), State.payloadIn_getElem?]
  simp [hi]

theorem State.stepECheck_of_oversized {s : State} (h : 65535 < s.fi.len) :
    s.stepECheck = s.raise .encode .oversizedPayload := by
  simp [State.stepECheck, h]

theorem State.stepECheck_of_fits {s : State} (h : s.fi.len ≤ 65535) :
    s.stepECheck
      = { s with len16 := s.frameLength, ptr := 0#17, crc := crcInitValue, wo := .building [], phase := .eHdr } := by
  rw [State.stepECheck, oversized_eq, if_neg (by simpa using h)]

theorem State.enterDSum_of_short {s : State} (h : s.wi.len - 4 - s.len16.toNat < 4) :
    s.enterDSum = s.raise .decode .truncatedChecksum := by
  simp [State.enterDSum, h]

theorem State.enterDSum_of_enough {s : State} (h : 4 ≤ s.wi.len - 4 - s.len16.toNat) :
    s.enterDSum = { s with phase := .dSum } := by
  simp [State.enterDSum, Nat.not_lt.mpr h]

theorem State.enterDPay_of_short {s : State} (h : s.wi.len - 4 < s.len16.toNat) :
    s.enterDPay = s.raise .decode .truncatedPayload := by
  simp [State.enterDPay, h]

theorem State.enterDPay_of_enough {s : State} (h : s.len16.toNat ≤ s.wi.len - 4) :
    s.enterDPay = if s.len16 = 0#16 then s.enterDSum else { s with phase := .dPay } := by
  simp [State.enterDPay, Nat.not_lt.mpr h]

end Sys2Proof.Machine
end

