-- ==== Sys2Proof/Tests/Slice0.lean ====
section
/-! SUPPORT. Tests. Expected results come from the spec: the vectors of 95_test_vectors.md and the encoding tables of
30_encoding.md. Then one witness for the hypotheses of each statement that has some, at boundary values. -/

namespace Sys2Proof.Tests

open Sys2Proof.Machine

/-! ### Helpers -/

def after (o : Host.Outcome State Fault Refusal) : Option State :=
  match o with
  | .next t => some t
  | .fault _ => none
  | .refused _ => none

def faultOf (o : Host.Outcome State Fault Refusal) : Option Fault :=
  match o with
  | .next _ => none
  | .fault r => some r
  | .refused _ => none

def refusalOf (o : Host.Outcome State Fault Refusal) : Option Refusal :=
  match o with
  | .next _ => none
  | .fault _ => none
  | .refused r => some r

/-- The payload "Hello" in ASCII. -/
def hello : List Byte := [0x48#8, 0x65#8, 0x6C#8, 0x6C#8, 0x6F#8]

/-- The valid encoding of example 3 (95_test_vectors.md section 1.1). -/
def helloFrame : List Byte :=
  [0x01#8, 0x01#8, 0x00#8, 0x05#8, 0x48#8, 0x65#8, 0x6C#8, 0x6C#8, 0x6F#8, 0x5C#8, 0xE6#8, 0xEF#8, 0x5F#8]

/-- An idle block with a Frame in `FI`. -/
def withFrame (version kind : Byte) (payload : List Byte) : State :=
  { State.reset with
    fi := { version := version, kind := kind, len := payload.length, payload := Memory.ofBytes 0 payload } }

/-- An idle block with an input in `WI`. -/
def withInput (bytes : List Byte) : State :=
  { State.reset with wi := { len := bytes.length, bytes := Memory.ofBytes 0 bytes } }

/-- A block in which a command runs. -/
def running (phase : Phase) (s : State) : State :=
  { s with st := { s.st with busy := true }, phase := phase }

/-- The code `DECODE` reports for an input. -/
def decodeCode (bytes : List Byte) : Option (BitVec 4) :=
  (after (exec .decode (withInput bytes))).map fun t => t.st.word

/-! ### Well-formedness: the one check, and an ill-formed term it refuses -/

theorem test_wellFormed_accepts_a_frame : (Instr.wireframe 1#8 1#8 hello 0#32).wellFormed = true := by decide

theorem test_wellFormed_refuses_65536_payload_bytes :
    (Instr.wireframe 1#8 1#8 (List.replicate 65536 0#8) 0#32).wellFormed = false := by
  rw [Instr.wellFormed, List.length_replicate]; rfl

theorem test_wellFormed_accepts_65535_payload_bytes :
    (Instr.wireframe 1#8 1#8 (List.replicate 65535 0#8) 0#32).wellFormed = true := by
  rw [Instr.wellFormed, List.length_replicate]; rfl

/-! ### Decoding: words written out bit by bit (R80, R86, R88) -/

theorem test_decode_nop : decode (.command 0b00#2) = .ok .nop := by decide

theorem test_decode_encode : decode (.command 0b01#2) = .ok .encode := by decide

theorem test_decode_decode : decode (.command 0b10#2) = .ok .decode := by decide

theorem test_decode_rsvd3 : decode (.command 0b11#2) = .ok .rsvd3 := by decide

theorem test_decode_crcHold : decode (.control 0b0011111111#10) = .ok (.crcHold 0xFF#8) := by decide

theorem test_decode_crcBit : decode (.control 0b0100000001#10) = .ok (.crcBit 0x01#8) := by decide

theorem test_decode_crcByte : decode (.control 0b1000110001#10) = .ok (.crcByte 0x31#8) := by decide

theorem test_decode_crcInit : decode (.control 0b1100000000#10) = .ok (.crcInit 0x00#8) := by decide

theorem test_decode_wireframe :
    decode (.wire helloFrame) = .ok (.wireframe 0x01#8 0x01#8 hello 0x5CE6EF5F#32) := by decide

theorem test_decode_wire_rejects :
    decode (.wire [1#8, 1#8, 0#8]) = .error .shortHeader
      ∧ decode (.wire [1#8, 1#8, 0#8, 1#8]) = .error .shortPayload
      ∧ decode (.wire [1#8, 1#8, 0#8, 0#8, 0#8, 0#8, 0#8]) = .error .shortChecksum
      ∧ decode (.wire (helloFrame ++ [0#8])) = .error .bytesLeftOver := by decide

theorem test_tableWord_rejects_bits_above_the_port :
    decodeTableWord 8 4 = none ∧ decodeTableWord 16 1024 = none ∧ decodeTableWord 40 0 = none := by decide

/-! ### The CRC unit (95_test_vectors.md sections 2.1 to 2.4) -/

theorem test_crcBit_vectors :
    [(0x00000000#32, false), (0x00000000#32, true), (0x00000001#32, false), (0x00000001#32, true),
      (0xFFFFFFFF#32, false), (0xFFFFFFFF#32, true), (0x80000000#32, false), (0x80000000#32, true),
      (0xEDB88320#32, true), (0x12345678#32, false), (0x12345679#32, false)].map (fun p => crcBit p.1 p.2)
      = [0x00000000#32, 0xEDB88320#32, 0xEDB88320#32, 0x00000000#32, 0x92477CDF#32, 0x7FFFFFFF#32, 0x40000000#32,
        0xADB88320#32, 0x9B64C2B0#32, 0x091A2B3C#32, 0xE4A2A81C#32] := by decide

theorem test_crcByte_vectors :
    [(0x00000000#32, 0x00#8), (0x00000000#32, 0x80#8), (0xFFFFFFFF#32, 0x00#8), (0xFFFFFFFF#32, 0x61#8),
      (0xFFFFFFFF#32, 0x01#8), (0x12345678#32, 0x9A#8), (0xDEADBEEF#32, 0x00#8),
      (0x5AFA20E4#32, 0x01#8)].map (fun p => crcByte p.1 p.2)
      = [0x00000000#32, 0xEDB88320#32, 0x2DFD1072#32, 0x174841BC#32, 0x5AFA20E4#32, 0x4E16B702#32, 0x306B5257#32,
        0xD03AECD7#32] := by decide +kernel

/-- The worked row of section 2.4, by the 32 equations. -/
theorem test_parallel_row : crcByteParallel 0x12345678#32 0x9A#8 = 0x4E16B702#32 := by decide +kernel

/-- R112's example, through `exec`. -/
theorem test_exec_crcBit :
    (after (exec (.crcBit 0x01#8) { State.reset with crc := 0xFFFFFFFF#32 })).map State.crc = some 0x7FFFFFFF#32 := by
  decide

/-- `din[7:1]` is ignored. -/
theorem test_exec_crcBit_ignores_upper_bits :
    (after (exec (.crcBit 0xFE#8) { State.reset with crc := 0x7FFFFFFF#32 })).map State.crc = some 0xD2477CDF#32 := by
  decide

theorem test_exec_crcByte :
    (after (exec (.crcByte 0x31#8) { State.reset with crc := 0xFFFFFFFF#32 })).map State.crc = some 0x7C231048#32 := by
  decide +kernel

theorem test_exec_crcInit :
    (after (exec (.crcInit 0xAA#8) { State.reset with crc := 0x12345678#32 })).map State.crc = some 0xFFFFFFFF#32 := by
  decide

theorem test_exec_crcHold :
    (after (exec (.crcHold 0xAA#8) { State.reset with crc := 0x5AFA20E4#32 })).map State.crc = some 0x5AFA20E4#32 := by
  decide

/-- The residues of R122: not a constant with a big-endian checksum, and GK7's constant with a little-endian one. -/
theorem test_residues :
    crcRegister ([0x31#8, 0x32#8, 0x33#8, 0x34#8, 0x35#8, 0x36#8, 0x37#8, 0x38#8, 0x39#8]
        ++ [0xCB#8, 0xF4#8, 0x39#8, 0x26#8]) = 0xC3368BD3#32
      ∧ crcRegister [0x01#8, 0x01#8, 0x00#8, 0x00#8, 0x98#8, 0x3A#8, 0xD2#8, 0x4E#8] = 0x836249BB#32
      ∧ crcRegister ([0x31#8, 0x32#8, 0x33#8, 0x34#8, 0x35#8, 0x36#8, 0x37#8, 0x38#8, 0x39#8]
        ++ [0x26#8, 0x39#8, 0xF4#8, 0xCB#8]) = 0xDEBB20E3#32 := by decide +kernel

/-- The 256 entries of section 2.3. -/
def printedTable : List Sum :=
  [0x00000000#32, 0x77073096#32, 0xEE0E612C#32, 0x990951BA#32, 0x076DC419#32, 0x706AF48F#32,
    0xE963A535#32, 0x9E6495A3#32, 0x0EDB8832#32, 0x79DCB8A4#32, 0xE0D5E91E#32, 0x97D2D988#32,
    0x09B64C2B#32, 0x7EB17CBD#32, 0xE7B82D07#32, 0x90BF1D91#32, 0x1DB71064#32, 0x6AB020F2#32,
    0xF3B97148#32, 0x84BE41DE#32, 0x1ADAD47D#32, 0x6DDDE4EB#32, 0xF4D4B551#32, 0x83D385C7#32,
    0x136C9856#32, 0x646BA8C0#32, 0xFD62F97A#32, 0x8A65C9EC#32, 0x14015C4F#32, 0x63066CD9#32,
    0xFA0F3D63#32, 0x8D080DF5#32]
  ++ [0x3B6E20C8#32, 0x4C69105E#32, 0xD56041E4#32, 0xA2677172#32, 0x3C03E4D1#32, 0x4B04D447#32,
    0xD20D85FD#32, 0xA50AB56B#32, 0x35B5A8FA#32, 0x42B2986C#32, 0xDBBBC9D6#32, 0xACBCF940#32,
    0x32D86CE3#32, 0x45DF5C75#32, 0xDCD60DCF#32, 0xABD13D59#32, 0x26D930AC#32, 0x51DE003A#32,
    0xC8D75180#32, 0xBFD06116#32, 0x21B4F4B5#32, 0x56B3C423#32, 0xCFBA9599#32, 0xB8BDA50F#32,
    0x2802B89E#32, 0x5F058808#32, 0xC60CD9B2#32, 0xB10BE924#32, 0x2F6F7C87#32, 0x58684C11#32,
    0xC1611DAB#32, 0xB6662D3D#32]
  ++ [0x76DC4190#32, 0x01DB7106#32, 0x98D220BC#32, 0xEFD5102A#32, 0x71B18589#32, 0x06B6B51F#32,
    0x9FBFE4A5#32, 0xE8B8D433#32, 0x7807C9A2#32, 0x0F00F934#32, 0x9609A88E#32, 0xE10E9818#32,
    0x7F6A0DBB#32, 0x086D3D2D#32, 0x91646C97#32, 0xE6635C01#32, 0x6B6B51F4#32, 0x1C6C6162#32,
    0x856530D8#32, 0xF262004E#32, 0x6C0695ED#32, 0x1B01A57B#32, 0x8208F4C1#32, 0xF50FC457#32,
    0x65B0D9C6#32, 0x12B7E950#32, 0x8BBEB8EA#32, 0xFCB9887C#32, 0x62DD1DDF#32, 0x15DA2D49#32,
    0x8CD37CF3#32, 0xFBD44C65#32]
  ++ [0x4DB26158#32, 0x3AB551CE#32, 0xA3BC0074#32, 0xD4BB30E2#32, 0x4ADFA541#32, 0x3DD895D7#32,
    0xA4D1C46D#32, 0xD3D6F4FB#32, 0x4369E96A#32, 0x346ED9FC#32, 0xAD678846#32, 0xDA60B8D0#32,
    0x44042D73#32, 0x33031DE5#32, 0xAA0A4C5F#32, 0xDD0D7CC9#32, 0x5005713C#32, 0x270241AA#32,
    0xBE0B1010#32, 0xC90C2086#32, 0x5768B525#32, 0x206F85B3#32, 0xB966D409#32, 0xCE61E49F#32,
    0x5EDEF90E#32, 0x29D9C998#32, 0xB0D09822#32, 0xC7D7A8B4#32, 0x59B33D17#32, 0x2EB40D81#32,
    0xB7BD5C3B#32, 0xC0BA6CAD#32]
  ++ [0xEDB88320#32, 0x9ABFB3B6#32, 0x03B6E20C#32, 0x74B1D29A#32, 0xEAD54739#32, 0x9DD277AF#32,
    0x04DB2615#32, 0x73DC1683#32, 0xE3630B12#32, 0x94643B84#32, 0x0D6D6A3E#32, 0x7A6A5AA8#32,
    0xE40ECF0B#32, 0x9309FF9D#32, 0x0A00AE27#32, 0x7D079EB1#32, 0xF00F9344#32, 0x8708A3D2#32,
    0x1E01F268#32, 0x6906C2FE#32, 0xF762575D#32, 0x806567CB#32, 0x196C3671#32, 0x6E6B06E7#32,
    0xFED41B76#32, 0x89D32BE0#32, 0x10DA7A5A#32, 0x67DD4ACC#32, 0xF9B9DF6F#32, 0x8EBEEFF9#32,
    0x17B7BE43#32, 0x60B08ED5#32]
  ++ [0xD6D6A3E8#32, 0xA1D1937E#32, 0x38D8C2C4#32, 0x4FDFF252#32, 0xD1BB67F1#32, 0xA6BC5767#32,
    0x3FB506DD#32, 0x48B2364B#32, 0xD80D2BDA#32, 0xAF0A1B4C#32, 0x36034AF6#32, 0x41047A60#32,
    0xDF60EFC3#32, 0xA867DF55#32, 0x316E8EEF#32, 0x4669BE79#32, 0xCB61B38C#32, 0xBC66831A#32,
    0x256FD2A0#32, 0x5268E236#32, 0xCC0C7795#32, 0xBB0B4703#32, 0x220216B9#32, 0x5505262F#32,
    0xC5BA3BBE#32, 0xB2BD0B28#32, 0x2BB45A92#32, 0x5CB36A04#32, 0xC2D7FFA7#32, 0xB5D0CF31#32,
    0x2CD99E8B#32, 0x5BDEAE1D#32]
  ++ [0x9B64C2B0#32, 0xEC63F226#32, 0x756AA39C#32, 0x026D930A#32, 0x9C0906A9#32, 0xEB0E363F#32,
    0x72076785#32, 0x05005713#32, 0x95BF4A82#32, 0xE2B87A14#32, 0x7BB12BAE#32, 0x0CB61B38#32,
    0x92D28E9B#32, 0xE5D5BE0D#32, 0x7CDCEFB7#32, 0x0BDBDF21#32, 0x86D3D2D4#32, 0xF1D4E242#32,
    0x68DDB3F8#32, 0x1FDA836E#32, 0x81BE16CD#32, 0xF6B9265B#32, 0x6FB077E1#32, 0x18B74777#32,
    0x88085AE6#32, 0xFF0F6A70#32, 0x66063BCA#32, 0x11010B5C#32, 0x8F659EFF#32, 0xF862AE69#32,
    0x616BFFD3#32, 0x166CCF45#32]
  ++ [0xA00AE278#32, 0xD70DD2EE#32, 0x4E048354#32, 0x3903B3C2#32, 0xA7672661#32, 0xD06016F7#32,
    0x4969474D#32, 0x3E6E77DB#32, 0xAED16A4A#32, 0xD9D65ADC#32, 0x40DF0B66#32, 0x37D83BF0#32,
    0xA9BCAE53#32, 0xDEBB9EC5#32, 0x47B2CF7F#32, 0x30B5FFE9#32, 0xBDBDF21C#32, 0xCABAC28A#32,
    0x53B39330#32, 0x24B4A3A6#32, 0xBAD03605#32, 0xCDD70693#32, 0x54DE5729#32, 0x23D967BF#32,
    0xB3667A2E#32, 0xC4614AB8#32, 0x5D681B02#32, 0x2A6F2B94#32, 0xB40BBE37#32, 0xC30C8EA1#32,
    0x5A05DF1B#32, 0x2D02EF8D#32]

theorem test_crcTable_is_the_printed_table :
    (List.range 256).map (fun m => crcTable (BitVec.ofNat 8 m)) = printedTable := by decide +kernel

/-! ### ENCODE (95_test_vectors.md section 2.5) -/

theorem test_encode_hello :
    (after (exec .encode (withFrame 1#8 1#8 hello))).map (fun t => (t.wo, t.st.word))
      = some (.valid { len := 13#17, bytes := Memory.ofBytes 0 helloFrame }, 0b0000#4) := by decide +kernel

theorem test_encode_oversized :
    (after (exec .encode { withFrame 1#8 1#8 hello with fi := { version := 1#8, kind := 1#8, len := 65536, payload := [] }
                                                        wo := .valid { len := 8#17, bytes := [] } })).map
        (fun t => (t.wo, t.st.word))
      = some (.absent, 0b0001#4) := by decide +kernel

/-! ### DECODE (95_test_vectors.md section 2.6) -/

theorem test_decode_hello :
    (after (exec .decode (withInput (helloFrame ++ [0xDE#8, 0xAD#8])))).map (fun t => (t.fo, t.st.word))
      = some (.valid { version := 1#8, kind := 1#8, len := 5#16, payload := Memory.ofBytes 0 hello }, 0b0000#4) := by
  decide +kernel

/-- Every truncation of one frame (section 2.6.2), and example 3's zeroed checksum. -/
theorem test_decode_truncations :
    (List.range 14).map (fun n => decodeCode (helloFrame.take n))
        = [2#4, 2#4, 2#4, 2#4, 3#4, 3#4, 3#4, 3#4, 3#4, 4#4, 4#4, 4#4, 4#4, 0#4].map some
      ∧ decodeCode (helloFrame.take 9 ++ [0#8, 0#8, 0#8, 0#8]) = some 5#4 := by decide +kernel

/-! ### NOP, RSVD3, WIREFRAME -/

/-- Section 2.7, first two rows: code 5 stays. -/
theorem test_nop_keeps_the_code :
    (after (exec .nop { State.reset with st := { busy := false, code := .err .checksumMismatch } })).map
      (fun t => t.st.word) = some 0b0101#4 := by decide

theorem test_rsvd3_keeps_the_code :
    (after (exec .rsvd3 { State.reset with st := { busy := false, code := .err .checksumMismatch } })).map
      (fun t => t.st.word) = some 0b0101#4 := by decide

theorem test_wireframe_lands_in_WI :
    (after (exec (.wireframe 1#8 1#8 hello 0x5CE6EF5F#32) State.reset)).map (fun t => t.wi)
      = some { len := 13, bytes := Memory.ofBytes 0 helloFrame } := by decide +kernel

theorem test_wireframe_while_busy :
    refusalOf (exec (.wireframe 1#8 1#8 hello 0#32) (running .ePay State.reset)) = some .inputWriteWhileBusy := by
  decide +kernel

/-! ### The sequencer and the host -/

/-- R190's example: `ENCODE` begins. -/
theorem test_raw_command_starts_encode :
    (after (step { withFrame 1#8 1#8 hello with pending := [.wr .cmd 1] })).map (fun t => (t.st.busy, t.phase))
      = some (true, .eCheck) := by decide +kernel

/-- The first header byte on its way (R151): `WO.bytes[0]`, `PTR`, and the register of section 2.2's trace. -/
theorem test_sequencer_first_header_byte :
    (after (step (running .eHdr { withFrame 1#8 1#8 hello with
        ptr := 0#17, len16 := 5#16, crc := 0xFFFFFFFF#32, wo := .building [] }))).map
        (fun t => (t.wo, t.ptr, t.crc, t.phase))
      = some (.building [(0, 1#8)], 1#17, 0x5AFA20E4#32, .eHdr) := by decide +kernel

/-- Section 2.7, last row: a command written while busy is ignored. -/
theorem test_command_while_busy_is_ignored :
    (after (step { running .ePay State.reset with pending := [.wr .cmd 2] })).map (fun t => (t.phase, t.pending))
      = some (.ePay, []) := by decide +kernel

/-- Section 2.8, second row: `RESET` while `ENCODE` runs. -/
theorem test_reset_abandons_a_command :
    (after (step { running .eSum State.reset with wo := .building [(0, 1#8)], pending := [.reset] })).map
        (fun t => (t.st.word, t.wo, t.fo, t.phase))
      = some (0b0000#4, .absent, .absent, .idle) := by decide +kernel

/-- R195's example: after the `DECODE` of a 3-byte input a read of `ST` returns `0b0010`. -/
theorem test_status_read :
    (after (step { State.reset with st := { busy := false, code := .err .truncatedHeader }, pending := [.rd .st] })).map
      (fun t => t.reads) = some [2] := by decide

/-- U1 and U11: what has no value faults. -/
theorem test_reads_without_value_fault :
    faultOf (step { State.reset with pending := [.rd .woLen] }) = some .noValue
      ∧ faultOf (step { State.reset with pending := [.peek .foPayload 0] }) = some .noValue
      ∧ faultOf (step { State.reset with pending := [.rd .cmd] }) = some .cmdHasNoReadPath
      ∧ faultOf (step { State.reset with pending := [.poke .fiPayload 65535 0#8] }) = some .noSuchCell := by
  decide

/-- A word of a table row runs as the first instruction after reset. -/
theorem test_fetched_words_run :
    (after (step (State.reset.withFetchWord 8 1))).map (fun t => t.wo)
        = some (.valid { len := 8#17, bytes := Memory.ofBytes 0 [0#8, 0#8, 0#8, 0#8, 0x21#8, 0x44#8, 0xDF#8, 0x1C#8] })
      ∧ (after (step (State.reset.withFetchWord 16 0x300))).map (fun t => t.crc) = some 0xFFFFFFFF#32
      ∧ (after (step (State.reset.withFetchWord 32 0x01020003))).map (fun t => t.wi.len) = some 11 := by
  decide +kernel

/-- `SETFRAME` expands as R92 says. -/
theorem test_setFrame_line :
    setFrameLine 7#8 9#8 [0x31#8, 0x32#8]
      = [.wr .fiVersion 7, .wr .fiKind 9, .wr .fiLen 2, .poke .fiPayload 0 0x31#8, .poke .fiPayload 1 0x32#8] := by
  decide

/-- `COPY WI, WO` expands as R92 says, and needs `WO.valid = 1`. -/
theorem test_copy_line :
    State.copyLine State.reset = none
      ∧ State.copyLine { State.reset with wo := .valid { len := 2#17, bytes := [(0, 5#8), (1, 6#8)] } }
        = some [.wr .wiLen 2, .poke .wiBytes 0 5#8, .poke .wiBytes 1 6#8] := by decide

/-! ### Witnesses: for each statement with hypotheses, states and operands that meet them -/

theorem small_fits {n : Nat} (h : n ≤ 65543) : n ≤ Config.wiCap :=
  le_trans h wiCap_bounds.1

theorem witness_DecodingInvertsEncoding :
    (Instr.crcByte 0xFF#8).wellFormed = true ∧ (Instr.wireframe 0xFF#8 0#8 [0#8] 0xFFFFFFFF#32).wellFormed = true := by
  decide

theorem witness_EncodingInvertsDecoding :
    decode (.control 0x3FF#10) = .ok (.crcInit 0xFF#8) ∧ decode (.wire helloFrame) = .ok (.wireframe 1#8 1#8 hello 0x5CE6EF5F#32) := by
  decide

theorem witness_ControlWordsChangeOnlyCrc : (Instr.crcBit 0xFF#8).isControlWord = true := by decide

theorem witness_SingleBitErrorChangesCrc32 : 7 < 8 ∧ (0x48#8 ^^^ (1#8 <<< 7)) ≠ 0x48#8 := by decide

/-- The largest payload that fits and the smallest that does not. -/
theorem witness_EncodeWritesTheWireFrame :
    ∃ s : State, s.st.busy = false ∧ s.fi.len ≤ 65535 ∧ s.fi.len = 65535 :=
  ⟨{ State.reset with fi := { version := 1#8, kind := 1#8, len := 65535, payload := [] } }, rfl, by decide, rfl⟩

theorem witness_OversizedPayloadIsRejected :
    ∃ s : State, s.st.busy = false ∧ 65535 < s.fi.len ∧ s.fi.len = 65536 :=
  ⟨{ State.reset with fi := { version := 1#8, kind := 1#8, len := 65536, payload := [] } }, rfl, by decide, rfl⟩

theorem witness_EncodeFrame : ∃ t, exec .encode (withFrame 1#8 1#8 hello) = .next t :=
  ⟨_, rfl⟩

theorem witness_EncodeFrame_valid :
    (after (exec .encode (withFrame 1#8 1#8 hello))).map (fun t => t.wo.isValid) = some true := by decide +kernel

theorem witness_EncodeDeliversExactlyAValidFrame :
    (withFrame 1#8 1#8 []).st.busy = false ∧ (withFrame 1#8 1#8 []).fi.len ≤ 65535 := by decide

/-- Two states that agree on the Frame and on the input and on little else. -/
theorem witness_ResultsDependOnInputsAlone :
    ∃ s t : State, s ≠ t ∧ s.st.busy = false ∧ t.st.busy = false
      ∧ s.fi.version = t.fi.version ∧ s.fi.kind = t.fi.kind ∧ s.fi.len = t.fi.len
      ∧ (∀ i, i < s.fi.len → s.payloadByte i = t.payloadByte i)
      ∧ s.wi.len ≤ Config.wiCap ∧ s.wi.len = t.wi.len ∧ ∀ i, i < s.wi.len → s.wireByte i = t.wireByte i :=
  ⟨withFrame 1#8 1#8 hello, { withFrame 1#8 1#8 hello with crc := 5#32, reads := [3] }, by decide, rfl, rfl, rfl, rfl,
    rfl, fun _ _ => rfl, small_fits (by decide), rfl, fun _ _ => rfl⟩

theorem witness_TruncatedHeaderIsReported :
    ∃ s : State, s.st.busy = false ∧ s.wi.len ≤ Config.wiCap ∧ s.wi.len < 4 ∧ s.wi.len = 3 :=
  ⟨withInput [1#8, 1#8, 0#8], rfl, small_fits (by decide), by decide, rfl⟩

/-- Header present, length 1, no payload byte: section 2.6.1. -/
theorem witness_TruncatedPayloadIsReported :
    ∃ s : State, s.st.busy = false ∧ s.wi.len ≤ Config.wiCap ∧ 4 ≤ s.wi.len ∧ s.wi.len - 4 < s.lengthField :=
  ⟨withInput [1#8, 1#8, 0#8, 1#8], rfl, small_fits (by decide), by decide, by decide⟩

/-- Header only, length 0, and three checksum bytes: both ends of the range. -/
theorem witness_TruncatedChecksumIsReported :
    (∃ s : State, s.st.busy = false ∧ s.wi.len ≤ Config.wiCap ∧ 4 ≤ s.wi.len ∧ s.lengthField ≤ s.wi.len - 4
        ∧ s.wi.len - 4 - s.lengthField < 4 ∧ s.wi.len = 4)
      ∧ ∃ s : State, s.st.busy = false ∧ s.wi.len ≤ Config.wiCap ∧ 4 ≤ s.wi.len ∧ s.lengthField ≤ s.wi.len - 4
        ∧ s.wi.len - 4 - s.lengthField < 4 ∧ s.wi.len = 7 :=
  ⟨⟨withInput [1#8, 1#8, 0#8, 0#8], rfl, small_fits (by decide), by decide, by decide, by decide, rfl⟩,
    ⟨withInput [1#8, 1#8, 0#8, 0#8, 0x98#8, 0x3A#8, 0xD2#8], rfl, small_fits (by decide), by decide, by decide,
      by decide, rfl⟩⟩

/-- Checksum off by one bit: section 2.6.1. -/
theorem witness_ChecksumMismatchIsReported :
    ∃ s : State, s.st.busy = false ∧ s.wi.len ≤ Config.wiCap ∧ 8 + s.lengthField ≤ s.wi.len
      ∧ s.checksumField s.lengthField ≠ (crc32 (s.wireIn 0 (4 + s.lengthField))).toNat :=
  ⟨withInput [1#8, 1#8, 0#8, 0#8, 0x98#8, 0x3A#8, 0xD2#8, 0x4F#8], rfl, small_fits (by decide), by decide,
    by decide +kernel⟩

theorem witness_DecodeDeliversTheFrame :
    ∃ s : State, s.st.busy = false ∧ s.wi.len ≤ Config.wiCap ∧ 8 + s.lengthField ≤ s.wi.len
      ∧ s.checksumField s.lengthField = (crc32 (s.wireIn 0 (4 + s.lengthField))).toNat :=
  ⟨withInput helloFrame, rfl, small_fits (by decide), by decide, by decide +kernel⟩

theorem witness_DecodeSucceedsExactlyOnValidFrames :
    (withInput helloFrame).st.busy = false ∧ (withInput helloFrame).wi.len ≤ Config.wiCap :=
  ⟨rfl, small_fits (by decide)⟩

theorem witness_DecodeFrame :
    (after (exec .decode (withInput helloFrame))).map (fun t => t.fo.isValid) = some true := by decide +kernel

/-- The exact frame, and the frame with two bytes behind it. -/
theorem witness_TrailingBytesAreIgnored :
    ∃ s t : State, s.st.busy = false ∧ t.st.busy = false ∧ s.wi.len ≤ Config.wiCap ∧ t.wi.len ≤ Config.wiCap
      ∧ 8 + s.lengthField ≤ s.wi.len ∧ 8 + s.lengthField ≤ t.wi.len ∧ s.wi.len ≠ t.wi.len
      ∧ ∀ i, i < 8 + s.lengthField → s.wireByte i = t.wireByte i := by
  refine ⟨withInput helloFrame, withInput (helloFrame ++ [0xDE#8, 0xAD#8]), rfl, rfl, small_fits (by decide),
    small_fits (by decide), by decide, by decide, by decide, ?_⟩
  decide

theorem witness_InputBeyondCapacityIsRefused :
    ∃ s : State, s.st.busy = false ∧ Config.wiCap < s.wi.len ∧ s.pending = [.wr .cmd 2] :=
  ⟨{ State.reset with wi := { len := Config.wiCap + 1, bytes := [] }, pending := [.wr .cmd 2] }, rfl,
    Nat.lt_succ_self _, rfl⟩

/-- The encoded "Hello" carried to `WI`. -/
theorem witness_DecodeInvertsEncode :
    ∃ s t u : State, s.st.busy = false ∧ s.fi.len ≤ 65535 ∧ exec .encode s = .next t
      ∧ u.st.busy = false ∧ s.fi.len + 8 ≤ u.wi.len ∧ u.wi.len ≤ Config.wiCap
      ∧ ∀ i, i < s.fi.len + 8 → u.cell .wiBytes i = t.cell .woBytes i := by
  refine ⟨withFrame 1#8 1#8 hello, (withFrame 1#8 1#8 hello).marshal, withInput helloFrame, rfl, by decide, rfl, rfl,
    by decide, small_fits (by decide), ?_⟩
  decide +kernel

/-- Bit 0 of byte 4 of example 3's frame, "H" to "I" (program P2). -/
theorem witness_FlippedBitIsDetected :
    ∃ (s t : State) (i k : Nat), s.st.busy = false ∧ t.st.busy = false ∧ s.wi.len ≤ Config.wiCap
      ∧ t.wi.len = s.wi.len ∧ 8 + s.lengthField ≤ s.wi.len
      ∧ s.checksumField s.lengthField = (crc32 (s.wireIn 0 (4 + s.lengthField))).toNat
      ∧ i < 8 + s.lengthField ∧ i ≠ 2 ∧ i ≠ 3 ∧ k < 8
      ∧ t.wireByte i = s.wireByte i ^^^ (1#8 <<< k) ∧ ∀ j, j ≠ i → t.wireByte j = s.wireByte j := by
  refine ⟨withInput helloFrame, { withInput helloFrame with wi :=
    { len := 13, bytes := Memory.write (Memory.ofBytes 0 helloFrame) 4 0x49#8 } }, 4, 0, rfl, rfl,
    small_fits (by decide), rfl, by decide, by decide +kernel, by decide, by decide, by decide, by decide, by decide, ?_⟩
  intro j hj
  simp only [State.wireByte, Memory.read_write, if_neg hj]
  rfl

theorem witness_WireFrameIsPresentedAtWI :
    State.reset.st.busy = false ∧ ([] : List Byte).length ≤ 65535 ∧ (List.replicate 65535 0#8).length ≤ 65535 :=
  ⟨rfl, by decide, by rw [List.length_replicate]⟩

theorem witness_PresentedFrameDecodesWhenItsChecksumIsRight :
    State.reset.st.busy = false ∧ hello.length ≤ 65535
      ∧ 0x5CE6EF5F#32 = crc32 (headerBytes 1#8 1#8 (BitVec.ofNat 16 hello.length) ++ hello)
      ∧ 0#32 ≠ crc32 (headerBytes 1#8 1#8 (BitVec.ofNat 16 hello.length) ++ hello) := by decide +kernel

theorem witness_CommandsAreIgnoredWhileBusy :
    ∃ s : State, s.st.busy = true ∧ 3 < 4 ∧ s.pending = [.wr .cmd 3] :=
  ⟨{ running .dPay State.reset with pending := [.wr .cmd 3] }, rfl, by decide, rfl⟩

theorem witness_CommandWriteStartsTheCommand :
    ∃ s : State, s.st.busy = false ∧ s.pending = [.wr .cmd 2] ∧ s.wi.len ≤ Config.wiCap :=
  ⟨{ withInput helloFrame with pending := [.wr .cmd 2] }, rfl, rfl, small_fits (by decide)⟩

theorem witness_SequencerRefinesEncode :
    (withFrame 1#8 1#8 hello).st.busy = false ∧ (withFrame 1#8 1#8 hello).pending = [] := by decide

theorem witness_SequencerRefinesDecode :
    (withInput helloFrame).st.busy = false ∧ (withInput helloFrame).pending = []
      ∧ (withInput helloFrame).wi.len ≤ Config.wiCap :=
  ⟨rfl, rfl, small_fits (by decide)⟩

/-- An `ENCODE` with two of its header bytes passed meets the invariant. -/
theorem witness_EveryCommandCompletes :
    ∃ s : State, s.Inv ∧ s.pending = [] ∧ s.st.busy = true := by
  refine ⟨running .eHdr { withFrame 1#8 1#8 hello with
    ptr := 2#17, len16 := 5#16, crc := crcRegister [1#8, 1#8], wo := .building [(0, 1#8), (1, 1#8)] }, ?_, rfl, rfl⟩
  have hl := two_pow_lenw_ge
  refine ⟨⟨by decide, by decide, by decide, by decide, by simp [running, withFrame, Output.canonical]; decide, trivial⟩,
    lt_of_lt_of_le (by decide) hl, lt_of_lt_of_le (by decide) hl, by decide, ?_, ?_, ?_⟩
  · intro r h; simp [running] at h
  · intro r h; simp [running, withFrame, State.reset] at h
  · exact ⟨by decide, ⟨by decide, trivial, _, rfl, by unfold Memory.fills; decide, by decide⟩, by decide +kernel⟩

theorem witness_StatusReadReturnsBusyAndCode :
    (∃ s : State, s.pending = [.rd .st] ∧ s.st.busy = false) ∧ ∃ s : State, s.pending = [.rd .st] ∧ s.st.busy = true :=
  ⟨⟨{ State.reset with pending := [.rd .st] }, rfl, rfl⟩, ⟨{ running .dPay State.reset with pending := [.rd .st] }, rfl, rfl⟩⟩

/-- `ENCODE` of a fitting Frame takes code 5 to code 0, and delivers `WO`. -/
theorem witness_StatusCodeChangesOnlyAtCompletion :
    (after (step { State.reset with st := { busy := false, code := .err .checksumMismatch },
                                    pending := [.issue (.command 1#2)] })).map (fun t => (t.st.code, t.wo.isValid))
      = some (.ok, true) := by decide +kernel

theorem witness_OutputRecordsHaveOneWriter :
    (after (step { withInput helloFrame with pending := [.issue (.command 2#2)] })).map (fun t => t.fo.isValid)
      = some true := by decide +kernel

theorem witness_InputsChangeOnlyByTheHost :
    (after (step { State.reset with pending := [.wr .fiKind 255] })).map (fun t => t.fi.kind) = some 255#8 := by decide

/-- One action for each clause, at the boundary of its range. -/
theorem witness_InputWritesWhileBusyAreRefused :
    (∀ a : HostAct, ∃ s : State, s.st.busy = true ∧ s.pending = [a])
      ∧ (∃ v, v < 256 ∧ HostAct.wr .fiKind 255 = .wr .fiKind v)
      ∧ (∃ v, v < 2 ^ Config.lenw ∧ HostAct.wr .wiLen 131071 = .wr .wiLen v)
      ∧ (∃ i b, i < 65535 ∧ HostAct.poke .fiPayload 65534 0#8 = .poke .fiPayload i b)
      ∧ (∃ i b, i < Config.wiCap ∧ HostAct.poke .wiBytes 65542 0#8 = .poke .wiBytes i b)
      ∧ ∃ v k p c, p.length ≤ 65535
          ∧ HostAct.issue (.wire helloFrame) = .issue (encode (.wireframe v k p c)) :=
  ⟨fun a => ⟨{ running .dPay State.reset with pending := [a] }, rfl, rfl⟩, ⟨_, by decide, rfl⟩,
    ⟨_, lt_of_lt_of_le (by decide) two_pow_lenw_ge, rfl⟩, ⟨_, _, by decide, rfl⟩,
    ⟨_, _, lt_of_lt_of_le (by decide) wiCap_bounds.1, rfl⟩, 1#8, 1#8, hello, 0x5CE6EF5F#32, by decide, by decide⟩

theorem witness_HostCannotWriteOutputs :
    ∃ s : State, s.pending = [.wr .foLen 9] ∧ Reg.foLen ∈ [Reg.st, .woValid, .woLen, .foValid, .foVersion, .foKind, .foLen]
      ∧ 65542 < 65543 :=
  ⟨{ State.reset with pending := [.wr .foLen 9] }, rfl, by decide, by decide⟩

theorem witness_WrittenCellsReadBack :
    ∃ s : State, s.st.busy = false ∧ 65534 < 65535
      ∧ s.pending = [.poke .fiPayload 65534 0xAB#8, .peek .fiPayload 65534] :=
  ⟨{ State.reset with pending := [.poke .fiPayload 65534 0xAB#8, .peek .fiPayload 65534] }, rfl, by decide, rfl⟩

theorem witness_WrittenRegistersReadBack :
    ∃ s : State, s.st.busy = false ∧ 131071 < 2 ^ Config.lenw ∧ s.pending = [.wr .fiLen 131071, .rd .fiLen] :=
  ⟨{ State.reset with pending := [.wr .fiLen 131071, .rd .fiLen] }, rfl, lt_of_lt_of_le (by decide) two_pow_lenw_ge,
    rfl⟩

/-- The reset state with something pending meets the invariant. -/
theorem reset_with_pending_inv (l : List HostAct) : ({ State.reset with pending := l } : State).Inv := by
  have hl := two_pow_lenw_ge
  exact ⟨⟨rfl, rfl, rfl, rfl, trivial, trivial⟩, lt_of_lt_of_le (show 0 < 131072 by decide) hl,
    lt_of_lt_of_le (show 0 < 131072 by decide) hl, rfl,
    fun r h => by simp [State.reset] at h, fun r h => by simp [State.reset] at h, ⟨trivial, trivial⟩⟩

/-- Both clauses on an absent record. -/
theorem witness_OutputsWithoutValueCannotBeRead :
    ∃ s : State, s.Inv ∧ s.st.busy = false ∧ s.pending = [.peek .woBytes 65542] ∧ s.wo.isValid = false ∧ 65542 < 65543 :=
  ⟨{ State.reset with pending := [.peek .woBytes 65542] }, reset_with_pending_inv _, rfl, rfl, rfl, by decide⟩

/-- The clause on a cell just behind a valid record. -/
theorem witness_OutputsWithoutValueCannotBeRead_behind :
    ∃ (s : State) (r : FrameOut), s.Inv ∧ s.st.busy = false ∧ s.fo = .valid r ∧ r.len.toNat ≤ 0
      ∧ s.pending = [.peek .foPayload 0] := by
  have hl := two_pow_lenw_ge
  refine ⟨{ State.reset with fo := .valid { version := 1#8, kind := 1#8, len := 0#16, payload := [] },
                             pending := [.peek .foPayload 0] }, _, ?_, rfl, rfl, by decide, rfl⟩
  refine ⟨⟨rfl, rfl, rfl, rfl, trivial, rfl⟩, lt_of_lt_of_le (by decide) hl, lt_of_lt_of_le (by decide) hl, rfl,
    fun r h => by simp [State.reset] at h, ?_, ⟨trivial, trivial⟩⟩
  intro r h
  simp only [Output.valid.injEq] at h
  subst h
  rfl

/-- Clauses on a valid `WO` while `DECODE` runs, and on the running command's own record. -/
theorem witness_DeliveredOutputsCanBeRead :
    (∃ (s : State) (r : WireOut), s.wo = .valid r ∧ s.phase.command ≠ some .encode ∧ Memory.read r.bytes 0 = some 7#8
        ∧ s.pending = [.peek .woBytes 0])
      ∧ (∃ s : State, s.phase.command = some .encode ∧ s.pending = [.peek .woBytes 65542] ∧ 65542 < 65543)
      ∧ ∃ s : State, s.phase.command = some .decode ∧ s.pending = [.peek .foPayload 65534] ∧ 65534 < 65535 :=
  ⟨⟨{ running .dHdr State.reset with wo := .valid { len := 1#17, bytes := [(0, 7#8)] }, pending := [.peek .woBytes 0] },
      _, rfl, by decide, rfl, rfl⟩,
    ⟨{ running .eSum State.reset with pending := [.peek .woBytes 65542] }, rfl, rfl, by decide⟩,
    ⟨{ running .dCmp State.reset with pending := [.peek .foPayload 65534] }, rfl, rfl, by decide⟩⟩

/-- The clause on a valid `FO`, while `ENCODE` runs. -/
theorem witness_DeliveredOutputsCanBeRead_frame :
    ∃ (s : State) (r : FrameOut), s.fo = .valid r ∧ s.phase.command ≠ some .decode ∧ Memory.read r.payload 0 = some 7#8
      ∧ s.pending = [.peek .foPayload 0] :=
  ⟨{ running .eHdr State.reset with
      fo := .valid { version := 1#8, kind := 2#8, len := 1#16, payload := [(0, 7#8)] },
      pending := [.peek .foPayload 0] }, _, rfl, by decide, rfl, rfl⟩

theorem witness_ResetEventLeavesAnIdleBlock : ∃ s : State, s.pending = [.reset] ∧ s.st.busy = true :=
  ⟨{ running .dSum State.reset with pending := [.reset] }, rfl, rfl⟩

/-- The second clause, where a command completes: the last step of a `DECODE`. -/
theorem witness_ResetEventLeavesAnIdleBlock_completion :
    (after (step (running .dCmp State.reset))).map (fun t => (t.st.busy, t.phase)) = some (false, .idle) := by
  decide +kernel

theorem witness_IdleBlockDoesNothing : State.reset.pending = [] ∧ State.reset.phase = .idle := by decide

/-- A command while busy, and a control word while idle and while busy. -/
theorem witness_StepRunsTheDecodedInstruction :
    (∃ s : State, s.pending = [.issue (.command 1#2)] ∧ decode (.command 1#2) = .ok .encode
        ∧ Instr.encode.isControlWord = false)
      ∧ (∃ s : State, s.pending = [.issue (.control 0x300#10)] ∧ decode (.control 0x300#10) = .ok (.crcInit 0#8)
        ∧ s.st.busy = false)
      ∧ ∃ s : State, s.pending = [.issue (.control 0x300#10)] ∧ (Instr.crcInit 0#8).isControlWord = true
        ∧ s.st.busy = true :=
  ⟨⟨{ State.reset with pending := [.issue (.command 1#2)] }, rfl, by decide, by decide⟩,
    ⟨{ State.reset with pending := [.issue (.control 0x300#10)] }, rfl, by decide, rfl⟩,
    ⟨{ running .ePay State.reset with pending := [.issue (.control 0x300#10)] }, rfl, by decide, rfl⟩⟩

/-- A step from an invariant state that delivers a Wire Frame. -/
theorem witness_EveryStepKeepsTheInvariant :
    ({ State.reset with pending := [.issue (.command 1#2)] } : State).Inv
      ∧ (after (step { State.reset with pending := [.issue (.command 1#2)] })).map (fun t => t.wo.isValid) = some true :=
  ⟨reset_with_pending_inv _, by decide +kernel⟩

theorem witness_EveryStepKeepsMemoriesCanonical :
    ({ State.reset with pending := [.poke .fiPayload 65534 1#8] } : State).Canonical
      ∧ (after (step { State.reset with pending := [.poke .fiPayload 65534 1#8] })).map (fun t => t.fi.payload)
        = some [(65534, 1#8)] :=
  ⟨(reset_with_pending_inv _).canonical, by decide⟩

end Sys2Proof.Tests
end

/-! PROOFS. R33: two states that agree on a command's input get the same result from it. First what each operand form
reads, then what each command delivers of it. -/

namespace Sys2Proof.Machine

/-! ### The Frame in FI -/

theorem State.payloadIn_eq_of_agree {s t : State} {n : Nat}
    (h : ∀ i, i < n → s.payloadByte i = t.payloadByte i) : s.payloadIn n = t.payloadIn n :=
  List.map_congr_left fun i hi => h i (List.mem_range.mp hi)

theorem State.frameLength_eq_of_agree {s t : State} (h : s.fi.len = t.fi.len) : s.frameLength = t.frameLength := by
  simp only [State.frameLength, h]

/-- What the checksum covers is read from the two header registers, the length and the payload below the length. -/
theorem State.frameBytes_eq_of_agree {s t : State} (hv : s.fi.version = t.fi.version) (hk : s.fi.kind = t.fi.kind)
    (hn : s.fi.len = t.fi.len) (hfit : s.fi.len ≤ 65535)
    (hp : ∀ i, i < s.fi.len → s.payloadByte i = t.payloadByte i) : s.frameBytes = t.frameBytes := by
  have hpay : s.payloadIn s.frameLength.toNat = t.payloadIn s.frameLength.toNat := by
    rw [State.frameLength_toNat hfit]; exact State.payloadIn_eq_of_agree hp
  simp only [State.frameBytes, hv, hk, hpay, ← State.frameLength_eq_of_agree hn]

/-- `ENCODE` of the same Frame delivers the same. -/
theorem State.marshal_result_eq_of_agree {s t : State} (hv : s.fi.version = t.fi.version)
    (hk : s.fi.kind = t.fi.kind) (hn : s.fi.len = t.fi.len)
    (hp : ∀ i, i < s.fi.len → s.payloadByte i = t.payloadByte i) :
    s.marshal.wo = t.marshal.wo ∧ s.marshal.st = t.marshal.st := by
  by_cases hbig : 65535 < s.fi.len
  · rw [State.marshal_of_oversized hbig, State.marshal_of_oversized (hn ▸ hbig)]
    simp
  · have hfit : s.fi.len ≤ 65535 := Nat.le_of_not_lt hbig
    rw [State.marshal_of_fits hfit, State.marshal_of_fits (hn ▸ hfit)]
    simp [State.frameLength_eq_of_agree hn, State.frameBytes_eq_of_agree hv hk hn hfit hp]

/-! ### The byte sequence in WI -/

section Wire

variable {s t : State} {n : Nat} (h : ∀ i, i < n → s.wireByte i = t.wireByte i)
include h

theorem State.wireIn_eq_of_agree {a k : Nat} (hk : a + k ≤ n) : s.wireIn a k = t.wireIn a k :=
  List.map_congr_left fun i hi => h (a + i) (by have := List.mem_range.mp hi; omega)

theorem State.wireLength_eq_of_agree (hn : 4 ≤ n) : s.wireLength = t.wireLength := by
  simp only [State.wireLength, h 2 (by omega), h 3 (by omega)]

theorem State.lengthField_eq_of_agree (hn : 4 ≤ n) : s.lengthField = t.lengthField := by
  rw [← State.wireLength_toNat, ← State.wireLength_toNat, State.wireLength_eq_of_agree h hn]

theorem State.wireChecksum_eq_of_agree {k : Nat} (hk : 8 + k ≤ n) : s.wireChecksum k = t.wireChecksum k := by
  simp only [State.wireChecksum, h (4 + k) (by omega), h (5 + k) (by omega), h (6 + k) (by omega),
    h (7 + k) (by omega)]

theorem State.parsedFrame_eq_of_agree {l : Length} (hl : 4 + l.toNat ≤ n) : s.parsedFrame l = t.parsedFrame l := by
  simp only [State.parsedFrame, h 0 (by omega), h 1 (by omega), State.wireIn_eq_of_agree h hl]

end Wire

/-- `DECODE` of two inputs that hold the same `8 + length` bytes delivers the same, whatever stands behind them. -/
theorem State.parse_result_eq_of_agree_of_complete {s t : State} (hs : 8 + s.lengthField ≤ s.wi.len)
    (ht : 8 + s.lengthField ≤ t.wi.len)
    (h : ∀ i, i < 8 + s.lengthField → s.wireByte i = t.wireByte i) :
    s.parse.fo = t.parse.fo ∧ s.parse.st = t.parse.st := by
  have hlen : s.lengthField = t.lengthField := State.lengthField_eq_of_agree h (by omega)
  have hlen16 : s.wireLength = t.wireLength := State.wireLength_eq_of_agree h (by omega)
  have hsum : s.wireChecksum s.lengthField = t.wireChecksum s.lengthField :=
    State.wireChecksum_eq_of_agree h le_rfl
  have hcovered : s.wireIn 0 (4 + s.lengthField) = t.wireIn 0 (4 + s.lengthField) :=
    State.wireIn_eq_of_agree h (by omega)
  have hframe : s.parsedFrame s.wireLength = t.parsedFrame s.wireLength :=
    State.parsedFrame_eq_of_agree h (by rw [State.wireLength_toNat]; omega)
  rw [State.parse_of_complete hs, State.parse_of_complete (hlen ▸ ht), ← hlen, ← hlen16, ← hsum, ← hcovered, ← hframe]
  split <;> simp

/-- `DECODE` of the same input sequence delivers the same: the checks come out alike in each of their cases. -/
theorem State.parse_result_eq_of_agree {s t : State} (hn : s.wi.len = t.wi.len)
    (h : ∀ i, i < s.wi.len → s.wireByte i = t.wireByte i) :
    s.parse.fo = t.parse.fo ∧ s.parse.st = t.parse.st := by
  by_cases hheader : s.wi.len < 4
  · rw [State.parse_of_short_header hheader, State.parse_of_short_header (hn ▸ hheader)]
    simp
  have hs4 : 4 ≤ s.wi.len := Nat.le_of_not_lt hheader
  have ht4 : 4 ≤ t.wi.len := hn ▸ hs4
  have hlen : s.lengthField = t.lengthField := State.lengthField_eq_of_agree h hs4
  by_cases hpayload : s.wi.len - 4 < s.lengthField
  · rw [State.parse_of_short_payload hs4 hpayload, State.parse_of_short_payload ht4 (by omega)]
    simp
  by_cases hchecksum : s.wi.len - 4 - s.lengthField < 4
  · rw [State.parse_of_short_checksum hs4 (by omega) hchecksum,
      State.parse_of_short_checksum ht4 (by omega) (by omega)]
    simp
  · exact State.parse_result_eq_of_agree_of_complete (by omega) (by omega) fun i hi => h i (by omega)

/-- Settles O24: `ENCODE` reads nothing but the Frame in `FI`, and `DECODE` nothing but the input sequence in `WI`. -/
theorem resultsDependOnInputsAlone : Obligations.ResultsDependOnInputsAlone := by
  intro s t hs ht
  refine ⟨fun hv hk hn hp => ?_, fun hcap hn hw => ?_⟩
  · rw [execEncode_of_idle hs, execEncode_of_idle ht]
    exact ⟨_, rfl, _, rfl, State.marshal_result_eq_of_agree hv hk hn hp⟩
  · rw [execDecode_of_idle hs hcap, execDecode_of_idle ht (hn ▸ hcap)]
    exact ⟨_, rfl, _, rfl, State.parse_result_eq_of_agree hn hw⟩

end Sys2Proof.Machine

/-! PROOFS. The encodings (30_encoding.md): what each decoder reads, then O5 and O1. -/

namespace Sys2Proof

/-! ### Wire Frames (R80, R81) -/

/-- What follows a header decodes exactly when it is `length` payload bytes and four checksum bytes. -/
theorem decodeBody_eq_ok_iff {v k : Byte} {n : Length} {rest : List Byte} {i : Instr} :
    decodeBody v k n rest = .ok i ↔
      ∃ (p : List Byte) (a b c d : Byte), p.length = n.toNat ∧ rest = p ++ [a, b, c, d]
        ∧ i = .wireframe v k p (Machine.fromBe32 a b c d) := by
  constructor
  · intro h
    unfold decodeBody at h
    split at h
    · simp at h
    next hlong =>
      split at h
      next a b c d hdrop =>
        refine ⟨rest.take n.toNat, a, b, c, d, List.length_take_of_le (Nat.le_of_not_lt hlong), ?_, ?_⟩
        · rw [← hdrop, List.take_append_drop]
        · simpa using h.symm
      · simp at h
      · simp at h
  · rintro ⟨p, a, b, c, d, hp, rfl, rfl⟩
    simp [decodeBody, ← hp]

theorem exists_decodeBody_iff (v k : Byte) (n : Length) (rest : List Byte) :
    (∃ i, decodeBody v k n rest = .ok i) ↔ rest.length = n.toNat + 4 := by
  simp only [decodeBody_eq_ok_iff]
  constructor
  · rintro ⟨_, p, a, b, c, d, hp, rfl, -⟩
    simp [hp]
  · intro h
    have hpay : (rest.take n.toNat).length = n.toNat := List.length_take_of_le (by omega)
    have hsum : (rest.drop n.toNat).length = 4 := by rw [List.length_drop]; omega
    obtain ⟨a, b, c, d, habcd⟩ := List.length_eq_four.mp hsum
    exact ⟨_, _, a, b, c, d, hpay, by rw [← habcd, List.take_append_drop], rfl⟩

/-- R81: a byte sequence is one Wire Frame exactly when it has a header and the size its length field gives. -/
theorem exists_decodeWire_iff (bytes : List Byte) :
    (∃ i, decodeWire bytes = .ok i) ↔
      4 ≤ bytes.length ∧ bytes.length = Machine.wordOf2 (bytes.getD 2 0#8) (bytes.getD 3 0#8) + 8 := by
  match bytes with
  | [] => simp [decodeWire]
  | [_] => simp [decodeWire]
  | [_, _] => simp [decodeWire]
  | [_, _, _] => simp [decodeWire]
  | v :: k :: hi :: lo :: rest =>
    have hbody := exists_decodeBody_iff v k (Machine.fromBe16 hi lo) rest
    rw [Machine.fromBe16_toNat] at hbody
    simp [decodeWire, hbody]

/-- Settles O5: the body has `length + 4` bytes behind a header of four, and the length field is below 65536. -/
theorem wireFrameSizeIsLengthPlusEight : Obligations.WireFrameSizeIsLengthPlusEight := by
  intro bytes length
  have hlt : length < 65536 := Machine.wordOf2_lt _ _
  have hiff : (∃ i, decode (.wire bytes) = .ok i) ↔ 4 ≤ bytes.length ∧ bytes.length = length + 8 :=
    exists_decodeWire_iff bytes
  refine ⟨hiff, fun hframe => ?_⟩
  obtain ⟨-, hsize⟩ := hiff.mp hframe
  omega

/-! ### Commands and control words (R86, R88) -/

/-- A control word is read by its `crc_op`, with `din` whole. -/
theorem decodeControl_append (op : BitVec 2) (din : Byte) :
    decodeControl (op ++ din) =
      if op = 0b00#2 then .crcHold din
      else if op = 0b01#2 then .crcBit din
      else if op = 0b10#2 then .crcByte din
      else .crcInit din := by
  have hop : (op ++ din : BitVec 10).extractLsb' 8 2 = op := BitVec.extractLsb'_append_eq_left
  have hdin : (op ++ din : BitVec 10).extractLsb' 0 8 = din := BitVec.extractLsb'_append_eq_right
  simp only [decodeControl, hop, hdin]

/-- Settles O1: the rows of the two tables. -/
theorem commandAndControlCodes : Obligations.CommandAndControlCodes := by
  refine ⟨rfl, rfl, rfl, rfl, fun din => ?_⟩
  have hdecode (op : BitVec 2) : decode (.control (op ++ din)) = .ok (decodeControl (op ++ din)) := rfl
  simp [hdecode, decodeControl_append]

end Sys2Proof

/-! PROOFS. The CRC generator (40_crc32.md): one equation per micro-operation, one for a run of equal micro-operations,
then the statements about them (R111 to R116, R123). -/

namespace Sys2Proof.Machine

/-! ### What each micro-operation answers -/

@[simp] theorem exec_crcHold (din : Byte) (s : State) : exec (.crcHold din) s = .next s := rfl

@[simp] theorem exec_crcBit (din : Byte) (s : State) :
    exec (.crcBit din) s = .next { s with crc := crcBit s.crc (din.getLsbD 0) } := rfl

@[simp] theorem exec_crcByte (din : Byte) (s : State) :
    exec (.crcByte din) s = .next { s with crc := crcByte s.crc din } := rfl

@[simp] theorem exec_crcInit (din : Byte) (s : State) :
    exec (.crcInit din) s = .next { s with crc := crcInitValue } := rfl

/-! ### Sequences of micro-operations -/

theorem execAll_cons_of_next {i : Instr} {rest : List Instr} {s t : State} (h : exec i s = .next t) :
    execAll (i :: rest) s = execAll rest t := by
  simp only [execAll, h]

/-- A run of one micro-operation over a list of operands folds its next-state function over the register. -/
theorem execAll_map_of_crc_step {α : Type} {instr : α → Instr} {next : Sum → α → Sum}
    (h : ∀ a s, exec (instr a) s = .next { s with crc := next s.crc a }) (l : List α) (s : State) :
    execAll (l.map instr) s = .next { s with crc := l.foldl next s.crc } := by
  induction l generalizing s with
  | nil => rfl
  | cons a l ih => rw [List.map_cons, execAll_cons_of_next (h a s), ih, List.foldl_cons]

/-! ### The shift of the bit step and the complement of the output -/

/-- The shift of R112: `{0b0, CRC[31:1]}`. -/
theorem sum_ushiftRight_one (c : Sum) : c >>> 1 = (0#1 ++ c.extractLsb' 1 31 : BitVec 32) :=
  BitVec.ushiftRight_eq_extractLsb'_of_lt (by decide)

theorem crcOut_eq_not (c : Sum) : crcOut c = ~~~c :=
  BitVec.xor_allOnes

/-! ### The obligations -/

/-- Settles O8: the shift, then the bits of a bit step. -/
theorem crcBitShiftsWithFeedback : Obligations.CrcBitShiftsWithFeedback := by
  intro din s fb
  refine ⟨_, exec_crcBit din s, ?_, fun j _ => crcBit_getLsbD _ _ j, crcBit_getLsbD_top _ _, rfl⟩
  rw [← sum_ushiftRight_one]
  rfl

/-- Settles O12: after `CRC.INIT` the run of `CRC.BYTE` is the loop of R116, by induction over the message. -/
theorem crc32IsTheRunOfMicroOperations : Obligations.Crc32IsTheRunOfMicroOperations := by
  refine ⟨fun message s => ?_, by decide +kernel⟩
  have hrun : execAll (.crcInit 0#8 :: message.map .crcByte) s = .next { s with crc := crcRegister message } := by
    rw [execAll_cons_of_next (exec_crcInit 0#8 s), execAll_map_of_crc_step exec_crcByte]
    rfl
  exact ⟨_, hrun, rfl, rfl⟩

/-- Settles O7. -/
theorem crcHoldChangesNothing : Obligations.CrcHoldChangesNothing :=
  exec_crcHold

/-- Settles O9: `din[0]` of the `i`-th `CRC.BIT` is bit `i` of the byte, and both sides fold the bit step over it. -/
theorem crcByteIsEightCrcBits : Obligations.CrcByteIsEightCrcBits := by
  intro d s
  have hbit (i : Nat) (s : State) : exec (.crcBit ((BitVec.ofBool (d.getLsbD i)).setWidth 8)) s
      = .next { s with crc := crcBit s.crc (d.getLsbD i) } := by
    simp
  refine ⟨?_, _, exec_crcByte d s, rfl⟩
  rw [exec_crcByte, execAll_map_of_crc_step (next := fun c i => crcBit c (d.getLsbD i)) hbit]
  rfl

/-- Settles O10. -/
theorem crcInitLoadsAllOnes : Obligations.CrcInitLoadsAllOnes :=
  exec_crcInit

/-- Settles O11: exclusive-or with all ones is the complement. -/
theorem crcOutputIsComplement : Obligations.CrcOutputIsComplement := by
  refine ⟨fun c => ⟨rfl, fun j hj => ?_⟩, by decide, fun _ => rfl⟩
  rw [crcOut_eq_not, BitVec.getLsbD_not, decide_eq_true hj, Bool.true_and]

/-- Settles O13: the four micro-operations answer as their equations say; no other instruction is a control word. -/
theorem controlWordsChangeOnlyCrc : Obligations.ControlWordsChangeOnlyCrc := by
  intro i s hi
  cases i with
  | crcHold din => exact ⟨_, exec_crcHold din s, rfl⟩
  | crcBit din => exact ⟨_, exec_crcBit din s, rfl⟩
  | crcByte din => exact ⟨_, exec_crcByte din s, rfl⟩
  | crcInit din => exact ⟨_, exec_crcInit din s, rfl⟩
  | nop | encode | decode | rsvd3 | wireframe => simp [Instr.isControlWord] at hi

end Sys2Proof.Machine

/-! PROOFS. ENCODE (41_marshal.md): where each field of a Wire Frame stands, then what `WO` holds after an `ENCODE`
(R142 to R146). -/

namespace Sys2Proof.Machine

/-! ### The bytes of a Wire Frame by position (R80) -/

theorem wireBytes_getElem?_header (v k : Byte) (p : List Byte) (c : Sum) {j : Nat} (hj : j < 4) :
    (wireBytes v k p c)[j]? = (headerBytes v k (BitVec.ofNat 16 p.length))[j]? := by
  rw [wireBytes, List.append_assoc, List.getElem?_append_left (by simpa using hj)]

theorem wireBytes_getElem?_payload (v k : Byte) (p : List Byte) (c : Sum) {i : Nat} (hi : i < p.length) :
    (wireBytes v k p c)[4 + i]? = p[i]? := by
  rw [wireBytes, List.append_assoc, List.getElem?_append_right (by simp), List.getElem?_append_left (by simpa using hi)]
  simp

theorem wireBytes_getElem?_checksum (v k : Byte) (p : List Byte) (c : Sum) (m : Nat) :
    (wireBytes v k p c)[4 + m + p.length]? = (be32 c)[m]? := by
  have hfront : (headerBytes v k (BitVec.ofNat 16 p.length) ++ p).length = 4 + p.length := by simp
  rw [wireBytes, List.getElem?_append_right (by omega), hfront, show 4 + m + p.length - (4 + p.length) = m by omega]

/-- Reading the first bytes of a list one by one gives its beginning. -/
theorem map_range_getElem?_append {l l' : List Byte} :
    ((List.range l.length).map fun i => (l ++ l')[i]?.getD 0#8) = l := by
  refine List.ext_getElem (by simp) fun i _ hi => ?_
  simp [List.getElem?_append_left hi, List.getElem?_eq_getElem hi]

/-! ### What ENCODE leaves in WO -/

theorem State.marshal_wo {s : State} (h : s.fi.len ≤ 65535) :
    s.marshal.wo = .valid
      { len := s.frameLength.setWidth 17 + 8#17
        bytes := Memory.ofBytes 0 (s.frameBytes ++ be32 (crc32 s.frameBytes)) } := by
  rw [State.marshal_of_fits h, State.completeOk_wo]

theorem State.cell_woBytes_of_valid {s : State} {r : WireOut} (h : s.wo = .valid r) (i : Nat) :
    s.cell .woBytes i = Memory.read r.bytes i := by
  simp only [State.cell, h]

/-- The cells of `WO.bytes` are the covered bytes and behind them the checksum. -/
theorem State.marshal_cell_woBytes {s : State} (h : s.fi.len ≤ 65535) (i : Nat) :
    s.marshal.cell .woBytes i = (s.frameBytes ++ be32 (crc32 s.frameBytes))[i]? := by
  rw [State.cell_woBytes_of_valid (State.marshal_wo h), Memory.read_ofBytes]
  simp

section Cells

variable {s : State} (h : s.fi.len ≤ 65535)
include h

/-- R142: the header. -/
theorem State.marshal_cell_header {j : Nat} (hj : j < 4) :
    s.marshal.cell .woBytes j = (headerBytes s.fi.version s.fi.kind s.frameLength)[j]? := by
  rw [State.marshal_cell_woBytes h, State.frameBytes_append_checksum s h, wireBytes_getElem?_header _ _ _ _ hj,
    State.payloadIn_length, State.frameLength]

/-- R143: the payload, unchanged and in order. -/
theorem State.marshal_cell_payload {i : Nat} (hi : i < s.fi.len) :
    s.marshal.cell .woBytes (4 + i) = some (s.payloadByte i) := by
  rw [State.marshal_cell_woBytes h, State.frameBytes_append_checksum s h,
    wireBytes_getElem?_payload _ _ _ _ (by simpa using hi), State.payloadIn_getElem?, if_pos hi]

/-- R145: the checksum behind the payload. -/
theorem State.marshal_cell_checksum (m : Nat) :
    s.marshal.cell .woBytes (4 + m + s.fi.len) = (be32 (crc32 s.frameBytes))[m]? := by
  rw [State.marshal_cell_woBytes h, State.frameBytes_append_checksum s h,
    ← wireBytes_getElem?_checksum s.fi.version s.fi.kind (s.payloadIn s.fi.len), State.payloadIn_length]

/-- R144: the bytes before the checksum are the covered ones. -/
theorem State.marshal_cells_covered :
    ((List.range (4 + s.fi.len)).map fun i => (s.marshal.cell .woBytes i).getD 0#8) = s.frameBytes := by
  have hlen : 4 + s.fi.len = s.frameBytes.length := by
    rw [State.frameBytes_length, State.frameLength_toNat h, Nat.add_comm]
  simp only [State.marshal_cell_woBytes h, hlen]
  exact map_range_getElem?_append

end Cells

/-- Settles O20: header, payload and checksum by their positions, and the checksum of the bytes before it. -/
theorem encodeWritesTheWireFrame : Obligations.EncodeWritesTheWireFrame := by
  intro s hidle hfit
  have header {j : Nat} (hj : j < 4) := State.marshal_cell_header hfit hj
  have checksum := State.marshal_cell_checksum hfit
  refine ⟨s.marshal, execEncode_of_idle hidle, ⟨_, State.marshal_wo hfit, State.wireLen_toNat hfit⟩,
    header (by decide), header (by decide), ⟨_, _, header (by decide), header (by decide), ?length⟩,
    fun i hi => State.marshal_cell_payload hfit hi,
    ⟨_, _, _, _, checksum 0, checksum 1, checksum 2, checksum 3, ?sum⟩, ?status, ?phase⟩
  case length => rw [wordOf2_be16, State.frameLength_toNat hfit]
  case sum => rw [State.marshal_cells_covered hfit, wordOf4_be32]
  case status => rw [State.marshal_of_fits hfit, State.completeOk_st]
  case phase => rw [State.marshal_of_fits hfit, State.completeOk_phase]

end Sys2Proof.Machine

/-! PROOFS. DECODE (42_parse.md): what a complete input with the right checksum delivers (R165), that nothing behind the
checksum counts (R171), and that `DECODE` inverts `ENCODE` (R173). -/

namespace Sys2Proof.Machine

/-! ### What DECODE leaves in FO -/

theorem State.parse_of_right_checksum {s : State} (h : 8 + s.lengthField ≤ s.wi.len)
    (hsum : s.checksumField s.lengthField = (crc32 (s.wireIn 0 (4 + s.lengthField))).toNat) :
    s.parse = State.completeOk { s.compared with fo := .valid (s.parsedFrame s.wireLength) } := by
  rw [State.parse_of_complete h, if_pos (BitVec.eq_of_toNat_eq (by rw [State.wireChecksum_toNat, hsum]))]

theorem State.cell_foPayload_of_valid {s : State} {r : FrameOut} (h : s.fo = .valid r) (i : Nat) :
    s.cell .foPayload i = Memory.read r.payload i := by
  simp only [State.cell, h]

/-- R165: the payload is the `length` bytes behind the header, in order. -/
theorem State.parsedFrame_payload_read (s : State) (l : Length) (i : Nat) :
    Memory.read (s.parsedFrame l).payload i = if i < l.toNat then some (s.wireByte (4 + i)) else none := by
  rw [State.parsedFrame, Memory.read_ofBytes, if_pos (Nat.zero_le i), Nat.sub_zero, State.wireIn_getElem?]

/-- Settles O29: every check passes, and `FO` is the Frame read from the input. -/
theorem decodeDeliversTheFrame : Obligations.DecodeDeliversTheFrame := by
  intro s hidle hcap hcomplete hsum
  have hparse := State.parse_of_right_checksum hcomplete hsum
  have hfo : s.parse.fo = .valid (s.parsedFrame s.wireLength) := by rw [hparse, State.completeOk_fo]
  have hcell (i : Nat) :
      s.parse.cell .foPayload i = if i < s.lengthField then some (s.wireByte (4 + i)) else none := by
    rw [State.cell_foPayload_of_valid hfo, State.parsedFrame_payload_read, State.wireLength_toNat]
  refine ⟨s.parse, execDecode_of_idle hidle hcap, ⟨_, hfo, rfl, rfl, s.wireLength_toNat⟩,
    fun i hi => ?inside, fun i hi => ?behind, ?status, ?phase⟩
  case inside => rw [hcell, if_pos hi]
  case behind => rw [hcell, if_neg (Nat.not_lt.mpr hi)]
  case status => rw [hparse, State.completeOk_st]
  case phase => rw [hparse, State.completeOk_phase]

/-- Settles O32: both inputs are complete, and of a complete input only the first `8 + length` bytes are read. -/
theorem trailingBytesAreIgnored : Obligations.TrailingBytesAreIgnored := by
  intro s t hs ht hscap htcap hscomplete htcomplete hagree
  exact ⟨s.parse, execDecode_of_idle hs hscap, t.parse, execDecode_of_idle ht htcap,
    State.parse_result_eq_of_agree_of_complete hscomplete htcomplete hagree⟩

/-! ### An input that holds what ENCODE delivered -/

theorem State.wireByte_of_cell {s : State} {i : Nat} {b : Byte} (h : s.cell .wiBytes i = some b) :
    s.wireByte i = b := by
  have hread : Memory.read s.wi.bytes i = some b := h
  rw [State.wireByte, hread, Option.getD_some]

section Carried

variable {s u : State} (hfit : s.fi.len ≤ 65535)
  (hcarried : ∀ i, i < s.fi.len + 8 → u.cell .wiBytes i = s.marshal.cell .woBytes i)
include hfit hcarried

theorem State.carried_header_byte {j : Nat} {b : Byte} (hj : j < 4)
    (hb : (headerBytes s.fi.version s.fi.kind s.frameLength)[j]? = some b) : u.wireByte j = b :=
  State.wireByte_of_cell (by rw [hcarried j (by omega), State.marshal_cell_header hfit hj, hb])

theorem State.carried_payload_byte {i : Nat} (hi : i < s.fi.len) : u.wireByte (4 + i) = s.payloadByte i :=
  State.wireByte_of_cell (by rw [hcarried (4 + i) (by omega), State.marshal_cell_payload hfit hi])

theorem State.carried_checksum_byte {m : Nat} {b : Byte} (hm : m < 4)
    (hb : (be32 (crc32 s.frameBytes))[m]? = some b) : u.wireByte (4 + m + s.fi.len) = b :=
  State.wireByte_of_cell (by rw [hcarried _ (by omega), State.marshal_cell_checksum hfit, hb])

theorem State.carried_lengthField : u.lengthField = s.fi.len := by
  have header {j : Nat} {b : Byte} (hj : j < 4) := State.carried_header_byte hfit hcarried (b := b) hj
  rw [State.lengthField, header (j := 2) (by decide) rfl, header (j := 3) (by decide) rfl, wordOf2_be16,
    State.frameLength_toNat hfit]

theorem State.carried_checksumField : u.checksumField s.fi.len = (crc32 s.frameBytes).toNat := by
  have checksum {m : Nat} {b : Byte} (hm : m < 4) := State.carried_checksum_byte hfit hcarried (b := b) hm
  rw [State.checksumField, checksum (m := 0) (by decide) rfl, checksum (m := 1) (by decide) rfl,
    checksum (m := 2) (by decide) rfl, checksum (m := 3) (by decide) rfl, wordOf4_be32]

/-- The bytes `DECODE` takes its checksum over are those `ENCODE` took it over: header, then payload. -/
theorem State.carried_covered : u.wireIn 0 (4 + s.fi.len) = s.frameBytes := by
  have header {j : Nat} {b : Byte} (hj : j < 4) := State.carried_header_byte hfit hcarried (b := b) hj
  have hheader : u.wireIn 0 4 = headerBytes s.fi.version s.fi.kind s.frameLength :=
    calc u.wireIn 0 4
      _ = [u.wireByte 0, u.wireByte 1, u.wireByte 2, u.wireByte 3] := rfl
      _ = headerBytes s.fi.version s.fi.kind s.frameLength := by
        rw [header (j := 0) (by decide) rfl, header (j := 1) (by decide) rfl, header (j := 2) (by decide) rfl,
          header (j := 3) (by decide) rfl, headerBytes_eq]
  have hpayload : u.wireIn 4 s.fi.len = s.payloadIn s.fi.len :=
    List.map_congr_left fun i hi => State.carried_payload_byte hfit hcarried (List.mem_range.mp hi)
  rw [State.wireIn_add, hheader, Nat.zero_add, hpayload, State.frameBytes, State.frameLength_toNat hfit]

end Carried

/-- Settles O34: the input is complete and its checksum right, so `DECODE` delivers the Frame in it, which is the one
encoded. -/
theorem decodeInvertsEncode : Obligations.DecodeInvertsEncode := by
  intro s t u hs hfit hencode hu hlen hcap hcarried
  rw [execEncode_of_idle hs, Host.Outcome.next.injEq] at hencode
  subst hencode
  have hlength := State.carried_lengthField hfit hcarried
  have hsum : u.checksumField u.lengthField = (crc32 (u.wireIn 0 (4 + u.lengthField))).toNat := by
    rw [hlength, State.carried_checksumField hfit hcarried, State.carried_covered hfit hcarried]
  obtain ⟨v, hdecode, ⟨r, hfo, hversion, hkind, hrlen⟩, hcells, -, hst, -⟩ :=
    decodeDeliversTheFrame u hu hcap (by omega) hsum
  refine ⟨v, hdecode, hst, ⟨r, hfo, ?version, ?kind, ?length⟩, fun i hi => ?payload⟩
  case version => rw [hversion, State.carried_header_byte hfit hcarried (by decide) rfl]
  case kind => rw [hkind, State.carried_header_byte hfit hcarried (by decide) rfl]
  case length => rw [hrlen, hlength]
  case payload => rw [hcells i (hlength ▸ hi), State.carried_payload_byte hfit hcarried hi]

end Sys2Proof.Machine

/-! PROOFS. The commands (43_control.md): what each command answers at once, what a write to `CMD` does in a busy and in
an idle state, then the statements about them (R190 to R193). -/

namespace Sys2Proof.Machine

/-! ### What each command answers -/

@[simp] theorem exec_nop (s : State) : exec .nop s = .next s := rfl

@[simp] theorem exec_rsvd3 (s : State) : exec .rsvd3 s = .next s := rfl

theorem execEncode_of_busy {s : State} (h : s.st.busy = true) : exec .encode s = .next s :=
  if_pos h

theorem execDecode_of_busy {s : State} (h : s.st.busy = true) : exec .decode s = .next s :=
  if_pos h

theorem decodeCommand_cases (c : BitVec 2) :
    decodeCommand c = .nop ∨ decodeCommand c = .encode ∨ decodeCommand c = .decode ∨ decodeCommand c = .rsvd3 := by
  unfold decodeCommand
  split_ifs <;> simp

/-- An issued command is ignored while another runs (R193; notes/assumptions/3.md). -/
theorem exec_decodeCommand_of_busy {s : State} (h : s.st.busy = true) (c : BitVec 2) :
    exec (decodeCommand c) s = .next s := by
  obtain hc | hc | hc | hc := decodeCommand_cases c <;> rw [hc]
  · exact exec_nop s
  · exact execEncode_of_busy h
  · exact execDecode_of_busy h
  · exact exec_rsvd3 s

/-! ### A write to CMD -/

theorem State.commandWrite_of_busy {s : State} (h : s.st.busy = true) (c : BitVec 2) : s.commandWrite c = .next s :=
  if_pos h

/-- R190 by the value written. -/
theorem State.commandWrite_of_idle {s : State} (h : s.st.busy = false) (c : BitVec 2) :
    s.commandWrite c =
      if c = 0b01#2 then .next s.startEncode
      else if c = 0b10#2 then
        if Config.fitsWire s.wi.len then .next s.startDecode else .refused .inputBeyondCapacity
      else .next s :=
  if_neg (by simp [h])

/-- A pending write of a 2-bit value to `CMD` leaves the list, and the block takes the command. -/
theorem step_of_pending_commandWrite {s : State} {v : Nat} {rest : List HostAct} (hv : v < 4)
    (h : s.pending = .wr .cmd v :: rest) :
    step s = State.commandWrite { s with pending := rest } (BitVec.ofNat 2 v) := by
  rw [step_cons h]
  exact if_pos hv

/-! ### The obligations -/

/-- Settles O38. -/
theorem nopAndReservedChangeNothing : Obligations.NopAndReservedChangeNothing :=
  fun s => ⟨exec_nop s, exec_rsvd3 s⟩

/-- Settles O39: an issued command and a raw write to `CMD` both leave a busy block as it is. -/
theorem commandsAreIgnoredWhileBusy : Obligations.CommandsAreIgnoredWhileBusy := by
  refine fun s hbusy => ⟨exec_decodeCommand_of_busy hbusy, fun v rest hv hpending => ?_⟩
  rw [step_of_pending_commandWrite hv hpending]
  exact State.commandWrite_of_busy (s := { s with pending := rest }) hbusy _

/-- Settles O40: an idle block takes the command that the value written stands for. -/
theorem commandWriteStartsTheCommand : Obligations.CommandWriteStartsTheCommand := by
  intro s v rest hidle hpending
  have hstep (hv : v < 4) := (step_of_pending_commandWrite hv hpending).trans
    (State.commandWrite_of_idle (s := { s with pending := rest }) hidle _)
  refine ⟨?ignored, ?encode, ?decode⟩
  case ignored =>
    rintro (rfl | rfl) <;> exact hstep (by decide)
  case encode =>
    rintro rfl
    exact ⟨_, hstep (by decide), rfl⟩
  case decode =>
    rintro rfl hcap
    exact ⟨_, (hstep (by decide)).trans (if_pos ((fitsWire_iff _).mpr hcap)), rfl⟩

end Sys2Proof.Machine

/-! PROOFS. The five errors (60_exceptions.md): the code each command ends with, by its input, then the statements
about each error (R201 to R205). -/

namespace Sys2Proof.Machine

/-! ### The two ways a command ends (R194, R208) -/

/-- No command is running. -/
def State.AtRest (s : State) : Prop :=
  s.st.busy = false ∧ s.phase = .idle

theorem State.completeOk_atRest (s : State) : s.completeOk.AtRest := ⟨rfl, rfl⟩

theorem State.raise_atRest (s : State) (c : Command) (e : CodecError) : (s.raise c e).AtRest := by
  cases c <;> exact ⟨rfl, rfl⟩

/-! ### The code each command ends with -/

theorem State.marshal_code (s : State) :
    s.marshal.st.code = if 65535 < s.fi.len then .err .oversizedPayload else .ok := by
  split_ifs with hbig
  · rw [State.marshal_of_oversized hbig, State.raise_encode_st]
  · rw [State.marshal_of_fits (Nat.le_of_not_lt hbig), State.completeOk_st]

theorem State.marshal_code_eq_oversizedPayload_iff (s : State) :
    s.marshal.st.code = .err .oversizedPayload ↔ 65535 < s.fi.len := by
  rw [State.marshal_code]
  split_ifs with hbig <;> simp [hbig]

/-- The checks of `DECODE` in their order: the first that fails gives the code (R161 to R169). -/
theorem State.parse_code (s : State) :
    s.parse.st.code =
      if s.wi.len < 4 then .err .truncatedHeader
      else if s.wi.len - 4 < s.lengthField then .err .truncatedPayload
      else if s.wi.len - 4 - s.lengthField < 4 then .err .truncatedChecksum
      else if s.checksumField s.lengthField ≠ (crc32 (s.wireIn 0 (4 + s.lengthField))).toNat then
        .err .checksumMismatch
      else .ok := by
  split_ifs with hheader hpayload hchecksum hdiffers
  · rw [State.parse_of_short_header hheader, State.raise_decode_st]
  · rw [State.parse_of_short_payload (by omega) hpayload, State.raise_decode_st]
  · rw [State.parse_of_short_checksum (by omega) (by omega) hchecksum, State.raise_decode_st]
  · rw [State.parse_of_complete (by omega), if_neg, State.raise_decode_st]
    rwa [← BitVec.toNat_inj, State.wireChecksum_toNat]
  · rw [State.parse_of_right_checksum (by omega) (not_not.mp hdiffers), State.completeOk_st]

/-- `DECODE` ends in one of two ways: an error completion, or success (R194, R208). -/
theorem State.parse_eq_raise_or_completeOk (s : State) :
    (∃ u e, s.parse = State.raise u .decode e) ∨ ∃ u, s.parse = State.completeOk u := by
  unfold State.parse
  dsimp only
  split_ifs
  · exact .inl ⟨_, _, rfl⟩
  · exact .inl ⟨_, _, rfl⟩
  · exact .inl ⟨_, _, rfl⟩
  · exact .inl ⟨_, _, rfl⟩
  · exact .inr ⟨_, rfl⟩

/-- A `DECODE` that reports an error clears `FO.valid` (R208). -/
theorem State.parse_fo_of_error {s : State} {e : CodecError} (h : s.parse.st.code = .err e) :
    s.parse.fo = .absent := by
  obtain ⟨u, e', hu⟩ | ⟨u, hu⟩ := s.parse_eq_raise_or_completeOk
  · rw [hu, State.raise_decode_fo]
  · simp [hu] at h

theorem State.parse_atRest (s : State) : s.parse.AtRest := by
  obtain ⟨u, e, hu⟩ | ⟨u, hu⟩ := s.parse_eq_raise_or_completeOk
  · exact hu ▸ u.raise_atRest .decode e
  · exact hu ▸ u.completeOk_atRest

/-! ### When DECODE reports which error -/

theorem State.parse_code_ne_oversizedPayload (s : State) : s.parse.st.code ≠ .err .oversizedPayload := by
  rw [State.parse_code]
  split_ifs <;> simp

theorem State.parse_code_eq_truncatedHeader_iff (s : State) :
    s.parse.st.code = .err .truncatedHeader ↔ s.wi.len < 4 := by
  rw [State.parse_code]
  split_ifs with hheader <;> simp [hheader]

theorem State.parse_code_eq_truncatedPayload_iff (s : State) :
    s.parse.st.code = .err .truncatedPayload ↔ 4 ≤ s.wi.len ∧ s.wi.len - 4 < s.lengthField := by
  rw [State.parse_code]
  split_ifs <;> simp <;> omega

theorem State.parse_code_eq_truncatedChecksum_iff (s : State) :
    s.parse.st.code = .err .truncatedChecksum
      ↔ 4 ≤ s.wi.len ∧ s.lengthField ≤ s.wi.len - 4 ∧ s.wi.len - 4 - s.lengthField < 4 := by
  rw [State.parse_code]
  split_ifs <;> simp <;> omega

theorem State.parse_code_eq_checksumMismatch_iff (s : State) :
    s.parse.st.code = .err .checksumMismatch
      ↔ 8 + s.lengthField ≤ s.wi.len
        ∧ s.checksumField s.lengthField ≠ (crc32 (s.wireIn 0 (4 + s.lengthField))).toNat := by
  rw [State.parse_code]
  split_ifs <;> simp <;> omega

/-! ### Which command reports which error -/

theorem execEncode_next_of_idle {s t : State} (hidle : s.st.busy = false) (h : exec .encode s = .next t) :
    t = s.marshal := by
  rw [execEncode_of_idle hidle] at h
  exact (Host.Outcome.next.inj h).symm

theorem execDecode_next_of_idle {s t : State} (hidle : s.st.busy = false) (h : exec .decode s = .next t) :
    t = s.parse := by
  by_cases hcap : s.wi.len ≤ Config.wiCap
  · rw [execDecode_of_idle hidle hcap] at h
    exact (Host.Outcome.next.inj h).symm
  · simp [exec, execDecode, hidle, fitsWire_iff, hcap] at h

/-- Four of the five errors are never an `ENCODE`'s. -/
theorem execEncode_code_ne {e : CodecError} (he : e ≠ .oversizedPayload) {s t : State} (hidle : s.st.busy = false)
    (h : exec .encode s = .next t) : t.st.code ≠ .err e := by
  rw [execEncode_next_of_idle hidle h, State.marshal_code]
  split_ifs
  · simpa using he.symm
  · simp

/-! ### The obligations -/

/-- Settles O21: an `ENCODE` rejects exactly the oversized Frame, and no check of `DECODE` gives that code. -/
theorem oversizedPayloadIsRejected : Obligations.OversizedPayloadIsRejected := by
  intro s hidle
  refine ⟨fun hbig => ?rejected,
    ⟨_, execEncode_of_idle hidle, s.marshal_code_eq_oversizedPayload_iff⟩, fun t h => ?decode⟩
  case rejected =>
    rw [execEncode_of_idle hidle, State.marshal_of_oversized hbig]
    rfl
  case decode =>
    rw [execDecode_next_of_idle hidle h]
    exact s.parse_code_ne_oversizedPayload

/-- Settles O25: the first check of `DECODE`. -/
theorem truncatedHeaderIsReported : Obligations.TruncatedHeaderIsReported := by
  intro s hidle hcap
  have hiff := s.parse_code_eq_truncatedHeader_iff
  exact ⟨⟨_, execDecode_of_idle hidle hcap, hiff, fun h => State.parse_fo_of_error (hiff.mpr h), s.parse_atRest⟩,
    fun _ => execEncode_code_ne (by decide) hidle⟩

/-- Settles O26: the check behind the header. -/
theorem truncatedPayloadIsReported : Obligations.TruncatedPayloadIsReported := by
  intro s hidle hcap
  have hiff := s.parse_code_eq_truncatedPayload_iff
  exact ⟨⟨_, execDecode_of_idle hidle hcap, hiff, fun h h' => State.parse_fo_of_error (hiff.mpr ⟨h, h'⟩)⟩,
    fun _ => execEncode_code_ne (by decide) hidle⟩

/-- Settles O27: the check behind the payload. -/
theorem truncatedChecksumIsReported : Obligations.TruncatedChecksumIsReported := by
  intro s hidle hcap
  have hiff := s.parse_code_eq_truncatedChecksum_iff
  exact ⟨⟨_, execDecode_of_idle hidle hcap, hiff,
      fun h h' h'' => State.parse_fo_of_error (hiff.mpr ⟨h, h', h''⟩)⟩,
    fun _ => execEncode_code_ne (by decide) hidle⟩

/-- Settles O28: the comparison, once every byte is there. -/
theorem checksumMismatchIsReported : Obligations.ChecksumMismatchIsReported := by
  intro s hidle hcap
  have hiff := s.parse_code_eq_checksumMismatch_iff
  exact ⟨⟨_, execDecode_of_idle hidle hcap, hiff, fun h h' => State.parse_fo_of_error (hiff.mpr ⟨h, h'⟩)⟩,
    fun _ => execEncode_code_ne (by decide) hidle⟩

end Sys2Proof.Machine

/-! PROOFS. Liveness (R212): every step of a running command ends it or leaves fewer steps to go, so the block comes to
rest. -/

namespace Sys2Proof.Machine

/-! ### How far a command has come -/

/-- `PTR` stands before the offset where the phase ends (R151, R177). -/
def State.PtrInPhase (s : State) : Prop :=
  match s.phase with
  | .idle | .eCheck | .dCmp => True
  | .eHdr | .dHdr => s.ptr.toNat < 4
  | .ePay | .dPay => s.ptr.toNat < 4 + s.len16.toNat
  | .eSum | .dSum => s.ptr.toNat < 8 + s.len16.toNat

theorem State.Inv.ptrInPhase {s : State} (h : s.Inv) : s.PtrInPhase := by
  have hphase := h.phase
  unfold State.PhaseInv at hphase
  unfold State.PtrInPhase
  split at hphase <;> simp only [*]

/-- The measure that drops with every step of a command: one for each byte up to the last of the frame, and one for
the comparison. Until the header has passed, the length counts as 65535. -/
def State.stepsLeft (s : State) : Nat :=
  match s.phase with
  | .idle => 0
  | .eCheck => 65545
  | .eHdr | .dHdr => 65544 - s.ptr.toNat
  | .ePay | .dPay | .eSum | .dSum => 9 + s.len16.toNat - s.ptr.toNat
  | .dCmp => 1

/-- The command of `s` goes on in `t`, which is closer to its end. -/
structure State.GoesOn (s t : State) : Prop where
  running : t.phase ≠ .idle
  pending : t.pending = s.pending
  ptrInPhase : t.PtrInPhase
  stepsLeft : t.stepsLeft < s.stepsLeft

theorem ptr_eq_four_iff (p : Ptr) : p = 4#17 ↔ p.toNat = 4 := BitVec.toNat_inj.symm

theorem len16_eq_zero_iff (n : Length) : n = 0#16 ↔ n.toNat = 0 := BitVec.toNat_inj.symm

/-! ### One step in each phase

Each phase's step is split into its outcomes; that an outcome is closer to the end is then arithmetic on `PTR`, which is
one higher, and `LEN16`. -/

/-- The check behind the payload ends the command or lets it go on to the checksum. -/
theorem State.enterDSum_cases (s : State) : s.enterDSum.AtRest ∨ s.enterDSum = { s with phase := .dSum } := by
  unfold State.enterDSum
  split_ifs
  · exact .inl (s.raise_atRest _ _)
  · exact .inr rfl

/-- The check behind the header ends the command or lets it go on to the payload, if there is one. -/
theorem State.enterDPay_cases (s : State) :
    s.enterDPay.AtRest ∨ s.enterDPay = { s with phase := .dSum }
      ∨ s.len16 ≠ 0#16 ∧ s.enterDPay = { s with phase := .dPay } := by
  unfold State.enterDPay
  split_ifs with hshort hempty
  · exact .inl (s.raise_atRest _ _)
  · exact s.enterDSum_cases.imp_right .inl
  · exact .inr (.inr ⟨hempty, rfl⟩)

/-- A step in `D_HDR` ends the command or passes one byte, and behind the fourth makes its check. -/
theorem State.stepDHdr_cases (s : State) :
    s.stepDHdr.AtRest ∨ ∃ u : State, u.phase = s.phase ∧ u.pending = s.pending ∧ u.ptr = s.ptr + 1#17
      ∧ s.stepDHdr = if u.ptr = 4#17 then u.enterDPay else u := by
  unfold State.stepDHdr
  by_cases hshort : (s.ptr = 0#17 && headerTruncated s.wi.len) = true
  · rw [if_pos hshort]
    exact .inl (s.raise_atRest _ _)
  · rw [if_neg hshort]
    refine .inr ⟨_, ?_, ?_, ?_, rfl⟩ <;> split_ifs <;> simp

section Phases

variable {s : State}

theorem State.stepECheck_progress (hphase : s.phase = .eCheck) :
    s.stepECheck.AtRest ∨ s.GoesOn s.stepECheck := by
  by_cases hbig : 65535 < s.fi.len
  · rw [State.stepECheck_of_oversized hbig]
    exact .inl (s.raise_atRest _ _)
  · rw [State.stepECheck_of_fits (Nat.le_of_not_lt hbig)]
    exact .inr ⟨by simp, rfl, by simp [State.PtrInPhase], by simp [State.stepsLeft, hphase]⟩

theorem State.stepEHdr_goesOn (hin : s.PtrInPhase) (hphase : s.phase = .eHdr) : s.GoesOn s.stepEHdr := by
  simp only [State.PtrInPhase, hphase] at hin
  have hnext := ptr_succ_toNat (p := s.ptr) (by omega)
  simp only [State.stepEHdr, State.feed_ptr, State.emit_ptr, ptr_eq_four_iff, len16_eq_zero_iff, hnext]
  split_ifs with hlast hempty
  · constructor <;> simp [State.PtrInPhase, State.stepsLeft, hphase, hnext] <;> omega
  · constructor <;> simp [State.PtrInPhase, State.stepsLeft, hphase, hnext] <;> omega
  · constructor <;> simp [State.PtrInPhase, State.stepsLeft, hphase, hnext] <;> omega

theorem State.stepEPay_goesOn (hin : s.PtrInPhase) (hphase : s.phase = .ePay) : s.GoesOn s.stepEPay := by
  simp only [State.PtrInPhase, hphase] at hin
  have hnext := ptr_succ_toNat (p := s.ptr) (by omega)
  simp only [State.stepEPay, State.feed_ptr, State.emit_ptr, State.feed_len16, State.emit_len16, hnext]
  split_ifs with hlast
  · constructor <;> simp [State.PtrInPhase, State.stepsLeft, hphase, hnext] <;> omega
  · constructor <;> simp [State.PtrInPhase, State.stepsLeft, hphase, hnext] <;> omega

theorem State.stepESum_progress (hin : s.PtrInPhase) (hphase : s.phase = .eSum) :
    s.stepESum.AtRest ∨ s.GoesOn s.stepESum := by
  simp only [State.PtrInPhase, hphase] at hin
  have hnext := ptr_succ_toNat (p := s.ptr) (by omega)
  simp only [State.stepESum, State.emit_ptr, State.emit_len16, hnext]
  split_ifs with hlast
  · exact .inl (State.completeOk_atRest _)
  · right; constructor <;> simp [State.PtrInPhase, State.stepsLeft, hphase, hnext] <;> omega

theorem State.stepDHdr_progress (hin : s.PtrInPhase) (hphase : s.phase = .dHdr) :
    s.stepDHdr.AtRest ∨ s.GoesOn s.stepDHdr := by
  simp only [State.PtrInPhase, hphase] at hin
  have hnext := ptr_succ_toNat (p := s.ptr) (by omega)
  obtain hend | ⟨u, huphase, hupending, huptr, hstep⟩ := s.stepDHdr_cases
  · exact .inl hend
  rw [hstep]
  simp only [ptr_eq_four_iff, huptr, hnext]
  split_ifs with hlast
  · obtain hend | hsum | ⟨hsome, hpay⟩ := u.enterDPay_cases
    · exact .inl hend
    · right
      rw [hsum]
      constructor <;> simp [State.PtrInPhase, State.stepsLeft, hphase, hupending, huptr, hnext] <;> omega
    · right
      rw [hpay]
      rw [ne_eq, len16_eq_zero_iff] at hsome
      constructor <;> simp [State.PtrInPhase, State.stepsLeft, hphase, hupending, huptr, hnext] <;> omega
  · right
    constructor <;> simp [State.PtrInPhase, State.stepsLeft, hphase, huphase, hupending, huptr, hnext] <;> omega

theorem State.stepDPay_progress (hin : s.PtrInPhase) (hphase : s.phase = .dPay) :
    s.stepDPay.AtRest ∨ s.GoesOn s.stepDPay := by
  simp only [State.PtrInPhase, hphase] at hin
  have hnext := ptr_succ_toNat (p := s.ptr) (by omega)
  simp only [State.stepDPay, State.absorb_ptr, hnext]
  split_ifs with hlast
  · refine (State.enterDSum_cases _).imp_right fun hsum => ?_
    rw [hsum]
    constructor <;> simp [State.PtrInPhase, State.stepsLeft, hphase, hnext] <;> omega
  · right; constructor <;> simp [State.PtrInPhase, State.stepsLeft, hphase, hnext] <;> omega

theorem State.stepDSum_goesOn (hin : s.PtrInPhase) (hphase : s.phase = .dSum) : s.GoesOn s.stepDSum := by
  simp only [State.PtrInPhase, hphase] at hin
  have hnext := ptr_succ_toNat (p := s.ptr) (by omega)
  simp only [State.stepDSum, hnext]
  split_ifs with hlast
  · constructor <;> simp [State.PtrInPhase, State.stepsLeft, hphase]
    omega
  · constructor <;> simp [State.PtrInPhase, State.stepsLeft, hphase, hnext] <;> omega

theorem State.stepDCmp_atRest (s : State) : s.stepDCmp.AtRest := by
  unfold State.stepDCmp
  split_ifs
  · exact s.raise_atRest _ _
  · exact State.completeOk_atRest _

end Phases

/-- A step of a running command ends it or brings it closer to its end (R212). -/
theorem State.advance_progress {s : State} (hrunning : s.phase ≠ .idle) (hin : s.PtrInPhase) :
    s.advance.AtRest ∨ s.GoesOn s.advance := by
  unfold State.advance
  split
  next hphase => exact absurd hphase hrunning
  next hphase => exact State.stepECheck_progress hphase
  next hphase => exact .inr (State.stepEHdr_goesOn hin hphase)
  next hphase => exact .inr (State.stepEPay_goesOn hin hphase)
  next hphase => exact State.stepESum_progress hin hphase
  next hphase => exact State.stepDHdr_progress hin hphase
  next hphase => exact State.stepDPay_progress hin hphase
  next hphase => exact .inr (State.stepDSum_goesOn hin hphase)
  next => exact .inl s.stepDCmp_atRest

/-! ### The run -/

theorem run_zero (s : State) : Sys2Proof.core.run 0 s = .next s := rfl

theorem run_succ_of_step {s t : State} (h : step s = .next t) (n : Nat) :
    Sys2Proof.core.run (n + 1) s = Sys2Proof.core.run n t := by
  have hstep : Sys2Proof.core.step s = .next t := h
  simp only [Host.Core.run, hstep]

/-- Left alone, a running command ends, by induction on the steps it has left. -/
theorem State.run_ends {s : State} (hpending : s.pending = []) (hin : s.PtrInPhase) (hrunning : s.phase ≠ .idle) :
    ∃ n, Answers (Sys2Proof.core.run n s) State.AtRest := by
  induction hleft : s.stepsLeft using Nat.strong_induction_on generalizing s with
  | _ left ih =>
    have hrun := run_succ_of_step (step_nil hpending)
    obtain hrest | hon := State.advance_progress hrunning hin
    · exact ⟨1, _, hrun 0, hrest⟩
    · obtain ⟨n, t, ht, hrest⟩ :=
        ih _ (hleft ▸ hon.stepsLeft) (hon.pending.trans hpending) hon.ptrInPhase hon.running rfl
      exact ⟨n + 1, t, (hrun n).trans ht, hrest⟩

/-- Settles O43: an idle block is there already, and a running command ends. -/
theorem everyCommandCompletes : Obligations.EveryCommandCompletes := by
  intro s hinv hpending
  by_cases hidle : s.phase = .idle
  · exact ⟨0, s, run_zero s, by simp [hinv.busy, hidle], hidle⟩
  · exact State.run_ends hpending hinv.ptrInPhase hidle

end Sys2Proof.Machine

/-! PROOFS. The reset event (R230) and how a running command can end: while a command runs, a step is the reset event,
a step of the sequencer, or nothing to the block but a host read; and the sequencer stops only by completing. -/

namespace Sys2Proof.Machine

/-! ### The reset event -/

theorem step_of_pending_reset {s : State} {rest : List HostAct} (h : s.pending = .reset :: rest) :
    step s = .next (State.resetEvent { s with pending := rest }) :=
  step_cons h

theorem State.resetEvent_cell (s : State) (space : Space) (i : Nat) : s.resetEvent.cell space i = none := by
  cases space <;> rfl

/-! ### The two completions -/

theorem State.raise_completed (s : State) (c : Command) (e : CodecError) : (s.raise c e).Completed c := by
  cases c <;> exact ⟨rfl, rfl, rfl⟩

theorem State.completeOk_completed_encode {s : State} (h : s.wo.isValid = true) : s.completeOk.Completed .encode :=
  ⟨rfl, rfl, h⟩

theorem State.completeOk_completed_decode {s : State} (h : s.fo.isValid = true) : s.completeOk.Completed .decode :=
  ⟨rfl, rfl, h⟩

/-! ### The sequencer ends a command only by completing it -/

/-- A command is running. -/
def State.Running (s : State) : Prop :=
  s.st.busy = true ∧ s.phase ≠ .idle

theorem State.running_of_command {s : State} {c : Command} (hbusy : s.st.busy = true)
    (hc : s.phase.command = some c) : s.Running :=
  ⟨hbusy, fun hidle => by simp [hidle, Phase.command] at hc⟩

theorem State.Running.congr {s t : State} (h : s.Running) (hst : t.st = s.st) (hphase : t.phase = s.phase) :
    t.Running := by
  rwa [State.Running, hst, hphase]

/-- Entering a phase of a command keeps the block running. -/
theorem State.Running.enter {s t : State} (h : s.Running) (hst : t.st = s.st) (hphase : t.phase ≠ .idle) :
    t.Running :=
  ⟨hst ▸ h.1, hphase⟩

section Phases

variable {s : State}

theorem State.stepECheck_completed_or_running (h : s.Running) :
    s.stepECheck.Completed .encode ∨ s.stepECheck.Running := by
  unfold State.stepECheck
  split_ifs
  · exact .inl (s.raise_completed _ _)
  · exact .inr (h.enter rfl (by simp))

theorem State.stepEHdr_running (h : s.Running) : s.stepEHdr.Running := by
  unfold State.stepEHdr
  dsimp only
  split_ifs
  · exact h.enter rfl (by simp)
  · exact h.enter rfl (by simp)
  · exact h.congr rfl rfl

theorem State.stepEPay_running (h : s.Running) : s.stepEPay.Running := by
  unfold State.stepEPay
  dsimp only
  split_ifs
  · exact h.enter rfl (by simp)
  · exact h.congr rfl rfl

theorem State.stepESum_completed_or_running (h : s.Running) :
    s.stepESum.Completed .encode ∨ s.stepESum.Running := by
  unfold State.stepESum
  dsimp only
  split_ifs
  · exact .inl (State.completeOk_completed_encode rfl)
  · exact .inr (h.congr rfl rfl)

theorem State.enterDSum_completed_or_running (h : s.Running) :
    s.enterDSum.Completed .decode ∨ s.enterDSum.Running := by
  unfold State.enterDSum
  split_ifs
  · exact .inl (s.raise_completed _ _)
  · exact .inr (h.enter rfl (by simp))

theorem State.enterDPay_completed_or_running (h : s.Running) :
    s.enterDPay.Completed .decode ∨ s.enterDPay.Running := by
  unfold State.enterDPay
  split_ifs
  · exact .inl (s.raise_completed _ _)
  · exact State.enterDSum_completed_or_running h
  · exact .inr (h.enter rfl (by simp))

theorem State.stepDHdr_completed_or_running (h : s.Running) :
    s.stepDHdr.Completed .decode ∨ s.stepDHdr.Running := by
  unfold State.stepDHdr
  by_cases hshort : (s.ptr = 0#17 && headerTruncated s.wi.len) = true
  · rw [if_pos hshort]
    exact .inl (s.raise_completed _ _)
  rw [if_neg hshort]
  extract_lets begun b u
  have hu : u.Running := h.congr (by simp [u, begun]; split_ifs <;> rfl) (by simp [u, begun]; split_ifs <;> rfl)
  split_ifs
  · exact State.enterDPay_completed_or_running hu
  · exact .inr hu

theorem State.stepDPay_completed_or_running (h : s.Running) :
    s.stepDPay.Completed .decode ∨ s.stepDPay.Running := by
  have habsorb : (s.absorb (s.wireByte s.ptr.toNat)).Running := h.congr rfl rfl
  unfold State.stepDPay
  dsimp only
  split_ifs
  · exact State.enterDSum_completed_or_running habsorb
  · exact .inr habsorb

theorem State.stepDSum_running (h : s.Running) : s.stepDSum.Running := by
  unfold State.stepDSum
  dsimp only
  split_ifs
  · exact h.enter rfl (by simp)
  · exact h.congr rfl rfl

theorem State.stepDCmp_completed (s : State) : s.stepDCmp.Completed .decode := by
  unfold State.stepDCmp
  split_ifs
  · exact s.raise_completed _ _
  · exact State.completeOk_completed_decode rfl

end Phases

/-- A step of the sequencer completes the running command or leaves it running (R194, R208). -/
theorem State.advance_completed_or_running {s : State} {c : Command} (hbusy : s.st.busy = true)
    (hc : s.phase.command = some c) : s.advance.Completed c ∨ s.advance.Running := by
  have hrunning := State.running_of_command hbusy hc
  unfold State.advance
  cases hphase : s.phase <;> rw [hphase] at hc <;> cases hc
  case eCheck => exact State.stepECheck_completed_or_running hrunning
  case eHdr => exact .inr (State.stepEHdr_running hrunning)
  case ePay => exact .inr (State.stepEPay_running hrunning)
  case eSum => exact State.stepESum_completed_or_running hrunning
  case dHdr => exact State.stepDHdr_completed_or_running hrunning
  case dPay => exact State.stepDPay_completed_or_running hrunning
  case dSum => exact .inr (State.stepDSum_running hrunning)
  case dCmp => exact .inl s.stepDCmp_completed

/-! ### What else can happen while a command runs -/

section Busy

variable {s t : State} (hbusy : s.st.busy = true)

include hbusy

/-- No word at a port changes a busy block (R193, R235, R88). -/
theorem State.runWord_next_of_busy {w : PortWord} (h : s.runWord w = .next t) : t = s := by
  obtain ⟨i, -, hexec, hcontrol⟩ := State.runWord_next h
  obtain hsame | ⟨-, hidle, -⟩ | ⟨-, hidle, -⟩ | ⟨hword, -⟩ | ⟨_, _, _, _, -, hidle, -⟩ := exec_next_cases hexec
  · exact hsame
  · simp [hbusy] at hidle
  · simp [hbusy] at hidle
  · exact absurd (hcontrol hword) (by simp [hbusy])
  · simp [hbusy] at hidle

/-- No register write changes a busy block (R193, R235). -/
theorem State.writeReg_next_of_busy {r : Reg} {v : Nat} (h : s.writeReg r v = .next t) : t = s := by
  obtain hsame | ⟨hidle, -⟩ | ⟨hidle, -⟩ | ⟨hidle, -⟩ := State.writeReg_next h
  · exact hsame
  all_goals simp [hbusy] at hidle

/-- No cell write changes a busy block (R235). -/
theorem State.poke_next_of_busy {space : Space} {i : Nat} {b : Byte} (h : s.poke space i b = .next t) : t = s := by
  obtain hsame | ⟨hidle, -⟩ | ⟨hidle, -⟩ := State.poke_next h
  · exact hsame
  all_goals simp [hbusy] at hidle

/-- While a command runs the host can reset the block, let the sequencer go on, or change its own readings alone. -/
theorem State.act_next_of_busy {a : HostAct} (h : s.act a = .next t) :
    a = .reset ∨ t = s.advance ∨ t = { s with reads := t.reads, draws := t.draws } := by
  cases a with
  | reset => exact .inl rfl
  | wait => exact .inr (.inl (Host.Outcome.next.inj h).symm)
  | issue w =>
    obtain rfl := State.runWord_next_of_busy hbusy h
    exact .inr (.inr rfl)
  | wr r v =>
    obtain rfl := State.writeReg_next_of_busy hbusy h
    exact .inr (.inr rfl)
  | poke space i b =>
    obtain rfl := State.poke_next_of_busy hbusy h
    exact .inr (.inr rfl)
  | rd r => exact .inr (.inr (State.readReg_next h))
  | peek space i =>
    obtain ⟨n, rfl⟩ := State.peek_next h
    exact .inr (.inr rfl)

/-- A step from a running command is the reset event, or completes the command, or leaves it running. -/
theorem step_next_of_busy {c : Command} (hc : s.phase.command = some c) (h : step s = .next t) :
    (∃ rest, s.pending = .reset :: rest) ∨ t.Completed c ∨ t.Running := by
  cases hpending : s.pending with
  | nil =>
    rw [step_nil hpending, Host.Outcome.next.injEq] at h
    exact .inr (h ▸ State.advance_completed_or_running hbusy hc)
  | cons a rest =>
    rw [step_cons hpending] at h
    obtain rfl | rfl | hread := State.act_next_of_busy (s := { s with pending := rest }) hbusy h
    · exact .inl ⟨rest, rfl⟩
    · exact .inr (State.advance_completed_or_running hbusy hc)
    · exact .inr (.inr ((State.running_of_command hbusy hc).congr (by rw [hread]) (by rw [hread])))

end Busy

/-- Settles O54: the values of the reset event, and the three outcomes of a step while a command runs, of which the last
is excluded by the premise. -/
theorem resetEventLeavesAnIdleBlock : Obligations.ResetEventLeavesAnIdleBlock := by
  refine ⟨fun s rest hpending => ?values, fun s t c hbusy hc hstep hstopped => ?ends⟩
  case values =>
    exact ⟨_, step_of_pending_reset hpending, rfl, rfl, rfl, rfl, rfl, State.resetEvent_cell _⟩
  case ends =>
    obtain hreset | hdone | ⟨hstill, hphase⟩ := step_next_of_busy hbusy hc hstep
    · exact .inl hreset
    · exact .inr hdone
    · simp [hstill, hphase] at hstopped

end Sys2Proof.Machine

/-! PROOFS. The encodings are inverse to each other (30_encoding.md): each decoder against the encoder, then O3, O4, and
the words written out (O2, O6). -/

namespace Sys2Proof

/-! ### Wire Frames (R80, R82) -/

theorem wireBytes_eq_cons (v k : Byte) (p : List Byte) (c : Sum) :
    Machine.wireBytes v k p c
      = v :: k :: (BitVec.ofNat 16 p.length).extractLsb' 8 8 :: (BitVec.ofNat 16 p.length).extractLsb' 0 8
        :: (p ++ Machine.be32 c) := rfl

/-- A payload that fits has its size in the length field (R81). -/
theorem ofNat_length_toNat {p : List Byte} (h : p.length ≤ 65535) :
    (BitVec.ofNat 16 p.length : Length).toNat = p.length := by
  rw [BitVec.toNat_ofNat]
  omega

theorem decodeWire_wireBytes (v k : Byte) {p : List Byte} (c : Sum) (h : p.length ≤ 65535) :
    decodeWire (Machine.wireBytes v k p c) = .ok (.wireframe v k p c) := by
  rw [wireBytes_eq_cons, decodeWire, Machine.fromBe16_be16, decodeBody_eq_ok_iff]
  exact ⟨p, _, _, _, _, (ofNat_length_toNat h).symm, rfl, by rw [Machine.fromBe32_be32]⟩

/-- What decodes as a Wire Frame is the layout of R80 with the fields it decodes to. -/
theorem eq_wireBytes_of_decodeWire {bytes : List Byte} {i : Instr} (h : decodeWire bytes = .ok i) :
    ∃ v k p c, i = .wireframe v k p c ∧ p.length ≤ 65535 ∧ bytes = Machine.wireBytes v k p c := by
  match bytes with
  | [] | [_] | [_, _] | [_, _, _] => simp [decodeWire] at h
  | v :: k :: hi :: lo :: rest =>
    obtain ⟨p, a, b, c, d, hp, rfl, rfl⟩ := decodeBody_eq_ok_iff.mp h
    have hlength : BitVec.ofNat 16 p.length = Machine.fromBe16 hi lo := by
      rw [hp, BitVec.ofNat_toNat, BitVec.setWidth_eq]
    refine ⟨v, k, p, _, rfl, by have := (Machine.fromBe16 hi lo).isLt; omega, ?_⟩
    rw [Machine.wireBytes, Machine.headerBytes, hlength, Machine.be16_fromBe16, Machine.be32_fromBe32]
    rfl

/-! ### Commands and control words (R86, R88) -/

theorem encode_decodeCommand (c : BitVec 2) : encode (decodeCommand c) = .command c := by
  revert c
  decide

theorem decodeCommand_wellFormed (c : BitVec 2) : (decodeCommand c).wellFormed = true := by
  revert c
  decide

/-- A control word is its `crc_op` with its `din` behind it. -/
theorem control_eq_append (cw : BitVec 10) : cw = cw.extractLsb' 8 2 ++ cw.extractLsb' 0 8 := by
  have hall : cw.extractLsb' 0 10 = cw.extractLsb' 8 2 ++ cw.extractLsb' 0 8 :=
    (BitVec.extractLsb'_append_extractLsb'_eq_extractLsb' (len₁ := 8) (len₂ := 2) rfl).symm
  rw [← hall, BitVec.extractLsb'_eq_self]

/-- Each control word is one of the four micro-operations with a `din`. -/
theorem decodeControl_cases (op : BitVec 2) (din : Byte) :
    op = 0b00#2 ∧ decodeControl (op ++ din) = .crcHold din ∨ op = 0b01#2 ∧ decodeControl (op ++ din) = .crcBit din
      ∨ op = 0b10#2 ∧ decodeControl (op ++ din) = .crcByte din
      ∨ op = 0b11#2 ∧ decodeControl (op ++ din) = .crcInit din := by
  rw [decodeControl_append]
  have hop : op = 0b00#2 ∨ op = 0b01#2 ∨ op = 0b10#2 ∨ op = 0b11#2 := by
    revert op
    decide
  rcases hop with rfl | rfl | rfl | rfl <;> simp

/-! ### The obligations -/

/-- Settles O3: row by row; the Wire Frame's length field gives its payload back. -/
theorem decodingInvertsEncoding : Obligations.DecodingInvertsEncoding := by
  intro i hwf
  have hcontrol (op : BitVec 2) (din : Byte) : decode (.control (op ++ din)) = .ok (decodeControl (op ++ din)) := rfl
  cases i with
  | nop | encode | decode | rsvd3 => rfl
  | crcHold din | crcBit din | crcByte din | crcInit din =>
    rw [encode, hcontrol, decodeControl_append]
    rfl
  | wireframe v k p c => exact decodeWire_wireBytes v k c (by simpa [Instr.wellFormed] using hwf)

/-- Settles O4: port by port. -/
theorem encodingInvertsDecoding : Obligations.EncodingInvertsDecoding := by
  intro w i h
  cases w with
  | command c =>
    obtain rfl : decodeCommand c = i := Except.ok.inj h
    exact ⟨decodeCommand_wellFormed c, encode_decodeCommand c⟩
  | control cw =>
    obtain rfl : decodeControl cw = i := Except.ok.inj h
    rw [control_eq_append cw]
    obtain ⟨hop, hi⟩ | ⟨hop, hi⟩ | ⟨hop, hi⟩ | ⟨hop, hi⟩ :=
      decodeControl_cases (cw.extractLsb' 8 2) (cw.extractLsb' 0 8) <;> rw [hi, hop] <;> exact ⟨rfl, rfl⟩
  | wire bytes =>
    obtain ⟨v, k, p, c, rfl, hp, rfl⟩ := eq_wireBytes_of_decodeWire h
    exact ⟨by simpa [Instr.wellFormed] using hp, rfl⟩

/-- Settles O2: the words are closed terms. -/
theorem tableWordsDecode : Obligations.TableWordsDecode := by
  unfold Obligations.TableWordsDecode
  decide

/-- Settles O6: six closed equations, then one case per status code. -/
theorem statusCodesAreNumberedZeroToFive : Obligations.StatusCodesAreNumberedZeroToFive := by
  refine ⟨rfl, rfl, rfl, rfl, rfl, rfl, fun c => ?_⟩
  cases c with
  | ok => decide
  | err e => cases e <;> decide

end Sys2Proof

/-! PROOFS. The forms of the byte step (40_crc32.md sections 4 and 5): the generator is linear, so that its forms agree
once they agree on the low byte of the register; and it loses no bit of a message (O14 to O19). -/

namespace Sys2Proof.Machine

/-! ### Linearity (R121) -/

theorem crcBit_xor (c1 c2 : Sum) (b1 b2 : Bool) : crcBit (c1 ^^^ c2) (b1 ^^ b2) = crcBit c1 b1 ^^^ crcBit c2 b2 := by
  apply BitVec.eq_of_getLsbD_eq
  intro j _
  simp only [BitVec.getLsbD_xor, crcBit_getLsbD]
  cases poly.getLsbD j
  · simp
  · simp only [Bool.true_and, Bool.xor_assoc, Bool.xor_left_comm, Bool.xor_comm]

theorem crcByte_xor (c1 c2 : Sum) (d1 d2 : Byte) :
    crcByte (c1 ^^^ c2) (d1 ^^^ d2) = crcByte c1 d1 ^^^ crcByte c2 d2 := by
  simp only [crcByte_eq, BitVec.getLsbD_xor, crcBit_xor]

/-- What holds of the bytes with one bit or none and is closed under exclusive-or holds of every byte. -/
theorem byte_xor_induction {P : Byte → Prop} (hzero : P 0#8) (hbit : ∀ k, k < 8 → P (BitVec.twoPow 8 k))
    (hxor : ∀ a b, P a → P b → P (a ^^^ b)) (m : Byte) : P m := by
  have hpart (k : Nat) (hk : k < 8) : P (m &&& BitVec.twoPow 8 k) := by
    rw [BitVec.and_twoPow]
    split
    · exact hbit k hk
    · exact hzero
  have hparts : ∀ m : Byte, m = (List.range 8).foldl (fun acc k => acc ^^^ (m &&& BitVec.twoPow 8 k)) 0#8 := by
    decide +kernel
  rw [hparts m]
  exact List.foldlRecOn _ _ hzero fun acc hacc k hk => hxor _ _ hacc (hpart k (List.mem_range.mp hk))

/-! ### The shift with feedback (R117) -/

/-- The loop body of R117 is the bit step without a message bit. -/
theorem crcShift_eq_crcBit (t : Sum) : crcShift t = crcBit t false := by
  rw [crcShift, crcBit, Bool.xor_false]

theorem crcShift8_eq_crcByte (t : Sum) : crcShift8 t = crcByte t 0#8 := by
  simp only [crcShift8, crcShift_eq_crcBit, crcByte_eq, BitVec.getLsbD_zero]

theorem crcShift8_xor (t u : Sum) : crcShift8 (t ^^^ u) = crcShift8 t ^^^ crcShift8 u := by
  simp only [crcShift8_eq_crcByte, ← crcByte_xor, BitVec.xor_self]

theorem crcShift_of_low_bit_clear {t : Sum} (h : t.getLsbD 0 = false) : crcShift t = t >>> 1 := by
  rw [crcShift, h, if_neg Bool.false_ne_true, BitVec.xor_zero]

/-- Eight steps without feedback are a shift by eight. -/
theorem crcShift8_of_low_byte_clear {t : Sum} (h : ∀ j, j < 8 → t.getLsbD j = false) : crcShift8 t = t >>> 8 := by
  have hshift (n : Nat) (hn : n < 8) : crcShift (t >>> n) = t >>> (n + 1) := by
    rw [crcShift_of_low_bit_clear (by rw [BitVec.getLsbD_ushiftRight]; exact h n hn), BitVec.shiftRight_add]
  rw [crcShift8, show crcShift t = t >>> 1 from crcShift_of_low_bit_clear (h 0 (by decide)), hshift 1 (by decide),
    hshift 2 (by decide), hshift 3 (by decide), hshift 4 (by decide), hshift 5 (by decide), hshift 6 (by decide),
    hshift 7 (by decide)]

/-! ### The exclusive-or-first form (R117) -/

/-- A byte absorbed into a register that holds just that byte leaves no bit. -/
theorem crcByte_setWidth_self (d : Byte) : crcByte (d.setWidth 32) d = 0#32 := by
  induction d using byte_xor_induction with
  | hzero => decide
  | hbit k hk =>
    revert k
    decide
  | hxor a b ha hb => rw [BitVec.setWidth_xor, crcByte_xor, ha, hb, BitVec.xor_self]

theorem crcShift8_xor_byte (c : Sum) (d : Byte) : crcShift8 (c ^^^ d.setWidth 32) = crcByte c d :=
  calc crcShift8 (c ^^^ d.setWidth 32)
    _ = crcByte (c ^^^ d.setWidth 32) (d ^^^ d) := by rw [crcShift8_eq_crcByte, BitVec.xor_self]
    _ = crcByte c d := by rw [crcByte_xor, crcByte_setWidth_self, BitVec.xor_zero]

/-! ### The table form (R119) -/

/-- Eight shifts: the low byte by the table, the rest moves down. -/
theorem crcShift8_eq_table (t : Sum) : crcShift8 t = crcTable (t.setWidth 8) ^^^ (t >>> 8) := by
  have hsplit : t = (t.setWidth 8).setWidth 32 ^^^ (t ^^^ (t.setWidth 8).setWidth 32) := by
    rw [BitVec.xor_comm t, ← BitVec.xor_assoc, BitVec.xor_self, BitVec.zero_xor]
  have hclear : ∀ j, j < 8 → (t ^^^ (t.setWidth 8).setWidth 32).getLsbD j = false := by
    intro j hj
    simp [hj, show j < 32 by omega]
  have hrest : (t ^^^ (t.setWidth 8).setWidth 32) >>> 8 = t >>> 8 := by
    apply BitVec.eq_of_getLsbD_eq
    intro j _
    simp [BitVec.getLsbD_setWidth]
  conv_lhs => rw [hsplit]
  rw [crcShift8_xor, crcShift8_of_low_byte_clear hclear, hrest, crcTable]

theorem crcByteTable_eq_crcByte (c : Sum) (d : Byte) : crcByteTable c d = crcByte c d := by
  have hrest : (c ^^^ d.setWidth 32) >>> 8 = c >>> 8 := by
    apply BitVec.eq_of_getLsbD_eq
    intro j _
    simp [BitVec.getLsbD_setWidth]
  rw [← crcShift8_xor_byte, crcShift8_eq_table, hrest, crcByteTable]

/-! ### The parallel form (R118) -/

theorem crcTable_xor (m m' : Byte) : crcTable (m ^^^ m') = crcTable m ^^^ crcTable m' := by
  rw [crcTable, BitVec.setWidth_xor, crcShift8_xor, crcTable, crcTable]

theorem foldl_xor_distrib (f g : Nat → Bool) (l : List Nat) (a b : Bool) :
    l.foldl (fun acc k => acc ^^ (f k ^^ g k)) (a ^^ b)
      = (l.foldl (fun acc k => acc ^^ f k) a ^^ l.foldl (fun acc k => acc ^^ g k) b) := by
  induction l generalizing a b with
  | nil => rfl
  | cons k rest ih =>
    have hhead : ((a ^^ b) ^^ (f k ^^ g k)) = ((a ^^ f k) ^^ (b ^^ g k)) := by
      simp only [Bool.xor_assoc, Bool.xor_left_comm]
    rw [List.foldl_cons, hhead, ih, List.foldl_cons, List.foldl_cons]

/-- R118's equations for a byte alone, without the shifted register: both sides are linear in the byte. -/
theorem crcTable_getLsbD (m : Byte) {j : Nat} (hj : j < 32) :
    (crcTable m).getLsbD j = (parallelTaps.getD j []).foldl (fun acc k => acc ^^ m.getLsbD k) false := by
  induction m using byte_xor_induction with
  | hzero => revert j; decide
  | hbit n hn =>
    revert j n
    decide +kernel
  | hxor a b ha hb =>
    simp only [crcTable_xor, BitVec.getLsbD_xor, ha, hb]
    exact (foldl_xor_distrib _ _ _ false false).symm

theorem parallelTaps_lt {j k : Nat} (hj : j < 32) (h : k ∈ parallelTaps.getD j []) : k < 8 := by
  have htaps : ∀ j, j < 32 → ∀ k ∈ parallelTaps.getD j [], k < 8 := by decide
  exact htaps j hj k h

theorem foldl_xor_congr {f g : Nat → Bool} (l : List Nat) (acc : Bool) (h : ∀ k ∈ l, f k = g k) :
    l.foldl (fun acc k => acc ^^ f k) acc = l.foldl (fun acc k => acc ^^ g k) acc :=
  List.foldl_ext _ _ _ fun acc k hk => by rw [h k hk]

theorem parallelBit_eq_table (c : Sum) (d : Byte) {j : Nat} (hj : j < 32) :
    parallelBit c d j = (crcByteTable c d).getLsbD j := by
  have htap (k : Nat) (hk : k ∈ parallelTaps.getD j []) :
      (c.getLsbD k ^^ d.getLsbD k) = ((c ^^^ d.setWidth 32).setWidth 8).getLsbD k := by
    have := parallelTaps_lt hj hk
    simp [show k < 8 by omega, show k < 32 by omega]
  have hshifted : (decide (j < 24) && c.getLsbD (j + 8)) = (c >>> 8).getLsbD j := by
    rw [BitVec.getLsbD_ushiftRight, Nat.add_comm 8 j]
    by_cases h : j < 24
    · simp [h]
    · simp [h, BitVec.getLsbD_of_ge c (j + 8) (by omega)]
  rw [parallelBit, foldl_xor_congr _ _ htap, hshifted, ← crcTable_getLsbD _ hj, crcByteTable, BitVec.getLsbD_xor]

/-! ### No bit of a message is lost -/

/-- With the same register, different message bytes leave different registers. -/
theorem crcByte_data_injective (c : Sum) {d d' : Byte} (h : crcByte c d = crcByte c d') : d = d' := by
  rw [← crcShift8_xor_byte, ← crcShift8_xor_byte, crcShift8_eq_crcByte, crcShift8_eq_crcByte] at h
  have hwide : d.setWidth 32 = d'.setWidth 32 := BitVec.xor_right_inj c |>.mp (crcByte_injective _ h)
  have := congrArg (BitVec.setWidth 8) hwide
  simpa using this

theorem foldl_crcByte_injective (message : List Byte) {c c' : Sum}
    (h : message.foldl crcByte c = message.foldl crcByte c') : c = c' := by
  induction message generalizing c c' with
  | nil => exact h
  | cons d rest ih => exact crcByte_injective d (ih h)

/-- Messages that differ in exactly one byte have different checksums. -/
theorem crc32_ne_of_byte_ne {b b' : Byte} (before after : List Byte) (h : b ≠ b') :
    crc32 (before ++ b :: after) ≠ crc32 (before ++ b' :: after) := by
  intro heq
  have hreg := crcOut_injective heq
  rw [crcRegister_append, crcRegister_append, List.foldl_cons, List.foldl_cons] at hreg
  exact h (crcByte_data_injective _ (foldl_crcByte_injective after hreg))

theorem byte_ne_flip (b : Byte) {k : Nat} (hk : k < 8) : b ≠ b ^^^ (1#8 <<< k) := by
  intro h
  have hbit := congrArg (fun x => x.getLsbD k) h
  simp [hk] at hbit

/-! ### The obligations -/

/-- Settles O14: the register with the byte in it, shifted without message bits. -/
theorem xorFirstFormAgrees : Obligations.XorFirstFormAgrees :=
  crcShift8_xor_byte

/-- Settles O15: bit by bit through the table form. -/
theorem parallelFormAgrees : Obligations.ParallelFormAgrees := by
  intro c d
  rw [← crcByteTable_eq_crcByte]
  apply BitVec.eq_of_getLsbD_eq
  intro j hj
  rw [crcByteParallel, BitVec.getLsbD_ofFnLE, dif_pos hj, parallelBit_eq_table c d hj]

/-- Settles O16: the table form is eight shifts of the register with the byte in it; the five entries are evaluated. -/
theorem tableFormAgrees : Obligations.TableFormAgrees :=
  ⟨crcByteTable_eq_crcByte, by decide⟩

/-- Settles O17: both datapaths make eight bit steps. -/
theorem datapathMakesNoDifference : Obligations.DatapathMakesNoDifference := by
  intro datapath message
  have hstep : byteStep datapath = crcByte := by
    funext c d
    cases datapath with
    | serial => exact (crcByte_eq c d).symm
    | parallel8 => rfl
  rw [hstep, crcRegister]

/-- Settles O18: each bit of a bit step is linear, and a byte step is eight of them. -/
theorem generatorIsLinear : Obligations.GeneratorIsLinear :=
  ⟨crcBit_xor, crcByte_xor⟩

/-- Settles O19: a flipped bit makes another byte. -/
theorem singleBitErrorChangesCrc32 : Obligations.SingleBitErrorChangesCrc32 :=
  fun before after b _ hk => crc32_ne_of_byte_ne before after (byte_ne_flip b hk)

end Sys2Proof.Machine

/-! PROOFS. What a step can do. First what the operations of a command leave alone and keep canonical, up to the two
atomic commands and a step of the sequencer; then everything a step can make of a state, and the statements that follow
from that list alone (O22, O31, O45 to O47, O60). -/

namespace Sys2Proof.Machine

/-! ### Canonical records (R50) -/

theorem Output.cells_wf {α : Type} {memory : α → Memory} {o : Output α} (h : o.canonical memory) :
    Memory.wf o.cells = true := by
  cases o with
  | building cells => exact h
  | absent | valid r => rfl

theorem Output.pass_canonical {α : Type} {memory : α → Memory} {o : Output α} (h : o.canonical memory) (i : Nat)
    (b : Byte) : (o.pass i b).canonical memory := by
  cases o with
  | building cells => exact Memory.wf_write i b h
  | absent | valid r => rfl

theorem Memory.risesFrom_drop {m : Memory} {low : Nat} (h : Memory.risesFrom low m = true) (n : Nat) :
    Memory.risesFrom (low + n) (m.drop n) = true := by
  induction n generalizing m low with
  | zero => exact h
  | succ n ih =>
    cases m with
    | nil => rfl
    | cons head rest =>
      obtain ⟨a, b⟩ := head
      simp only [Memory.risesFrom, Bool.and_eq_true, decide_eq_true_eq] at h
      exact Memory.risesFrom_mono (ih h.2) (by omega)

theorem Memory.risesFrom_shiftDown {m : Memory} {low n : Nat} (h : Memory.risesFrom (low + n) m = true) :
    Memory.risesFrom low (m.map fun cell => (cell.1 - n, cell.2)) = true := by
  induction m generalizing low with
  | nil => rfl
  | cons head rest ih =>
    obtain ⟨a, b⟩ := head
    simp only [Memory.risesFrom, Bool.and_eq_true, decide_eq_true_eq] at h
    have hrest : Memory.risesFrom (a - n + 1 + n) rest = true := Memory.risesFrom_mono h.2 (by omega)
    simp only [List.map_cons, Memory.risesFrom, Bool.and_eq_true, decide_eq_true_eq]
    exact ⟨by omega, ih hrest⟩

/-- The payload `DECODE` takes from the bytes it noted is canonical (R169). -/
theorem State.notedFrame_payload_wf {s : State} (h : s.fo.canonical FrameOut.payload) :
    Memory.wf s.notedFrame.payload = true :=
  Memory.risesFrom_shiftDown (Memory.risesFrom_drop (Output.cells_wf h) 4)

theorem Memory.wf_nil : Memory.wf [] = true := rfl

theorem State.Canonical.wo {s : State} (h : s.Canonical) : s.wo.canonical WireOut.bytes := by
  obtain ⟨-, -, -, -, hwo, -⟩ := h
  exact hwo

theorem State.Canonical.fo {s : State} (h : s.Canonical) : s.fo.canonical FrameOut.payload := by
  obtain ⟨-, -, -, -, -, hfo⟩ := h
  exact hfo

/-! ### What the operations of a command leave alone -/

/-- `t` comes from `s` by an operation of command `c`: the inputs, the other command's record and the host's side are
as before, `ST` changes only to end the command, and the memories stay canonical. -/
structure State.WrittenBy (c : Command) (s t : State) : Prop where
  fi : t.fi = s.fi
  wi : t.wi = s.wi
  wo : c = .decode → t.wo = s.wo
  fo : c = .encode → t.fo = s.fo
  sumrx : c = .encode → t.sumrx = s.sumrx
  pending : t.pending = s.pending
  reads : t.reads = s.reads
  epoch : t.epoch = s.epoch
  draws : t.draws = s.draws
  st : t.st = s.st ∨ t.st.busy = false
  canonical : s.Canonical → t.Canonical

theorem State.WrittenBy.trans {c : Command} {s t u : State} (h : s.WrittenBy c t) (h' : t.WrittenBy c u) :
    s.WrittenBy c u where
  fi := h'.fi.trans h.fi
  wi := h'.wi.trans h.wi
  wo hc := (h'.wo hc).trans (h.wo hc)
  fo hc := (h'.fo hc).trans (h.fo hc)
  sumrx hc := (h'.sumrx hc).trans (h.sumrx hc)
  pending := h'.pending.trans h.pending
  reads := h'.reads.trans h.reads
  epoch := h'.epoch.trans h.epoch
  draws := h'.draws.trans h.draws
  st := by
    obtain heq | hend := h'.st
    · exact h.st.imp heq.trans (heq ▸ ·)
    · exact .inr hend
  canonical hs := h'.canonical (h.canonical hs)

section Operations

variable (s : State)

theorem State.writtenBy_registers (c : Command) (crc : Sum) (phase : Phase) (ptr : Ptr) (len16 : Length) :
    s.WrittenBy c { s with crc := crc, phase := phase, ptr := ptr, len16 := len16 } :=
  ⟨rfl, rfl, fun _ => rfl, fun _ => rfl, fun _ => rfl, rfl, rfl, rfl, rfl, .inl rfl, id⟩

theorem State.writtenBy_refl (c : Command) : s.WrittenBy c s :=
  s.writtenBy_registers c s.crc s.phase s.ptr s.len16

theorem State.writtenBy_sumrx (sumrx : Sum) : s.WrittenBy .decode { s with sumrx := sumrx } :=
  ⟨rfl, rfl, fun _ => rfl, fun _ => rfl, nofun, rfl, rfl, rfl, rfl, .inl rfl, id⟩

theorem State.writtenBy_wo {o : Output WireOut} (ho : s.Canonical → o.canonical WireOut.bytes) :
    s.WrittenBy .encode { s with wo := o } := by
  refine ⟨rfl, rfl, nofun, fun _ => rfl, fun _ => rfl, rfl, rfl, rfl, rfl, .inl rfl, fun hs => ?_⟩
  have ho' := ho hs
  obtain ⟨hfi, hfiBound, hwi, hwiBound, -, hfo⟩ := hs
  exact ⟨hfi, hfiBound, hwi, hwiBound, ho', hfo⟩

theorem State.writtenBy_fo {o : Output FrameOut} (ho : s.Canonical → o.canonical FrameOut.payload) :
    s.WrittenBy .decode { s with fo := o } := by
  refine ⟨rfl, rfl, fun _ => rfl, nofun, fun _ => rfl, rfl, rfl, rfl, rfl, .inl rfl, fun hs => ?_⟩
  have ho' := ho hs
  obtain ⟨hfi, hfiBound, hwi, hwiBound, hwo, -⟩ := hs
  exact ⟨hfi, hfiBound, hwi, hwiBound, hwo, ho'⟩

theorem State.writtenBy_wo_valid (len : Ptr) {m : Memory} (hm : s.Canonical → Memory.wf m = true) :
    s.WrittenBy .encode { s with wo := .valid { len := len, bytes := m } } :=
  s.writtenBy_wo hm

theorem State.writtenBy_fo_valid {r : FrameOut} (hr : s.Canonical → Memory.wf r.payload = true) :
    s.WrittenBy .decode { s with fo := .valid r } :=
  s.writtenBy_fo hr

theorem State.writtenBy_finish (c : Command) (code : StatusCode) : s.WrittenBy c (s.finish code) :=
  ⟨rfl, rfl, fun _ => rfl, fun _ => rfl, fun _ => rfl, rfl, rfl, rfl, rfl, .inr rfl, id⟩

theorem State.writtenBy_completeOk (c : Command) : s.WrittenBy c s.completeOk :=
  s.writtenBy_finish c .ok

theorem State.writtenBy_raise (c : Command) (e : CodecError) : s.WrittenBy c (s.raise c e) := by
  cases c with
  | encode => exact (s.writtenBy_wo (o := .absent) fun _ => trivial).trans (State.writtenBy_finish _ _ _)
  | decode => exact (s.writtenBy_fo (o := .absent) fun _ => trivial).trans (State.writtenBy_finish _ _ _)

theorem State.writtenBy_emit (b : Byte) : s.WrittenBy .encode (s.emit b) :=
  (s.writtenBy_wo fun hs => Output.pass_canonical hs.wo s.ptr.toNat b).trans
    (State.writtenBy_registers _ _ _ _ _ _)

theorem State.writtenBy_emit_feed (b : Byte) : s.WrittenBy .encode ((s.emit b).feed b) :=
  (s.writtenBy_emit b).trans (State.writtenBy_registers _ _ _ _ _ _)

theorem State.writtenBy_absorb (b : Byte) : s.WrittenBy .decode (s.absorb b) :=
  (s.writtenBy_fo fun hs => Output.pass_canonical hs.fo s.ptr.toNat b).trans
    (State.writtenBy_registers _ _ _ _ _ _)

theorem State.writtenBy_noteLength (c : Command) (i : Nat) (b : Byte) : s.WrittenBy c (s.noteLength i b) := by
  unfold State.noteLength
  split_ifs
  · exact s.writtenBy_registers _ _ _ _ _
  · exact s.writtenBy_registers _ _ _ _ _
  · exact s.writtenBy_refl _

end Operations

/-! ### The atomic commands and the sequencer -/

/-- At `PTR = 0` the record and the generator begin anew (R177). -/
def State.begun (s : State) : State :=
  if s.ptr = 0#17 then { s with crc := crcInitValue, fo := .building [] } else s

/-- One header byte has been read (R177). -/
def State.headerByteRead (s : State) : State :=
  (s.begun.absorb (s.wireByte s.ptr.toNat)).noteLength s.ptr.toNat (s.wireByte s.ptr.toNat)

theorem State.stepDHdr_eq (s : State) :
    s.stepDHdr =
      if s.ptr = 0#17 && headerTruncated s.wi.len then s.raise .decode .truncatedHeader
      else if s.headerByteRead.ptr = 4#17 then s.headerByteRead.enterDPay else s.headerByteRead := rfl

section Steps

variable (s : State)

theorem State.marshal_writtenBy : s.WrittenBy .encode s.marshal := by
  by_cases hbig : 65535 < s.fi.len
  · rw [State.marshal_of_oversized hbig]
    exact s.writtenBy_raise _ _
  · rw [State.marshal_of_fits (Nat.le_of_not_lt hbig)]
    refine State.WrittenBy.trans ?_ (State.writtenBy_completeOk _ _)
    exact (s.writtenBy_wo_valid _ fun _ => Memory.wf_ofBytes _ _).trans (State.writtenBy_registers _ _ _ s.phase _ _)

theorem State.consumed_writtenBy (n : Nat) : s.WrittenBy .decode (s.consumed n) :=
  s.writtenBy_registers _ _ s.phase _ _

theorem State.compared_writtenBy : s.WrittenBy .decode s.compared :=
  ((s.consumed_writtenBy (4 + s.lengthField)).trans
    (State.writtenBy_sumrx _ (s.wireChecksum s.lengthField))).trans (State.writtenBy_registers _ _ _ s.phase _ _)

theorem State.parse_writtenBy : s.WrittenBy .decode s.parse := by
  by_cases hheader : s.wi.len < 4
  · rw [State.parse_of_short_header hheader]
    exact (s.writtenBy_registers _ s.crc s.phase _ s.len16).trans (State.writtenBy_raise _ _ _)
  by_cases hpayload : s.wi.len - 4 < s.lengthField
  · rw [State.parse_of_short_payload (by omega) hpayload]
    exact (s.consumed_writtenBy _).trans (State.writtenBy_raise _ _ _)
  by_cases hchecksum : s.wi.len - 4 - s.lengthField < 4
  · rw [State.parse_of_short_checksum (by omega) (by omega) hchecksum]
    exact (s.consumed_writtenBy _).trans (State.writtenBy_raise _ _ _)
  rw [State.parse_of_complete (by omega)]
  split_ifs
  · refine State.WrittenBy.trans ?_ (State.writtenBy_completeOk _ _)
    exact s.compared_writtenBy.trans (State.writtenBy_fo_valid _ fun _ => Memory.wf_ofBytes _ _)
  · exact s.compared_writtenBy.trans (State.writtenBy_raise _ _ _)

theorem State.stepECheck_writtenBy : s.WrittenBy .encode s.stepECheck := by
  unfold State.stepECheck
  split_ifs
  · exact s.writtenBy_raise _ _
  · exact (s.writtenBy_wo (o := .building []) fun _ => Memory.wf_nil).trans (State.writtenBy_registers _ _ _ _ _ _)

theorem State.stepEHdr_writtenBy : s.WrittenBy .encode s.stepEHdr := by
  have hpass := s.writtenBy_emit_feed (s.headerByte s.ptr.toNat)
  unfold State.stepEHdr
  dsimp only
  split_ifs
  · exact hpass.trans (State.writtenBy_registers _ _ _ _ _ _)
  · exact hpass.trans (State.writtenBy_registers _ _ _ _ _ _)
  · exact hpass

theorem State.stepEPay_writtenBy : s.WrittenBy .encode s.stepEPay := by
  have hpass := s.writtenBy_emit_feed (s.payloadByte (s.ptr.toNat - 4))
  unfold State.stepEPay
  dsimp only
  split_ifs
  · exact hpass.trans (State.writtenBy_registers _ _ _ _ _ _)
  · exact hpass

theorem State.stepESum_writtenBy : s.WrittenBy .encode s.stepESum := by
  have hpass := s.writtenBy_emit (s.checksumByte (s.ptr.toNat - 4 - s.len16.toNat))
  unfold State.stepESum
  dsimp only
  split_ifs
  · exact (hpass.trans (State.writtenBy_wo_valid _ _ fun hs => Output.cells_wf hs.wo)).trans
      (State.writtenBy_finish _ _ _)
  · exact hpass

theorem State.enterDSum_writtenBy : s.WrittenBy .decode s.enterDSum := by
  unfold State.enterDSum
  split_ifs
  · exact s.writtenBy_raise _ _
  · exact s.writtenBy_registers _ _ _ _ _

theorem State.enterDPay_writtenBy : s.WrittenBy .decode s.enterDPay := by
  unfold State.enterDPay
  split_ifs
  · exact s.writtenBy_raise _ _
  · exact s.enterDSum_writtenBy
  · exact s.writtenBy_registers _ _ _ _ _

theorem State.begun_writtenBy : s.WrittenBy .decode s.begun := by
  unfold State.begun
  split_ifs
  · exact (s.writtenBy_fo (o := .building []) fun _ => Memory.wf_nil).trans (State.writtenBy_registers _ _ _ _ _ _)
  · exact s.writtenBy_refl _

theorem State.headerByteRead_writtenBy : s.WrittenBy .decode s.headerByteRead :=
  (s.begun_writtenBy.trans (State.writtenBy_absorb _ _)).trans (State.writtenBy_noteLength _ _ _ _)

theorem State.stepDHdr_writtenBy : s.WrittenBy .decode s.stepDHdr := by
  rw [State.stepDHdr_eq]
  split_ifs
  · exact s.writtenBy_raise _ _
  · exact s.headerByteRead_writtenBy.trans (State.enterDPay_writtenBy _)
  · exact s.headerByteRead_writtenBy

theorem State.stepDPay_writtenBy : s.WrittenBy .decode s.stepDPay := by
  have hpass := s.writtenBy_absorb (s.wireByte s.ptr.toNat)
  unfold State.stepDPay
  dsimp only
  split_ifs
  · exact hpass.trans (State.enterDSum_writtenBy _)
  · exact hpass

theorem State.stepDSum_writtenBy : s.WrittenBy .decode s.stepDSum := by
  have hpass := s.writtenBy_sumrx (s.sumrx.extractLsb' 0 24 ++ s.wireByte s.ptr.toNat)
  unfold State.stepDSum
  dsimp only
  split_ifs
  · exact hpass.trans (State.writtenBy_registers _ _ _ _ _ _)
  · exact hpass.trans (State.writtenBy_registers _ _ _ s.phase _ _)

theorem State.stepDCmp_writtenBy : s.WrittenBy .decode s.stepDCmp := by
  unfold State.stepDCmp
  split_ifs
  · exact s.writtenBy_raise _ _
  · exact (s.writtenBy_fo_valid fun hs => State.notedFrame_payload_wf hs.fo).trans (State.writtenBy_finish _ _ _)

end Steps

/-- A step of the sequencer is an operation of the running command; an idle block stays as it is. -/
theorem State.advance_writtenBy (s : State) :
    (s.phase = .idle ∧ s.advance = s) ∨ ∃ c, s.phase.command = some c ∧ s.WrittenBy c s.advance := by
  unfold State.advance
  cases s.phase with
  | idle => exact .inl ⟨rfl, rfl⟩
  | eCheck => exact .inr ⟨_, rfl, s.stepECheck_writtenBy⟩
  | eHdr => exact .inr ⟨_, rfl, s.stepEHdr_writtenBy⟩
  | ePay => exact .inr ⟨_, rfl, s.stepEPay_writtenBy⟩
  | eSum => exact .inr ⟨_, rfl, s.stepESum_writtenBy⟩
  | dHdr => exact .inr ⟨_, rfl, s.stepDHdr_writtenBy⟩
  | dPay => exact .inr ⟨_, rfl, s.stepDPay_writtenBy⟩
  | dSum => exact .inr ⟨_, rfl, s.stepDSum_writtenBy⟩
  | dCmp => exact .inr ⟨_, rfl, s.stepDCmp_writtenBy⟩

theorem State.advance_canonical {s : State} (h : s.Canonical) : s.advance.Canonical := by
  obtain ⟨-, hsame⟩ | ⟨c, -, hstep⟩ := s.advance_writtenBy
  · rwa [hsame]
  · exact hstep.canonical h

/-! ### Everything a step can make of a state -/

/-- The host wrote an input register, an input cell or a presented Wire Frame (R32, R234). -/
structure State.InputsWritten (s t : State) : Prop where
  rest : t = { s with fi := t.fi, wi := t.wi }
  canonical : s.Canonical → t.Canonical
  frameLen : s.fi.len < 2 ^ Config.lenw → t.fi.len < 2 ^ Config.lenw
  wireLen : s.wi.len < 2 ^ Config.lenw → t.wi.len < 2 ^ Config.lenw

/-- The host's actions that write an input. -/
def HostAct.WritesInput (a : HostAct) : Prop :=
  (∃ r v, a = .wr r v) ∨ (∃ space i b, a = .poke space i b) ∨ ∃ bytes, a = .issue (.wire bytes)

/-- What a step can make of a state from which the host's next action `a`, if there is one, has been taken off. -/
inductive State.Becomes (a : Option HostAct) (s : State) : State → Prop where
  /-- Nothing happens to the block; the host may have read. -/
  | same {t : State} (h : t = { s with reads := t.reads, draws := t.draws }) : Becomes a s t
  /-- The sequencer makes a step. -/
  | advance : Becomes a s s.advance
  /-- The reset event. -/
  | reset (ha : a = some .reset) : Becomes a s s.resetEvent
  /-- An atomic `ENCODE`. -/
  | marshal (ha : a = some (.issue (encode .encode))) (hidle : s.st.busy = false) : Becomes a s s.marshal
  /-- An atomic `DECODE`. -/
  | parse (ha : a = some (.issue (encode .decode))) (hidle : s.st.busy = false) (hcap : s.wi.len ≤ Config.wiCap) :
    Becomes a s s.parse
  /-- A control word. -/
  | control (hidle : s.st.busy = false) (crc : Sum) : Becomes a s { s with crc := crc }
  /-- A write of the inputs. -/
  | input {t : State} {w : HostAct} (ha : a = some w) (hw : w.WritesInput) (hidle : s.st.busy = false)
    (h : s.InputsWritten t) : Becomes a s t
  /-- `ENCODE` is accepted. -/
  | startEncode (hidle : s.st.busy = false) : Becomes a s s.startEncode
  /-- `DECODE` is accepted. -/
  | startDecode (hidle : s.st.busy = false) (hcap : s.wi.len ≤ Config.wiCap) : Becomes a s s.startDecode

section Becomes

variable {s t : State}

theorem State.writeReg_becomes {r : Reg} {v : Nat} (h : s.writeReg r v = .next t) :
    State.Becomes (some (.wr r v)) s t := by
  have hwrites : HostAct.WritesInput (.wr r v) := .inl ⟨r, v, rfl⟩
  obtain rfl | ⟨hidle, hwrite⟩ | ⟨hidle, rfl⟩ | ⟨hidle, hcap, rfl⟩ := State.writeReg_next h
  · exact .same rfl
  · refine .input rfl hwrites hidle ?_
    obtain ⟨b, rfl⟩ | ⟨b, rfl⟩ | ⟨hv, rfl⟩ | ⟨hv, rfl⟩ := hwrite
    · exact ⟨rfl, id, id, id⟩
    · exact ⟨rfl, id, id, id⟩
    · exact ⟨rfl, id, fun _ => hv, id⟩
    · exact ⟨rfl, id, id, fun _ => hv⟩
  · exact .startEncode hidle
  · exact .startDecode hidle hcap

theorem State.poke_becomes {space : Space} {i : Nat} {b : Byte} (h : s.poke space i b = .next t) :
    State.Becomes (some (.poke space i b)) s t := by
  have hwrites : HostAct.WritesInput (.poke space i b) := .inr (.inl ⟨space, i, b, rfl⟩)
  obtain rfl | ⟨hidle, -, hi, rfl⟩ | ⟨hidle, -, hi, rfl⟩ := State.poke_next h
  · exact .same rfl
  · refine .input rfl hwrites hidle ⟨rfl, ?_, id, id⟩
    rintro ⟨hfi, hfiBound, hrest⟩
    exact ⟨Memory.wf_write i b hfi, Memory.below_write b hfiBound hi, hrest⟩
  · refine .input rfl hwrites hidle ⟨rfl, ?_, id, id⟩
    rintro ⟨hfi, hfiBound, hwi, hwiBound, hrest⟩
    exact ⟨hfi, hfiBound, Memory.wf_write i b hwi, Memory.below_write b hwiBound hi, hrest⟩

/-- Presenting a sequence that fits `WI.bytes`. -/
theorem State.present_inputsWritten {bytes : List Byte} (h : bytes.length ≤ Config.wiCap) :
    s.InputsWritten (s.present bytes) := by
  refine ⟨rfl, ?_, id, fun _ => lt_of_le_of_lt h wiCap_bounds.2⟩
  rintro ⟨hfi, hfiBound, hwi, hwiBound, hrest⟩
  exact ⟨hfi, hfiBound, Memory.wf_writeBytes _ _ hwi, Memory.below_writeBytes _ hwiBound (by omega), hrest⟩

theorem State.runWord_becomes {w : PortWord} (h : s.runWord w = .next t) : State.Becomes (some (.issue w)) s t := by
  obtain ⟨i, hdecode, hexec, hcontrol⟩ := State.runWord_next h
  obtain ⟨-, rfl⟩ := encodingInvertsDecoding w i hdecode
  obtain rfl | ⟨rfl, hidle, rfl⟩ | ⟨rfl, hidle, hcap, rfl⟩ | ⟨hword, hcrc⟩ | ⟨v, k, p, c, rfl, hidle, hp, rfl⟩ :=
    exec_next_cases hexec
  · exact .same rfl
  · exact .marshal rfl hidle
  · exact .parse rfl hidle hcap
  · rw [hcrc]
    exact .control (hcontrol hword) _
  · have hfits : (wireBytes v k p c).length ≤ Config.wiCap := by
      have := wiCap_bounds.1
      rw [wireBytes_length]
      omega
    exact .input rfl (.inr (.inr ⟨_, rfl⟩)) hidle (State.present_inputsWritten hfits)

theorem State.act_becomes {a : HostAct} (h : s.act a = .next t) : State.Becomes (some a) s t := by
  cases a with
  | issue w => exact State.runWord_becomes h
  | wr r v => exact State.writeReg_becomes h
  | poke space i b => exact State.poke_becomes h
  | rd r => exact .same (State.readReg_next h)
  | peek space i =>
    obtain ⟨n, rfl⟩ := State.peek_next h
    exact .same rfl
  | wait =>
    obtain rfl : s.advance = t := Host.Outcome.next.inj h
    exact .advance
  | reset =>
    obtain rfl : s.resetEvent = t := Host.Outcome.next.inj h
    exact .reset rfl

theorem step_becomes (h : step s = .next t) :
    State.Becomes s.pending.head? { s with pending := s.pending.tail } t := by
  cases hpending : s.pending with
  | nil =>
    rw [step_nil hpending, Host.Outcome.next.injEq] at h
    have hs : { s with pending := [] } = s := by rw [← hpending]
    subst h
    exact hs.symm ▸ .advance
  | cons a rest =>
    rw [step_cons hpending] at h
    exact State.act_becomes h

end Becomes

/-! ### The frames of the two commands (O22, O31) -/

theorem State.WrittenBy.cell_of_encode {s t : State} (h : s.WrittenBy .encode t) {space : Space}
    (hspace : space ≠ .woBytes) (i : Nat) : t.cell space i = s.cell space i := by
  cases space with
  | fiPayload => simp only [State.cell, h.fi]
  | wiBytes => simp only [State.cell, h.wi]
  | foPayload => simp only [State.cell, h.fo rfl]
  | woBytes => exact absurd rfl hspace

theorem State.WrittenBy.cell_of_decode {s t : State} (h : s.WrittenBy .decode t) {space : Space}
    (hspace : space ≠ .foPayload) (i : Nat) : t.cell space i = s.cell space i := by
  cases space with
  | fiPayload => simp only [State.cell, h.fi]
  | wiBytes => simp only [State.cell, h.wi]
  | woBytes => simp only [State.cell, h.wo rfl]
  | foPayload => exact absurd rfl hspace

/-- Behind a memory that fills its first `n` cells nothing is listed. -/
theorem Memory.read_eq_none_of_fills {m : Memory} {n i : Nat} (h : Memory.fills m n) (hi : n ≤ i) :
    Memory.read m i = none := by
  obtain ⟨hm, hlen⟩ := Memory.fills_iff.mp h
  rw [hm, Memory.read_ofBytes, if_pos (Nat.zero_le i), List.getElem?_eq_none (by omega)]

/-- What an `ENCODE` of an idle block delivers: exactly a Wire Frame with the right checksum (R147). -/
theorem State.marshal_wo_valid {s : State} {r : WireOut} (h : s.marshal.wo = .valid r) :
    Memory.fills r.bytes r.len.toNat ∧ IsValidFrame (Memory.bytes r.bytes) := by
  by_cases hbig : 65535 < s.fi.len
  · rw [State.marshal_of_oversized hbig, State.raise_encode_wo] at h
    simp at h
  have hfit : s.fi.len ≤ 65535 := Nat.le_of_not_lt hbig
  rw [State.marshal_wo hfit, Output.valid.injEq] at h
  subst h
  dsimp only
  refine ⟨?fills, ?frame⟩
  case fills =>
    rw [State.wireLen_toNat hfit]
    have hlen : (s.frameBytes ++ be32 (crc32 s.frameBytes)).length = s.fi.len + 8 := by
      rw [List.length_append, State.frameBytes_length, State.frameLength_toNat hfit, be32_length]
    exact hlen ▸ Memory.fills_ofBytes _
  case frame =>
    rw [Memory.bytes_ofBytes, State.frameBytes_append_checksum s hfit]
    refine ⟨s.fi.version, s.fi.kind, s.payloadIn s.fi.len, by simpa using hfit, ?_⟩
    rw [State.payloadIn_length, State.frameBytes, State.frameLength_toNat hfit, State.frameLength]

/-- A `DECODE` that reports no error has passed every check. -/
theorem State.parse_of_ok {s : State} (h : s.parse.st.code = .ok) :
    s.parse = State.completeOk { s.compared with fo := .valid (s.parsedFrame s.wireLength) } := by
  rw [State.parse_code] at h
  split_ifs at h with hheader hpayload hchecksum hdiffers
  exact State.parse_of_right_checksum (by omega) (not_not.mp hdiffers)

theorem State.parse_fo_cases (s : State) :
    s.parse.fo = .absent ∨ s.parse.fo = .valid (s.parsedFrame s.wireLength) := by
  cases hcode : s.parse.st.code with
  | ok => exact .inr (by rw [State.parse_of_ok hcode, State.completeOk_fo])
  | err e => exact .inl (State.parse_fo_of_error hcode)

theorem State.parsedFrame_fills (s : State) (l : Length) : Memory.fills (s.parsedFrame l).payload l.toNat := by
  have hfills := Memory.fills_ofBytes (s.wireIn 4 l.toNat)
  rwa [State.wireIn_length] at hfills

/-- What a `DECODE` of an idle block delivers: exactly `FO.len` payload bytes (R165). -/
theorem State.parse_fo_valid {s : State} {r : FrameOut} (h : s.parse.fo = .valid r) :
    Memory.fills r.payload r.len.toNat := by
  obtain habsent | hvalid := s.parse_fo_cases
  · rw [habsent] at h
    cases h
  · rw [hvalid, Output.valid.injEq] at h
    exact h ▸ s.parsedFrame_fills _

/-- Settles O22: `ENCODE` is an operation of its own command, and what it delivers fills `WO.bytes` up to `WO.len`. -/
theorem encodeFrame : Obligations.EncodeFrame := by
  intro s t h
  have hframe : s.WrittenBy .encode t := by
    cases hbusy : s.st.busy with
    | true =>
      rw [execEncode_of_busy hbusy, Host.Outcome.next.injEq] at h
      exact h ▸ s.writtenBy_refl _
    | false => exact execEncode_next_of_idle hbusy h ▸ s.marshal_writtenBy
  refine ⟨hframe.fi, hframe.wi, hframe.fo rfl, hframe.sumrx rfl, hframe.pending, hframe.reads, hframe.epoch,
    hframe.draws, fun space i hspace => hframe.cell_of_encode hspace i, fun hidle r hr i hi => ?_⟩
  rw [State.cell_woBytes_of_valid hr]
  rw [execEncode_next_of_idle hidle h] at hr
  exact Memory.read_eq_none_of_fills (State.marshal_wo_valid hr).1 hi

/-- Settles O31: `DECODE` is an operation of its own command, and what it delivers fills `FO.payload` up to `FO.len`. -/
theorem decodeFrame : Obligations.DecodeFrame := by
  intro s t h
  have hframe : s.WrittenBy .decode t := by
    cases hbusy : s.st.busy with
    | true =>
      rw [execDecode_of_busy hbusy, Host.Outcome.next.injEq] at h
      exact h ▸ s.writtenBy_refl _
    | false => exact execDecode_next_of_idle hbusy h ▸ s.parse_writtenBy
  refine ⟨hframe.wi, hframe.fi, hframe.wo rfl, hframe.pending, hframe.reads, hframe.epoch, hframe.draws,
    fun space i hspace => hframe.cell_of_decode hspace i, fun hidle r hr i hi => ?_⟩
  rw [State.cell_foPayload_of_valid hr]
  rw [execDecode_next_of_idle hidle h] at hr
  exact Memory.read_eq_none_of_fills (State.parse_fo_valid hr) hi

/-! ### The statements about every step (O45 to O47, O60) -/

theorem State.marshal_busy (s : State) : s.marshal.st.busy = false := by
  by_cases hbig : 65535 < s.fi.len
  · rw [State.marshal_of_oversized hbig, State.raise_encode_st]
  · rw [State.marshal_of_fits (Nat.le_of_not_lt hbig), State.completeOk_st]

/-- Settles O45: of all that a step can do, only the ends of the two commands and the reset event write `ST.code`. -/
theorem statusCodeChangesOnlyAtCompletion : Obligations.StatusCodeChangesOnlyAtCompletion := by
  intro s t hstep hcode
  cases step_becomes hstep with
  | same h => exact absurd (by rw [h]) hcode
  | advance =>
    obtain ⟨-, hsame⟩ | ⟨c, hc, hwritten⟩ := State.advance_writtenBy { s with pending := s.pending.tail }
    · exact absurd (by rw [hsame]) hcode
    · obtain hst | hend := hwritten.st
      · exact absurd (by rw [hst]) hcode
      · exact ⟨hend, .inl fun hidle => by simp [hidle, Phase.command] at hc⟩
  | reset ha => exact ⟨rfl, .inr (.inl (List.head?_eq_some_iff.mp ha))⟩
  | marshal ha => exact ⟨State.marshal_busy _, .inr (.inr (.inl (List.head?_eq_some_iff.mp ha)))⟩
  | parse ha => exact ⟨(State.parse_atRest _).1, .inr (.inr (.inr (List.head?_eq_some_iff.mp ha)))⟩
  | input _ _ _ h => exact absurd (by rw [h.rest]) hcode
  | control | startEncode | startDecode => exact absurd rfl hcode

/-- Settles O46: each output record is written by its own command and by the reset event. -/
theorem outputRecordsHaveOneWriter : Obligations.OutputRecordsHaveOneWriter := by
  intro s t hstep
  cases step_becomes hstep with
  | same h => exact ⟨fun hne => absurd (by rw [h]) hne, fun hne => absurd (by rw [h]) hne⟩
  | advance =>
    obtain ⟨-, hsame⟩ | ⟨c, hc, hwritten⟩ := State.advance_writtenBy { s with pending := s.pending.tail }
    · exact ⟨fun hne => absurd (by rw [hsame]) hne, fun hne => absurd (by rw [hsame]) hne⟩
    · cases c with
      | encode => exact ⟨fun _ => .inl hc, fun hne => absurd (hwritten.fo rfl) hne⟩
      | decode => exact ⟨fun hne => absurd (hwritten.wo rfl) hne, fun _ => .inl hc⟩
  | reset ha =>
    have hreset := List.head?_eq_some_iff.mp ha
    exact ⟨fun _ => .inr (.inl hreset), fun _ => .inr (.inl hreset)⟩
  | marshal ha =>
    exact ⟨fun _ => .inr (.inr (List.head?_eq_some_iff.mp ha)),
      fun hne => absurd ((State.marshal_writtenBy _).fo rfl) hne⟩
  | parse ha =>
    exact ⟨fun hne => absurd ((State.parse_writtenBy _).wo rfl) hne,
      fun _ => .inr (.inr (List.head?_eq_some_iff.mp ha))⟩
  | input _ _ _ h => exact ⟨fun hne => absurd (by rw [h.rest]) hne, fun hne => absurd (by rw [h.rest]) hne⟩
  | control | startEncode | startDecode => exact ⟨fun hne => absurd rfl hne, fun hne => absurd rfl hne⟩

/-- Settles O47: neither command writes an input, and the host only while no command runs. -/
theorem inputsChangeOnlyByTheHost : Obligations.InputsChangeOnlyByTheHost := by
  intro s t hstep hne
  have unchanged (hfi : t.fi = s.fi) (hwi : t.wi = s.wi) : False := hne.elim (absurd hfi) (absurd hwi)
  cases step_becomes hstep with
  | same h => exact (unchanged (by rw [h]) (by rw [h])).elim
  | advance =>
    obtain ⟨-, hsame⟩ | ⟨c, -, h⟩ := State.advance_writtenBy { s with pending := s.pending.tail }
    · exact (unchanged (by rw [hsame]) (by rw [hsame])).elim
    · exact (unchanged h.fi h.wi).elim
  | reset ha => exact .inl (List.head?_eq_some_iff.mp ha)
  | marshal => exact (unchanged (State.marshal_writtenBy _).fi (State.marshal_writtenBy _).wi).elim
  | parse => exact (unchanged (State.parse_writtenBy _).fi (State.parse_writtenBy _).wi).elim
  | input ha hw hidle =>
    obtain ⟨rest, hpending⟩ := List.head?_eq_some_iff.mp ha
    exact .inr ⟨hidle, _, rest, hpending, hw⟩
  | control | startEncode | startDecode => exact (unchanged rfl rfl).elim

/-- Settles O60: every operation of a command and every write of the host keeps the memories canonical. -/
theorem everyStepKeepsMemoriesCanonical : Obligations.EveryStepKeepsMemoriesCanonical := by
  intro s t hs hstep
  have hs' : State.Canonical { s with pending := s.pending.tail } := hs
  cases step_becomes hstep with
  | same h =>
    rw [h]
    exact hs
  | advance => exact State.advance_canonical hs'
  | reset => exact ⟨rfl, rfl, rfl, rfl, trivial, trivial⟩
  | marshal => exact (State.marshal_writtenBy _).canonical hs'
  | parse => exact (State.parse_writtenBy _).canonical hs'
  | input _ _ _ h => exact h.canonical hs'
  | control | startEncode | startDecode => exact hs

end Sys2Proof.Machine

/-! PROOFS. `ENCODE` under way (R151): after each step the record holds the first `PTR` bytes of the frame and `CRC` the
register of the covered ones among them, and the last step ends where the atomic `ENCODE` does. -/

namespace Sys2Proof.Machine

/-! ### The bytes an ENCODE writes -/

/-- The Wire Frame of the Frame in `FI` (R142 to R145). -/
def State.encodedBytes (s : State) : List Byte :=
  s.frameBytes ++ be32 (crc32 s.frameBytes)

theorem State.encodedBytes_congr {s t : State} (h : t.fi = s.fi) (he : t.epoch = s.epoch) :
    t.encodedBytes = s.encodedBytes := by
  rw [State.encodedBytes, State.frameBytes_congr h he, State.encodedBytes]

/-- The first `PTR` bytes of the frame have been written and `LEN16` is the length (R151). -/
structure State.Writing (s : State) : Prop where
  length : s.fi.len = s.len16.toNat
  wo : s.wo = .building (Memory.ofBytes 0 (s.encodedBytes.take s.ptr.toNat))
  crc : s.crc = crcRegister (s.frameBytes.take s.ptr.toNat)

section Writing

variable {s : State}

theorem State.Writing.fits (h : s.Writing) : s.fi.len ≤ 65535 := by
  have hlength := h.length
  omega

theorem State.Writing.frameLength (h : s.Writing) : s.frameLength = s.len16 := by
  rw [State.frameLength, h.length, BitVec.ofNat_toNat, BitVec.setWidth_eq]

theorem State.Writing.frameBytes_length (h : s.Writing) : s.frameBytes.length = 4 + s.len16.toNat := by
  rw [State.frameBytes_length, h.frameLength, Nat.add_comm]

theorem State.Writing.encodedBytes_length (h : s.Writing) : s.encodedBytes.length = 8 + s.len16.toNat := by
  rw [State.encodedBytes, List.length_append, h.frameBytes_length, be32_length]
  omega

/-- The covered bytes come first. -/
theorem State.Writing.encodedBytes_getElem?_covered (h : s.Writing) {i : Nat} (hi : i < 4 + s.len16.toNat) :
    s.encodedBytes[i]? = s.frameBytes[i]? :=
  List.getElem?_append_left (h.frameBytes_length ▸ hi)

/-- The checksum bytes come behind them. -/
theorem State.Writing.encodedBytes_getElem?_checksum (h : s.Writing) (m : Nat) :
    s.encodedBytes[4 + s.len16.toNat + m]? = (be32 (crc32 s.frameBytes))[m]? := by
  rw [State.encodedBytes, ← h.frameBytes_length, List.getElem?_append_right (Nat.le_add_right _ _),
    Nat.add_sub_cancel_left]

/-- One more byte of the frame at `WO.bytes[PTR]`. -/
theorem State.Writing.emit_wo (h : s.Writing) {b : Byte} (hb : s.encodedBytes[s.ptr.toNat]? = some b) :
    (s.emit b).wo = .building (Memory.ofBytes 0 (s.encodedBytes.take (s.ptr.toNat + 1))) := by
  obtain ⟨hlt, -⟩ := List.getElem?_eq_some_iff.mp hb
  have hlength : (s.encodedBytes.take s.ptr.toNat).length = s.ptr.toNat := List.length_take_of_le hlt.le
  have hrow := Output.pass_row (α := WireOut) (s.encodedBytes.take s.ptr.toNat) b
  rw [hlength] at hrow
  rw [State.emit_wo, h.wo, hrow, List.take_add_one, hb, Option.toList_some]

theorem State.Writing.emit_ptr (h : s.Writing) {b : Byte} (hb : s.encodedBytes[s.ptr.toNat]? = some b) :
    (s.emit b).ptr.toNat = s.ptr.toNat + 1 := by
  obtain ⟨hlt, -⟩ := List.getElem?_eq_some_iff.mp hb
  rw [h.encodedBytes_length] at hlt
  exact ptr_succ_toNat (by omega)

/-- A covered byte is written and passes the generator (R144). -/
theorem State.Writing.emit_feed (h : s.Writing) {b : Byte} (hin : s.ptr.toNat < 4 + s.len16.toNat)
    (hb : s.frameBytes[s.ptr.toNat]? = some b) :
    ((s.emit b).feed b).Writing ∧ ((s.emit b).feed b).ptr.toNat = s.ptr.toNat + 1
      ∧ ((s.emit b).feed b).len16.toNat = s.len16.toNat ∧ ((s.emit b).feed b).phase = s.phase := by
  have hb' := (h.encodedBytes_getElem?_covered hin).trans hb
  have hptr : ((s.emit b).feed b).ptr.toNat = s.ptr.toNat + 1 := h.emit_ptr hb'
  have hframe : ((s.emit b).feed b).frameBytes = s.frameBytes := State.frameBytes_congr rfl rfl
  have hencoded : ((s.emit b).feed b).encodedBytes = s.encodedBytes := State.encodedBytes_congr rfl rfl
  refine ⟨⟨h.length, ?wo, ?crc⟩, hptr, rfl, rfl⟩
  case wo => rw [hptr, hencoded, State.feed_wo, h.emit_wo hb']
  case crc =>
    rw [hptr, hframe, State.feed_crc, State.emit_crc, h.crc, List.take_add_one, hb, Option.toList_some,
      crcRegister_concat]

/-- A checksum byte is written and the generator holds (R145). -/
theorem State.Writing.emit (h : s.Writing) {b : Byte} (hcovered : 4 + s.len16.toNat ≤ s.ptr.toNat)
    (hb : s.encodedBytes[s.ptr.toNat]? = some b) :
    (s.emit b).Writing ∧ (s.emit b).ptr.toNat = s.ptr.toNat + 1 ∧ (s.emit b).len16.toNat = s.len16.toNat
      ∧ (s.emit b).phase = s.phase := by
  have hptr := h.emit_ptr hb
  have hlength := h.frameBytes_length
  have hframe : (s.emit b).frameBytes = s.frameBytes := State.frameBytes_congr rfl rfl
  have hencoded : (s.emit b).encodedBytes = s.encodedBytes := State.encodedBytes_congr rfl rfl
  refine ⟨⟨h.length, ?wo, ?crc⟩, hptr, rfl, rfl⟩
  case wo => rw [hptr, hencoded, h.emit_wo hb]
  case crc =>
    rw [hptr, hframe, State.emit_crc, h.crc, List.take_of_length_le (by omega), List.take_of_length_le (by omega)]

theorem State.Writing.enter (h : s.Writing) (phase : Phase) : State.Writing { s with phase := phase } :=
  ⟨h.length, h.wo, h.crc⟩

/-- With every byte written the record is what the atomic `ENCODE` delivers (R146). -/
theorem State.Writing.completes (h : s.Writing) (hptr : s.ptr.toNat = 8 + s.len16.toNat) :
    State.completeOk { s with wo := .valid { len := s.ptr, bytes := s.wo.cells } } = s.marshal := by
  have hsize : s.ptr = s.frameLength.setWidth 17 + 8#17 := by
    apply BitVec.eq_of_toNat_eq
    rw [State.wireLen_toNat h.fits, h.length, hptr, Nat.add_comm]
  have hcells : s.wo.cells = Memory.ofBytes 0 s.encodedBytes := by
    rw [h.wo, hptr, List.take_of_length_le h.encodedBytes_length.le]
    rfl
  have hcrc : s.crc = crcRegister s.frameBytes := by
    rw [h.crc, hptr, List.take_of_length_le (by rw [h.frameBytes_length]; omega)]
  rw [State.marshal_of_fits h.fits, hcells, ← hsize, ← hcrc, h.frameLength]
  rfl

end Writing

/-- The atomic `ENCODE` overwrites all that an operation of `ENCODE` writes. -/
theorem State.WrittenBy.marshal_eq {s t : State} (h : s.WrittenBy .encode t) (hfit : s.fi.len ≤ 65535) :
    t.marshal = s.marshal := by
  have hfit' : t.fi.len ≤ 65535 := by rwa [h.fi]
  rw [State.marshal_of_fits hfit, State.marshal_of_fits hfit']
  simp only [State.completeOk, State.finish, State.frameBytes_congr h.fi h.epoch, State.frameLength, h.fi, h.wi,
    h.fo rfl, h.sumrx rfl, h.pending, h.reads, h.epoch, h.draws]

/-! ### The three phases -/

/-- `ENCODE` has passed its check and not ended: the phase is the one of the next byte (R151). -/
def State.EncodeUnderWay (s : State) : Prop :=
  s.Writing ∧
    match s.phase with
    | .eHdr => s.ptr.toNat < 4
    | .ePay => 4 ≤ s.ptr.toNat ∧ s.ptr.toNat < 4 + s.len16.toNat
    | .eSum => 4 + s.len16.toNat ≤ s.ptr.toNat ∧ s.ptr.toNat < 8 + s.len16.toNat
    | .idle | .eCheck | .dHdr | .dPay | .dSum | .dCmp => False

section Phases

variable {s : State}

theorem State.encodeUnderWay_eHdr (hphase : s.phase = .eHdr) : s.EncodeUnderWay ↔ s.Writing ∧ s.ptr.toNat < 4 := by
  simp only [State.EncodeUnderWay, hphase]

theorem State.encodeUnderWay_ePay (hphase : s.phase = .ePay) :
    s.EncodeUnderWay ↔ s.Writing ∧ 4 ≤ s.ptr.toNat ∧ s.ptr.toNat < 4 + s.len16.toNat := by
  simp only [State.EncodeUnderWay, hphase]

theorem State.encodeUnderWay_eSum (hphase : s.phase = .eSum) :
    s.EncodeUnderWay ↔ s.Writing ∧ 4 + s.len16.toNat ≤ s.ptr.toNat ∧ s.ptr.toNat < 8 + s.len16.toNat := by
  simp only [State.EncodeUnderWay, hphase]

/-- Behind `E_CHECK` no byte has been written. -/
theorem State.stepECheck_underWay (hfit : s.fi.len ≤ 65535) : s.stepECheck.EncodeUnderWay := by
  rw [State.stepECheck_of_fits hfit, State.encodeUnderWay_eHdr rfl]
  exact ⟨⟨(State.frameLength_toNat hfit).symm, rfl, rfl⟩, Nat.zero_lt_succ 3⟩

theorem State.stepEHdr_underWay (hphase : s.phase = .eHdr) (h : s.EncodeUnderWay) : s.stepEHdr.EncodeUnderWay := by
  obtain ⟨hw, hptr⟩ := (State.encodeUnderWay_eHdr hphase).mp h
  have hbyte := State.frameBytes_getElem?_header hw.frameLength hptr
  obtain ⟨hw', hptr', hlen', hphase'⟩ := hw.emit_feed (by omega) hbyte
  unfold State.stepEHdr
  dsimp only
  generalize (s.emit _).feed _ = u at *
  simp only [ptr_eq_four_iff, len16_eq_zero_iff]
  split_ifs with hlast hempty
  · exact (State.encodeUnderWay_eSum rfl).mpr ⟨hw'.enter _, by dsimp only; omega⟩
  · exact (State.encodeUnderWay_ePay rfl).mpr ⟨hw'.enter _, by dsimp only; omega⟩
  · exact (State.encodeUnderWay_eHdr (hphase'.trans hphase)).mpr ⟨hw', by omega⟩

theorem State.stepEPay_underWay (hphase : s.phase = .ePay) (h : s.EncodeUnderWay) : s.stepEPay.EncodeUnderWay := by
  obtain ⟨hw, hlow, hhigh⟩ := (State.encodeUnderWay_ePay hphase).mp h
  have hbyte : s.frameBytes[s.ptr.toNat]? = some (s.payloadByte (s.ptr.toNat - 4)) := by
    have := State.frameBytes_getElem?_payload s (i := s.ptr.toNat - 4) (by rw [hw.frameLength]; omega)
    rwa [Nat.add_sub_cancel' hlow] at this
  obtain ⟨hw', hptr', hlen', hphase'⟩ := hw.emit_feed hhigh hbyte
  unfold State.stepEPay
  dsimp only
  generalize (s.emit _).feed _ = u at *
  split_ifs with hlast
  · exact (State.encodeUnderWay_eSum rfl).mpr ⟨hw'.enter _, by dsimp only; omega⟩
  · exact (State.encodeUnderWay_ePay (hphase'.trans hphase)).mpr ⟨hw', by omega⟩

/-- In `E_SUM` the next byte is the one the frame has there. -/
theorem State.Writing.checksumByte (h : s.Writing) (hlow : 4 + s.len16.toNat ≤ s.ptr.toNat)
    (hhigh : s.ptr.toNat < 8 + s.len16.toNat) :
    s.encodedBytes[s.ptr.toNat]? = some (s.checksumByte (s.ptr.toNat - 4 - s.len16.toNat)) := by
  have hcrc : s.crc = crcRegister s.frameBytes := by
    rw [h.crc, List.take_of_length_le (by rw [h.frameBytes_length]; exact hlow)]
  have hm : s.ptr.toNat - 4 - s.len16.toNat < (be32 (crc32 s.frameBytes)).length := by
    rw [be32_length]
    omega
  have hbyte := h.encodedBytes_getElem?_checksum (s.ptr.toNat - 4 - s.len16.toNat)
  rw [show 4 + s.len16.toNat + (s.ptr.toNat - 4 - s.len16.toNat) = s.ptr.toNat by omega] at hbyte
  rw [hbyte, State.checksumByte, hcrc, ← crc32, List.getElem?_eq_getElem hm, List.getD_eq_getElem _ _ hm]

theorem State.stepESum_marshal_or_underWay (hphase : s.phase = .eSum) (h : s.EncodeUnderWay) :
    s.stepESum = s.marshal ∨ s.stepESum.EncodeUnderWay := by
  obtain ⟨hw, hlow, hhigh⟩ := (State.encodeUnderWay_eSum hphase).mp h
  obtain ⟨hw', hptr', hlen', hphase'⟩ := hw.emit hlow (hw.checksumByte hlow hhigh)
  have hsame := (s.writtenBy_emit (s.checksumByte (s.ptr.toNat - 4 - s.len16.toNat))).marshal_eq hw.fits
  unfold State.stepESum
  dsimp only
  generalize s.emit _ = u at *
  split_ifs with hlast
  · left
    rw [hw'.completes (hlen' ▸ hlast), hsame]
  · exact .inr ((State.encodeUnderWay_eSum (hphase'.trans hphase)).mpr ⟨hw', by omega⟩)

/-- A step of an `ENCODE` under way writes the next byte, and the last one ends as the atomic `ENCODE` does. -/
theorem State.EncodeUnderWay.advance (h : s.EncodeUnderWay) : s.advance = s.marshal ∨ s.advance.EncodeUnderWay := by
  cases hphase : s.phase with
  | eHdr => exact .inr (by simpa only [State.advance, hphase] using State.stepEHdr_underWay hphase h)
  | ePay => exact .inr (by simpa only [State.advance, hphase] using State.stepEPay_underWay hphase h)
  | eSum => simpa only [State.advance, hphase] using State.stepESum_marshal_or_underWay hphase h
  | idle | eCheck | dHdr | dPay | dSum | dCmp => simp [State.EncodeUnderWay, hphase] at h

end Phases

end Sys2Proof.Machine

/-! PROOFS. `DECODE` under way (R177): after each step the record holds the bytes of the frame read so far and `CRC`
their register, and each step goes on so or ends the command. -/

namespace Sys2Proof.Machine

/-! ### The bytes a DECODE notes -/

/-- The first `n` bytes of the input have been noted and have passed the generator (R177). -/
structure State.Noted (s : State) (n : Nat) : Prop where
  fo : s.fo = .building (Memory.ofBytes 0 (s.wireIn 0 n))
  crc : s.crc = crcRegister (s.wireIn 0 n)

theorem State.Noted.congr {s t : State} {n : Nat} (h : s.Noted n) (hwi : t.wi = s.wi) (he : t.epoch = s.epoch)
    (hfo : t.fo = s.fo) (hcrc : t.crc = s.crc) : t.Noted n := by
  have hwire : t.wireIn 0 n = s.wireIn 0 n := State.wireIn_congr 0 n (congrArg WireIn.bytes hwi) he
  exact ⟨by rw [hfo, h.fo, hwire], by rw [hcrc, h.crc, hwire]⟩

/-- One more byte of the input. -/
theorem State.Noted.absorb {s : State} (h : s.Noted s.ptr.toNat) :
    (s.absorb (s.wireByte s.ptr.toNat)).Noted (s.ptr.toNat + 1) := by
  have hwire : (s.absorb (s.wireByte s.ptr.toNat)).wireIn 0 (s.ptr.toNat + 1)
      = s.wireIn 0 s.ptr.toNat ++ [s.wireByte s.ptr.toNat] := by
    rw [State.wireIn_congr (t := s.absorb _) (s := s) 0 _ rfl rfl, State.wireIn_succ, Nat.zero_add]
  have hrow := Output.pass_row (α := FrameOut) (s.wireIn 0 s.ptr.toNat) (s.wireByte s.ptr.toNat)
  rw [State.wireIn_length] at hrow
  refine ⟨?fo, ?crc⟩
  case fo => rw [hwire, State.absorb_fo, h.fo, hrow]
  case crc => rw [hwire, State.absorb_crc, h.crc, crcRegister_concat]

theorem Memory.ofBytes_drop (l : List Byte) (base n : Nat) :
    (Memory.ofBytes base l).drop n = Memory.ofBytes (base + n) (l.drop n) := by
  induction l generalizing base n with
  | nil => simp [Memory.ofBytes]
  | cons b rest ih =>
    cases n with
    | zero => rfl
    | succ n => rw [Memory.ofBytes, List.drop_succ_cons, List.drop_succ_cons, ih, Nat.add_right_comm, Nat.add_assoc]

theorem Memory.ofBytes_shiftDown (l : List Byte) (base n : Nat) :
    (Memory.ofBytes (base + n) l).map (fun cell => (cell.1 - n, cell.2)) = Memory.ofBytes base l := by
  induction l generalizing base with
  | nil => rfl
  | cons b rest ih =>
    rw [Memory.ofBytes, List.map_cons, Nat.add_right_comm, ih, Nat.add_sub_cancel, Memory.ofBytes]

/-- The Frame in the noted bytes is the Frame in the input (R169). -/
theorem State.Noted.notedFrame {s : State} (h : s.Noted (4 + s.len16.toNat)) :
    s.notedFrame = s.parsedFrame s.len16 := by
  have hcells : s.fo.cells = Memory.ofBytes 0 (s.wireIn 0 (4 + s.len16.toNat)) := by rw [h.fo]; rfl
  have hbyte {i : Nat} (hi : i < 4) : (Memory.read s.fo.cells i).getD 0#8 = s.wireByte i := by
    rw [hcells, Memory.read_ofBytes, if_pos (Nat.zero_le i), State.wireIn_getElem?, if_pos (by omega), Option.getD_some,
      Nat.sub_zero, Nat.zero_add]
  have hpayload : s.notedFrame.payload = Memory.ofBytes 0 (s.wireIn 4 s.len16.toNat) := by
    have hdrop : (s.wireIn 0 (4 + s.len16.toNat)).drop 4 = s.wireIn 4 s.len16.toNat := by
      rw [State.wireIn_add]
      exact List.drop_left' (State.wireIn_length _ _ _)
    rw [State.notedFrame, hcells, Memory.ofBytes_drop, hdrop]
    exact Memory.ofBytes_shiftDown _ 0 4
  rw [State.parsedFrame, ← hpayload, ← hbyte (i := 0) (by decide), ← hbyte (i := 1) (by decide)]
  rfl

/-! ### The four phases -/

/-- `DECODE` has read its first byte and not ended: the phase is the one of the next byte, and every check made so far
has passed (R177). -/
def State.DecodeUnderWay (s : State) : Prop :=
  match s.phase with
  | .dHdr => 0 < s.ptr.toNat ∧ s.ptr.toNat < 4 ∧ 4 ≤ s.wi.len ∧ s.Noted s.ptr.toNat
  | .dPay =>
    4 ≤ s.ptr.toNat ∧ s.ptr.toNat < 4 + s.len16.toNat ∧ 4 + s.len16.toNat ≤ s.wi.len ∧ s.Noted s.ptr.toNat
  | .dSum =>
    4 + s.len16.toNat ≤ s.ptr.toNat ∧ s.ptr.toNat < 8 + s.len16.toNat ∧ 8 + s.len16.toNat ≤ s.wi.len
      ∧ s.Noted (4 + s.len16.toNat)
  | .dCmp => s.ptr.toNat = 8 + s.len16.toNat ∧ 8 + s.len16.toNat ≤ s.wi.len ∧ s.Noted (4 + s.len16.toNat)
  | .idle | .eCheck | .eHdr | .ePay | .eSum => False

section Phases

variable {s : State}

theorem State.decodeUnderWay_dHdr (hphase : s.phase = .dHdr) :
    s.DecodeUnderWay ↔ 0 < s.ptr.toNat ∧ s.ptr.toNat < 4 ∧ 4 ≤ s.wi.len ∧ s.Noted s.ptr.toNat := by
  simp only [State.DecodeUnderWay, hphase]

theorem State.decodeUnderWay_dPay (hphase : s.phase = .dPay) :
    s.DecodeUnderWay ↔
      4 ≤ s.ptr.toNat ∧ s.ptr.toNat < 4 + s.len16.toNat ∧ 4 + s.len16.toNat ≤ s.wi.len ∧ s.Noted s.ptr.toNat := by
  simp only [State.DecodeUnderWay, hphase]

theorem State.decodeUnderWay_dSum (hphase : s.phase = .dSum) :
    s.DecodeUnderWay ↔
      4 + s.len16.toNat ≤ s.ptr.toNat ∧ s.ptr.toNat < 8 + s.len16.toNat ∧ 8 + s.len16.toNat ≤ s.wi.len
        ∧ s.Noted (4 + s.len16.toNat) := by
  simp only [State.DecodeUnderWay, hphase]

theorem State.decodeUnderWay_dCmp (hphase : s.phase = .dCmp) :
    s.DecodeUnderWay ↔
      s.ptr.toNat = 8 + s.len16.toNat ∧ 8 + s.len16.toNat ≤ s.wi.len ∧ s.Noted (4 + s.len16.toNat) := by
  simp only [State.DecodeUnderWay, hphase]

theorem State.DecodeUnderWay.exists_noted (h : s.DecodeUnderWay) : ∃ n, s.Noted n := by
  cases hphase : s.phase with
  | dHdr =>
    obtain ⟨-, -, -, hnoted⟩ := (State.decodeUnderWay_dHdr hphase).mp h
    exact ⟨_, hnoted⟩
  | dPay =>
    obtain ⟨-, -, -, hnoted⟩ := (State.decodeUnderWay_dPay hphase).mp h
    exact ⟨_, hnoted⟩
  | dSum =>
    obtain ⟨-, -, -, hnoted⟩ := (State.decodeUnderWay_dSum hphase).mp h
    exact ⟨_, hnoted⟩
  | dCmp =>
    obtain ⟨-, -, hnoted⟩ := (State.decodeUnderWay_dCmp hphase).mp h
    exact ⟨_, hnoted⟩
  | idle | eCheck | eHdr | ePay | eSum => simp [State.DecodeUnderWay, hphase] at h

end Phases

/-- `DECODE` has ended, with a Frame of exactly `FO.len` payload bytes or none. -/
def State.DecodeEnded (s : State) : Prop :=
  s.phase = .idle ∧ (s.fo = .absent ∨ ∃ r, s.fo = .valid r ∧ Memory.fills r.payload r.len.toNat)

theorem State.raise_decodeEnded (s : State) (e : CodecError) : (s.raise .decode e).DecodeEnded :=
  ⟨rfl, .inl rfl⟩

/-! ### The checks behind payload and header (R163, R164) -/

/-- The state behind the last payload byte: the checksum is missing or comes next. -/
theorem State.enterDSum_outcome (s : State) (hlong : 4 + s.len16.toNat ≤ s.wi.len) :
    (s.wi.len - 4 - s.len16.toNat < 4 ∧ s.enterDSum = s.raise .decode .truncatedChecksum)
      ∨ 8 + s.len16.toNat ≤ s.wi.len ∧ s.enterDSum = { s with phase := .dSum } := by
  by_cases hshort : s.wi.len - 4 - s.len16.toNat < 4
  · exact .inl ⟨hshort, State.enterDSum_of_short hshort⟩
  · exact .inr ⟨by omega, State.enterDSum_of_enough (by omega)⟩

/-- The state behind the header: the payload is incomplete, or empty, or comes next. -/
theorem State.enterDPay_outcome (s : State) (hheader : 4 ≤ s.wi.len) :
    (s.wi.len - 4 < s.len16.toNat ∧ s.enterDPay = s.raise .decode .truncatedPayload)
      ∨ (4 + s.len16.toNat ≤ s.wi.len ∧ s.len16.toNat = 0 ∧ s.enterDPay = s.enterDSum)
      ∨ 4 + s.len16.toNat ≤ s.wi.len ∧ s.len16.toNat ≠ 0 ∧ s.enterDPay = { s with phase := .dPay } := by
  by_cases hshort : s.wi.len - 4 < s.len16.toNat
  · exact .inl ⟨hshort, State.enterDPay_of_short hshort⟩
  have henough := State.enterDPay_of_enough (Nat.le_of_not_lt hshort)
  simp only [len16_eq_zero_iff] at henough
  by_cases hempty : s.len16.toNat = 0
  · exact .inr (.inl ⟨by omega, hempty, henough.trans (if_pos hempty)⟩)
  · exact .inr (.inr ⟨by omega, hempty, henough.trans (if_neg hempty)⟩)

section Enter

variable {s : State}

theorem State.enterDSum_endedOrUnderWay (hnoted : s.Noted (4 + s.len16.toNat))
    (hptr : s.ptr.toNat = 4 + s.len16.toNat) (hlong : 4 + s.len16.toNat ≤ s.wi.len) :
    s.enterDSum.DecodeEnded ∨ s.enterDSum.DecodeUnderWay := by
  obtain ⟨-, hraise⟩ | ⟨hcomplete, henter⟩ := s.enterDSum_outcome hlong
  · exact .inl (hraise ▸ s.raise_decodeEnded _)
  · rw [henter]
    exact .inr ((State.decodeUnderWay_dSum rfl).mpr
      ⟨hptr.ge, by dsimp only; omega, hcomplete, hnoted.congr rfl rfl rfl rfl⟩)

theorem State.enterDPay_endedOrUnderWay (hnoted : s.Noted 4) (hptr : s.ptr.toNat = 4) (hheader : 4 ≤ s.wi.len) :
    s.enterDPay.DecodeEnded ∨ s.enterDPay.DecodeUnderWay := by
  obtain ⟨-, hraise⟩ | ⟨hlong, hempty, henter⟩ | ⟨hlong, hsome, henter⟩ := s.enterDPay_outcome hheader
  · exact .inl (hraise ▸ s.raise_decodeEnded _)
  · rw [henter]
    exact State.enterDSum_endedOrUnderWay (by rwa [hempty]) (by omega) hlong
  · rw [henter]
    refine .inr ((State.decodeUnderWay_dPay rfl).mpr
      ⟨hptr.ge, by dsimp only; omega, hlong, State.Noted.congr (s := s) ?_ rfl rfl rfl rfl⟩)
    rwa [hptr]

end Enter

/-! ### One step in each phase -/

section Begun

variable (s : State)

@[simp] theorem State.begun_wi : s.begun.wi = s.wi := by unfold State.begun; split_ifs <;> rfl

@[simp] theorem State.begun_phase : s.begun.phase = s.phase := by unfold State.begun; split_ifs <;> rfl

@[simp] theorem State.begun_ptr : s.begun.ptr = s.ptr := by unfold State.begun; split_ifs <;> rfl

@[simp] theorem State.begun_len16 : s.begun.len16 = s.len16 := by unfold State.begun; split_ifs <;> rfl

@[simp] theorem State.begun_sumrx : s.begun.sumrx = s.sumrx := by unfold State.begun; split_ifs <;> rfl

@[simp] theorem State.begun_epoch : s.begun.epoch = s.epoch := by unfold State.begun; split_ifs <;> rfl

@[simp] theorem State.headerByteRead_wi : s.headerByteRead.wi = s.wi := s.headerByteRead_writtenBy.wi

@[simp] theorem State.headerByteRead_phase : s.headerByteRead.phase = s.phase := by simp [State.headerByteRead]

@[simp] theorem State.headerByteRead_ptr : s.headerByteRead.ptr = s.ptr + 1#17 := by simp [State.headerByteRead]

@[simp] theorem State.headerByteRead_sumrx : s.headerByteRead.sumrx = s.sumrx := by simp [State.headerByteRead]

/-- `LEN16` takes its halves from header bytes 2 and 3 (R162). -/
theorem State.headerByteRead_len16 :
    s.headerByteRead.len16 =
      if s.ptr.toNat = 2 then fromBe16 (s.wireByte 2) (s.len16.extractLsb' 0 8)
      else if s.ptr.toNat = 3 then fromBe16 (s.len16.extractLsb' 8 8) (s.wireByte 3)
      else s.len16 := by
  unfold State.headerByteRead State.noteLength
  split_ifs with h2 h3 <;> simp [*]

end Begun

section Steps

variable {s : State}

theorem State.begun_noted (h : s.ptr ≠ 0#17 → s.Noted s.ptr.toNat) : s.begun.Noted s.ptr.toNat := by
  unfold State.begun
  split_ifs with hfirst
  · rw [hfirst]
    exact ⟨rfl, rfl⟩
  · exact h hfirst

theorem State.headerByteRead_noted (h : s.ptr ≠ 0#17 → s.Noted s.ptr.toNat) :
    s.headerByteRead.Noted (s.ptr.toNat + 1) := by
  have hbegun : s.begun.Noted s.begun.ptr.toNat := by
    rw [State.begun_ptr]
    exact State.begun_noted h
  have habsorbed := hbegun.absorb
  rw [State.begun_ptr, State.wireByte_congr (congrArg WireIn.bytes s.begun_wi) s.begun_epoch] at habsorbed
  exact habsorbed.congr (State.noteLength_wi _ _ _) (State.noteLength_epoch _ _ _) (State.noteLength_fo _ _ _)
    (State.noteLength_crc _ _ _)

/-- A step in `D_HDR`: the input is too short, or one byte passes and the fourth is followed by the next check. -/
theorem State.stepDHdr_outcome (hptr : s.ptr.toNat < 4)
    (hread : s.ptr ≠ 0#17 → 4 ≤ s.wi.len ∧ s.Noted s.ptr.toNat) :
    (s.ptr = 0#17 ∧ s.wi.len < 4 ∧ s.stepDHdr = s.raise .decode .truncatedHeader)
      ∨ 4 ≤ s.wi.len ∧ s.headerByteRead.Noted (s.ptr.toNat + 1)
        ∧ (s.ptr.toNat = 3 ∧ s.stepDHdr = s.headerByteRead.enterDPay
          ∨ s.ptr.toNat < 3 ∧ s.stepDHdr = s.headerByteRead) := by
  by_cases hshort : s.ptr = 0#17 ∧ s.wi.len < 4
  · refine .inl ⟨hshort.1, hshort.2, ?_⟩
    rw [State.stepDHdr_eq, if_pos (by simpa using hshort)]
  have hheader : 4 ≤ s.wi.len := by
    by_cases hfirst : s.ptr = 0#17
    · exact Nat.le_of_not_lt fun hlt => hshort ⟨hfirst, hlt⟩
    · exact (hread hfirst).1
  refine .inr ⟨hheader, State.headerByteRead_noted fun hne => (hread hne).2, ?_⟩
  have hnext := ptr_succ_toNat (p := s.ptr) (by omega)
  rw [State.stepDHdr_eq, if_neg (by simpa using hshort)]
  simp only [ptr_eq_four_iff, State.headerByteRead_ptr, hnext]
  split_ifs with hlast
  · exact .inl ⟨by omega, rfl⟩
  · exact .inr ⟨by omega, rfl⟩

theorem State.stepDHdr_endedOrUnderWay (hphase : s.phase = .dHdr) (hptr : s.ptr.toNat < 4)
    (hread : s.ptr ≠ 0#17 → 4 ≤ s.wi.len ∧ s.Noted s.ptr.toNat) :
    s.stepDHdr.DecodeEnded ∨ s.stepDHdr.DecodeUnderWay := by
  obtain ⟨-, -, hraise⟩ | ⟨hheader, hnoted, ⟨hlast, hstep⟩ | ⟨hmore, hstep⟩⟩ := State.stepDHdr_outcome hptr hread
  · exact .inl (hraise ▸ s.raise_decodeEnded _)
  · have hnext := ptr_succ_toNat (p := s.ptr) (by omega)
    rw [hstep]
    exact State.enterDPay_endedOrUnderWay (by rwa [hlast] at hnoted) (by rw [State.headerByteRead_ptr]; omega)
      (by rwa [State.headerByteRead_wi])
  · have hnext : s.headerByteRead.ptr.toNat = s.ptr.toNat + 1 := by
      rw [State.headerByteRead_ptr]
      exact ptr_succ_toNat (by omega)
    rw [hstep]
    refine .inr ((State.decodeUnderWay_dHdr (by rw [State.headerByteRead_phase, hphase])).mpr
      ⟨by omega, by omega, by rwa [State.headerByteRead_wi], ?_⟩)
    rwa [hnext]

/-- A step in `D_PAY` passes one byte and the last is followed by the next check. -/
theorem State.stepDPay_outcome (hphase : s.phase = .dPay) (h : s.DecodeUnderWay) :
    let u := s.absorb (s.wireByte s.ptr.toNat)
    u.ptr.toNat = s.ptr.toNat + 1 ∧ u.Noted u.ptr.toNat ∧ 4 + s.len16.toNat ≤ s.wi.len
      ∧ (u.ptr.toNat = 4 + s.len16.toNat ∧ s.stepDPay = u.enterDSum
        ∨ u.ptr.toNat < 4 + s.len16.toNat ∧ s.stepDPay = u) := by
  obtain ⟨hlow, hhigh, hlong, hnoted⟩ := (State.decodeUnderWay_dPay hphase).mp h
  intro u
  have hnext : u.ptr.toNat = s.ptr.toNat + 1 := ptr_succ_toNat (by omega)
  refine ⟨hnext, hnext ▸ hnoted.absorb, hlong, ?_⟩
  by_cases hlast : u.ptr.toNat = 4 + s.len16.toNat
  · exact .inl ⟨hlast, if_pos hlast⟩
  · exact .inr ⟨by omega, if_neg hlast⟩

theorem State.stepDPay_endedOrUnderWay (hphase : s.phase = .dPay) (h : s.DecodeUnderWay) :
    s.stepDPay.DecodeEnded ∨ s.stepDPay.DecodeUnderWay := by
  obtain ⟨hlow, -⟩ := (State.decodeUnderWay_dPay hphase).mp h
  obtain ⟨hnext, hnoted, hlong, ⟨hlast, hstep⟩ | ⟨hmore, hstep⟩⟩ := State.stepDPay_outcome hphase h
  · rw [hstep]
    exact State.enterDSum_endedOrUnderWay (by rwa [hlast] at hnoted) hlast hlong
  · rw [hstep]
    exact .inr ((State.decodeUnderWay_dPay (by exact hphase)).mpr ⟨by omega, hmore, hlong, hnoted⟩)

theorem State.stepDSum_underWay (hphase : s.phase = .dSum) (h : s.DecodeUnderWay) : s.stepDSum.DecodeUnderWay := by
  obtain ⟨hlow, hhigh, hcomplete, hnoted⟩ := (State.decodeUnderWay_dSum hphase).mp h
  have hnext := ptr_succ_toNat (p := s.ptr) (by omega)
  unfold State.stepDSum
  dsimp only
  split_ifs with hlast
  · exact (State.decodeUnderWay_dCmp rfl).mpr ⟨hlast, hcomplete, hnoted.congr rfl rfl rfl rfl⟩
  · exact (State.decodeUnderWay_dSum (by exact hphase)).mpr
      ⟨by dsimp only; omega, by dsimp only; omega, hcomplete, hnoted.congr rfl rfl rfl rfl⟩

theorem State.stepDCmp_ended (hphase : s.phase = .dCmp) (h : s.DecodeUnderWay) : s.stepDCmp.DecodeEnded := by
  obtain ⟨-, -, hnoted⟩ := (State.decodeUnderWay_dCmp hphase).mp h
  unfold State.stepDCmp
  split_ifs
  · exact s.raise_decodeEnded _
  · refine ⟨rfl, .inr ⟨_, rfl, ?_⟩⟩
    rw [hnoted.notedFrame]
    exact s.parsedFrame_fills _

/-- A step of a `DECODE` under way ends it or goes on to the next byte. -/
theorem State.DecodeUnderWay.advance (h : s.DecodeUnderWay) : s.advance.DecodeEnded ∨ s.advance.DecodeUnderWay := by
  cases hphase : s.phase with
  | dHdr =>
    obtain ⟨-, hptr, hread⟩ := (State.decodeUnderWay_dHdr hphase).mp h
    simpa only [State.advance, hphase] using State.stepDHdr_endedOrUnderWay hphase hptr fun _ => hread
  | dPay => simpa only [State.advance, hphase] using State.stepDPay_endedOrUnderWay hphase h
  | dSum => exact .inr (by simpa only [State.advance, hphase] using State.stepDSum_underWay hphase h)
  | dCmp => exact .inl (by simpa only [State.advance, hphase] using State.stepDCmp_ended hphase h)
  | idle | eCheck | eHdr | ePay | eSum => simp [State.DecodeUnderWay, hphase] at h

end Steps

end Sys2Proof.Machine

/-! PROOFS. The invariant. Its part for each phase of a running command says that the command is under way, as
`EncodeUnderWay` and `DecodeUnderWay` have it; so a step of the sequencer keeps it, and the host's actions that change
the block start from an idle one (O58, O59). -/

namespace Sys2Proof.Machine

/-! ### The invariant in each phase -/

theorem State.phaseInv_idle {s : State} (hphase : s.phase = .idle) : s.PhaseInv ↔ s.wo.settled ∧ s.fo.settled := by
  simp only [State.PhaseInv, hphase]

theorem State.phaseInv_eCheck {s : State} (hphase : s.phase = .eCheck) :
    s.PhaseInv ↔ s.wo.settled ∧ s.fo.settled := by
  simp only [State.PhaseInv, hphase]

/-- The only memory with these cells and these bytes is the row of them. -/
theorem building_row_iff {α : Type} {o : Output α} {n : Nat} {l : List Byte} (hl : l.length = n) :
    (∃ cells, o = .building cells ∧ Memory.fills cells n ∧ Memory.bytes cells = l)
      ↔ o = .building (Memory.ofBytes 0 l) := by
  constructor
  · rintro ⟨cells, rfl, hfills, rfl⟩
    rw [← (Memory.fills_iff.mp hfills).1]
  · rintro rfl
    exact ⟨_, rfl, hl ▸ Memory.fills_ofBytes l, Memory.bytes_ofBytes _ _⟩

theorem State.marshalling_iff {s : State} {passed : List Byte} (h : s.ptr.toNat ≤ passed.length) :
    s.Marshalling passed ↔
      s.fi.len = s.len16.toNat ∧ s.fo.settled
        ∧ s.wo = .building (Memory.ofBytes 0 (passed.take s.ptr.toNat)) := by
  rw [State.Marshalling, building_row_iff (List.length_take_of_le h)]

theorem State.parsing_iff {s : State} {n : Nat} : s.Parsing n ↔ s.wo.settled ∧ n ≤ s.wi.len ∧ s.Noted n := by
  have hrow := building_row_iff (o := s.fo) (State.wireIn_length s 0 n)
  constructor
  · rintro ⟨hwo, hn, cells, hfo, hfills, hbytes, hcrc⟩
    exact ⟨hwo, hn, hrow.mp ⟨cells, hfo, hfills, hbytes⟩, hcrc⟩
  · rintro ⟨hwo, hn, hfo, hcrc⟩
    obtain ⟨cells, hcells, hfills, hbytes⟩ := hrow.mpr hfo
    exact ⟨hwo, hn, cells, hcells, hfills, hbytes, hcrc⟩

section Encode

variable {s : State}

theorem State.frameBytes_length_of_len16 (h : s.fi.len = s.len16.toNat) :
    s.frameBytes.length = 4 + s.len16.toNat := by
  rw [State.frameBytes_length, State.frameLength_toNat (by omega), h, Nat.add_comm]

/-- The invariant's form of what has been written, up to the last covered byte. -/
theorem State.marshalling_covered_iff (hptr : s.ptr.toNat ≤ 4 + s.len16.toNat) :
    s.Marshalling s.frameBytes ∧ s.crc = crcRegister (s.frameBytes.take s.ptr.toNat) ↔ s.Writing ∧ s.fo.settled := by
  by_cases hlen : s.fi.len = s.len16.toNat
  · have hcovered : s.ptr.toNat ≤ s.frameBytes.length := State.frameBytes_length_of_len16 hlen ▸ hptr
    have htake : s.encodedBytes.take s.ptr.toNat = s.frameBytes.take s.ptr.toNat :=
      List.take_append_of_le_length hcovered
    rw [State.marshalling_iff hcovered]
    constructor
    · rintro ⟨⟨h, hfo, hwo⟩, hcrc⟩
      exact ⟨⟨h, by rw [hwo, htake], hcrc⟩, hfo⟩
    · rintro ⟨⟨h, hwo, hcrc⟩, hfo⟩
      exact ⟨⟨h, hfo, by rw [hwo, htake]⟩, hcrc⟩
  · exact ⟨fun ⟨⟨h, _⟩, _⟩ => absurd h hlen, fun ⟨⟨h, _, _⟩, _⟩ => absurd h hlen⟩

/-- The invariant's form of what has been written, in the checksum. -/
theorem State.marshalling_checksum_iff (hlow : 4 + s.len16.toNat ≤ s.ptr.toNat)
    (hhigh : s.ptr.toNat ≤ 8 + s.len16.toNat) :
    s.Marshalling (s.frameBytes ++ be32 (crcOut s.crc)) ∧ s.crc = crcRegister s.frameBytes
      ↔ s.Writing ∧ s.fo.settled := by
  by_cases hlen : s.fi.len = s.len16.toNat
  · have hlength := State.frameBytes_length_of_len16 hlen
    have htake : s.frameBytes.take s.ptr.toNat = s.frameBytes := List.take_of_length_le (by omega)
    rw [State.marshalling_iff (by rw [List.length_append, be32_length]; omega)]
    constructor
    · rintro ⟨⟨h, hfo, hwo⟩, hcrc⟩
      exact ⟨⟨h, by rw [hwo, hcrc]; rfl, by rw [htake, hcrc]⟩, hfo⟩
    · rintro ⟨⟨h, hwo, hcrc⟩, hfo⟩
      rw [htake] at hcrc
      exact ⟨⟨h, hfo, by rw [hwo, hcrc]; rfl⟩, hcrc⟩
  · exact ⟨fun ⟨⟨h, _⟩, _⟩ => absurd h hlen, fun ⟨⟨h, _, _⟩, _⟩ => absurd h hlen⟩

/-- In the phases behind `E_CHECK` the invariant says that `ENCODE` is under way. -/
theorem State.phaseInv_encode (hphase : s.phase = .eHdr ∨ s.phase = .ePay ∨ s.phase = .eSum) :
    s.PhaseInv ↔ s.EncodeUnderWay ∧ s.fo.settled := by
  obtain hphase | hphase | hphase := hphase
  · rw [State.encodeUnderWay_eHdr hphase]
    simp only [State.PhaseInv, hphase]
    refine (and_congr_right fun hptr => State.marshalling_covered_iff (by omega)).trans ?_
    tauto
  · rw [State.encodeUnderWay_ePay hphase]
    simp only [State.PhaseInv, hphase]
    refine (and_congr_right fun _ => and_congr_right fun hhigh => State.marshalling_covered_iff hhigh.le).trans ?_
    tauto
  · rw [State.encodeUnderWay_eSum hphase]
    simp only [State.PhaseInv, hphase]
    refine (and_congr_right fun hlow => and_congr_right fun hhigh =>
      State.marshalling_checksum_iff hlow hhigh.le).trans ?_
    tauto

end Encode

/-- Before `DECODE` reads its first byte, nothing is noted yet. -/
theorem State.phaseInv_decodeAccepted {s : State} (hphase : s.phase = .dHdr) (hptr : s.ptr = 0#17) :
    s.PhaseInv ↔ s.wi.len ≤ Config.wiCap ∧ s.wo.settled ∧ s.fo.settled := by
  simp [State.PhaseInv, hphase, hptr]

/-- Behind it the invariant says that `DECODE` is under way, within `WI_CAP`. -/
theorem State.phaseInv_decode {s : State} (hc : s.phase.command = some .decode)
    (hbegun : s.phase = .dHdr → s.ptr ≠ 0#17) :
    s.PhaseInv ↔ s.DecodeUnderWay ∧ s.wi.len ≤ Config.wiCap ∧ s.wo.settled := by
  cases hp : s.phase with
  | dHdr =>
    have hne := hbegun hp
    have hpos : 0 < s.ptr.toNat := Nat.pos_of_ne_zero fun h => hne (BitVec.toNat_inj.mp h)
    rw [State.decodeUnderWay_dHdr hp]
    simp only [State.PhaseInv, hp, State.parsing_iff]
    constructor
    · rintro ⟨hptr, hcap, hwo, -, hread⟩
      obtain ⟨hheader, -, -, hnoted⟩ := hread hne
      exact ⟨⟨hpos, hptr, hheader, hnoted⟩, hcap, hwo⟩
    · rintro ⟨⟨-, hptr, hheader, hnoted⟩, hcap, hwo⟩
      exact ⟨hptr, hcap, hwo, fun h => absurd h hne, fun _ => ⟨hheader, hwo, by omega, hnoted⟩⟩
  | dPay =>
    rw [State.decodeUnderWay_dPay hp]
    simp only [State.PhaseInv, hp, State.parsing_iff]
    constructor
    · rintro ⟨hlow, hhigh, hlong, hcap, hwo, -, hnoted⟩
      exact ⟨⟨hlow, hhigh, hlong, hnoted⟩, hcap, hwo⟩
    · rintro ⟨⟨hlow, hhigh, hlong, hnoted⟩, hcap, hwo⟩
      exact ⟨hlow, hhigh, hlong, hcap, hwo, by omega, hnoted⟩
  | dSum =>
    rw [State.decodeUnderWay_dSum hp]
    simp only [State.PhaseInv, hp, State.parsing_iff]
    constructor
    · rintro ⟨hlow, hhigh, hlong, hcap, hwo, -, hnoted⟩
      exact ⟨⟨hlow, hhigh, hlong, hnoted⟩, hcap, hwo⟩
    · rintro ⟨⟨hlow, hhigh, hlong, hnoted⟩, hcap, hwo⟩
      exact ⟨hlow, hhigh, hlong, hcap, hwo, by omega, hnoted⟩
  | dCmp =>
    rw [State.decodeUnderWay_dCmp hp]
    simp only [State.PhaseInv, hp, State.parsing_iff]
    constructor
    · rintro ⟨hptr, hlong, hcap, hwo, -, hnoted⟩
      exact ⟨⟨hptr, hlong, hnoted⟩, hcap, hwo⟩
    · rintro ⟨⟨hptr, hlong, hnoted⟩, hcap, hwo⟩
      exact ⟨hptr, hlong, hcap, hwo, by omega, hnoted⟩
  | idle | eCheck | eHdr | ePay | eSum => simp [hp, Phase.command] at hc

/-! ### The invariant of an idle block -/

theorem State.Inv.idle {s : State} (h : s.Inv) (hidle : s.st.busy = false) :
    s.phase = .idle ∧ s.wo.settled ∧ s.fo.settled := by
  have hphase : s.phase = .idle := by simpa [h.busy] using hidle
  exact ⟨hphase, (State.phaseInv_idle hphase).mp h.phase⟩

/-- The host's side is no part of the invariant. -/
theorem State.Inv.host {s : State} (h : s.Inv) (pending : List HostAct) (reads : List Nat) (draws : Nat) :
    State.Inv { s with pending := pending, reads := reads, draws := draws } :=
  ⟨h.canonical, h.frameLen, h.wireLen, h.busy, h.wireOut, h.frameOut, h.phase⟩

/-- An operation of a command keeps the parts of the invariant that it does not write. -/
theorem State.Inv.writtenBy {s t : State} {c : Command} (h : s.Inv) (hw : s.WrittenBy c t)
    (hbusy : t.st.busy = decide (t.phase ≠ .idle))
    (hwo : ∀ r, t.wo = .valid r → Memory.fills r.bytes r.len.toNat ∧ IsValidFrame (Memory.bytes r.bytes))
    (hfo : ∀ r, t.fo = .valid r → Memory.fills r.payload r.len.toNat) (hphase : t.PhaseInv) : t.Inv where
  canonical := hw.canonical h.canonical
  frameLen := hw.fi ▸ h.frameLen
  wireLen := hw.wi ▸ h.wireLen
  busy := hbusy
  wireOut := hwo
  frameOut := hfo
  phase := hphase

theorem State.AtRest.busy_eq {s : State} (h : s.AtRest) : s.st.busy = decide (s.phase ≠ .idle) := by
  obtain ⟨hbusy, hphase⟩ := h
  simp [hbusy, hphase]

/-! ### The end of a command -/

theorem State.marshal_atRest (s : State) : s.marshal.AtRest := by
  by_cases hbig : 65535 < s.fi.len
  · rw [State.marshal_of_oversized hbig]
    exact s.raise_atRest _ _
  · rw [State.marshal_of_fits (Nat.le_of_not_lt hbig)]
    exact State.completeOk_atRest _

theorem State.marshal_wo_settled (s : State) : s.marshal.wo.settled := by
  by_cases hbig : 65535 < s.fi.len
  · rw [State.marshal_of_oversized hbig]
    trivial
  · rw [State.marshal_of_fits (Nat.le_of_not_lt hbig)]
    trivial

theorem State.Inv.marshal {s : State} (h : s.Inv) (hfo : s.fo.settled) : s.marshal.Inv := by
  have hw := s.marshal_writtenBy
  have hsame := hw.fo rfl
  refine h.writtenBy hw s.marshal_atRest.busy_eq (fun r => State.marshal_wo_valid) (hsame ▸ h.frameOut) ?_
  exact (State.phaseInv_idle s.marshal_atRest.2).mpr ⟨s.marshal_wo_settled, hsame ▸ hfo⟩

/-- A `DECODE` that has ended with a right record keeps the invariant. -/
theorem State.Inv.decodeEnded {s t : State} (h : s.Inv) (hw : s.WrittenBy .decode t) (hwo : s.wo.settled)
    (hrest : t.AtRest) (hend : t.DecodeEnded) : t.Inv := by
  have hsame := hw.wo rfl
  obtain ⟨hphase, hfo⟩ := hend
  refine h.writtenBy hw hrest.busy_eq (hsame ▸ h.wireOut) (fun r hr => ?record) ?phase
  case record =>
    obtain habsent | ⟨r', hr', hfills⟩ := hfo
    · rw [habsent] at hr
      cases hr
    · rw [hr', Output.valid.injEq] at hr
      exact hr ▸ hfills
  case phase =>
    refine (State.phaseInv_idle hphase).mpr ⟨hsame ▸ hwo, ?_⟩
    obtain habsent | ⟨r', hr', -⟩ := hfo
    · rw [habsent]
      trivial
    · rw [hr']
      trivial

theorem State.parse_decodeEnded (s : State) : s.parse.DecodeEnded :=
  ⟨s.parse_atRest.2, s.parse_fo_cases.imp_right fun hfo => ⟨_, hfo, s.parsedFrame_fills _⟩⟩

/-! ### A step of the sequencer -/

theorem State.Inv.encodeUnderWay {s t : State} (h : s.Inv) (hw : s.WrittenBy .encode t)
    (hbusy : t.st.busy = decide (t.phase ≠ .idle)) (hfo : s.fo.settled) (hway : t.EncodeUnderWay) : t.Inv := by
  have hsame := hw.fo rfl
  have hphase : t.phase = .eHdr ∨ t.phase = .ePay ∨ t.phase = .eSum := by
    cases hp : t.phase <;> simp [State.EncodeUnderWay, hp] at hway ⊢
  refine h.writtenBy hw hbusy (fun r hr => ?_) (hsame ▸ h.frameOut)
    ((State.phaseInv_encode hphase).mpr ⟨hway, hsame ▸ hfo⟩)
  rw [hway.1.wo] at hr
  cases hr

theorem State.DecodeUnderWay.command {s : State} (h : s.DecodeUnderWay) : s.phase.command = some .decode := by
  cases hp : s.phase <;> simp [State.DecodeUnderWay, Phase.command, hp] at h ⊢

/-- A running command that is not complete is still running. -/
theorem State.Inv.advance_busy {s : State} (h : s.Inv) {c : Command} (hc : s.phase.command = some c) :
    s.advance.st.busy = decide (s.advance.phase ≠ .idle) := by
  have hbusy : s.st.busy = true := by
    rw [h.busy]
    simp only [decide_eq_true_eq]
    rintro hidle
    simp [hidle, Phase.command] at hc
  obtain ⟨hend, hphase, -⟩ | ⟨hrun, hphase⟩ := State.advance_completed_or_running hbusy hc
  · simp [hend, hphase]
  · simp [hrun, hphase]

theorem State.Inv.advance_encode {s : State} (h : s.Inv) (hc : s.phase.command = some .encode)
    (hw : s.WrittenBy .encode s.advance) : s.advance.Inv := by
  have hbusy := h.advance_busy hc
  by_cases hcheck : s.phase = .eCheck
  · obtain ⟨-, hfo⟩ := (State.phaseInv_eCheck hcheck).mp h.phase
    have hstep : s.advance = s.stepECheck := by simp only [State.advance, hcheck]
    by_cases hbig : 65535 < s.fi.len
    · rw [State.stepECheck_of_oversized hbig] at hstep
      rw [hstep] at hw hbusy ⊢
      exact h.writtenBy hw hbusy nofun h.frameOut ((State.phaseInv_idle rfl).mpr ⟨trivial, hfo⟩)
    · have hway := State.stepECheck_underWay (Nat.le_of_not_lt hbig)
      exact h.encodeUnderWay hw hbusy hfo (hstep ▸ hway)
  · have hphase : s.phase = .eHdr ∨ s.phase = .ePay ∨ s.phase = .eSum := by
      cases hp : s.phase <;> simp [hp, Phase.command] at hc hcheck ⊢
    obtain ⟨hway, hfo⟩ := (State.phaseInv_encode hphase).mp h.phase
    obtain hend | hway' := hway.advance
    · exact hend ▸ h.marshal hfo
    · exact h.encodeUnderWay hw hbusy hfo hway'

/-- What a step of `DECODE` has to give for the invariant. -/
theorem State.Inv.decodeStepped {s t : State} (h : s.Inv) (hw : s.WrittenBy .decode t)
    (hbusy : t.st.busy = decide (t.phase ≠ .idle)) (hcap : s.wi.len ≤ Config.wiCap) (hwo : s.wo.settled)
    (ht : t.DecodeEnded ∨ t.DecodeUnderWay) : t.Inv := by
  obtain hend | hway := ht
  · exact h.decodeEnded hw hwo ⟨by simpa [hend.1] using hbusy, hend.1⟩ hend
  have hsame := hw.wo rfl
  have hbegun : t.phase = .dHdr → t.ptr ≠ 0#17 := by
    intro hphase hzero
    obtain ⟨hpos, -⟩ := (State.decodeUnderWay_dHdr hphase).mp hway
    simp [hzero] at hpos
  refine h.writtenBy hw hbusy (hsame ▸ h.wireOut) (fun r hr => ?_)
    ((State.phaseInv_decode hway.command hbegun).mpr ⟨hway, hw.wi ▸ hcap, hsame ▸ hwo⟩)
  obtain ⟨n, hnoted⟩ := hway.exists_noted
  rw [hnoted.fo] at hr
  cases hr

theorem State.Inv.advance_decode {s : State} (h : s.Inv) (hc : s.phase.command = some .decode)
    (hw : s.WrittenBy .decode s.advance) : s.advance.Inv := by
  have hbusy := h.advance_busy hc
  by_cases haccepted : s.phase = .dHdr ∧ s.ptr = 0#17
  · obtain ⟨hphase, hptr⟩ := haccepted
    obtain ⟨hcap, hwo, -⟩ := (State.phaseInv_decodeAccepted hphase hptr).mp h.phase
    have hstep : s.advance = s.stepDHdr := by simp only [State.advance, hphase]
    have hout := State.stepDHdr_endedOrUnderWay hphase (by simp [hptr]) fun hne => absurd hptr hne
    exact h.decodeStepped hw hbusy hcap hwo (hstep ▸ hout)
  · obtain ⟨hway, hcap, hwo⟩ :=
      (State.phaseInv_decode hc fun hphase hptr => haccepted ⟨hphase, hptr⟩).mp h.phase
    exact h.decodeStepped hw hbusy hcap hwo hway.advance

theorem State.Inv.advance {s : State} (h : s.Inv) : s.advance.Inv := by
  obtain ⟨-, hsame⟩ | ⟨c, hc, hw⟩ := s.advance_writtenBy
  · rwa [hsame]
  · cases c with
    | encode => exact h.advance_encode hc hw
    | decode => exact h.advance_decode hc hw

/-! ### The host's actions -/

/-- The invariant of an idle block whose output records are as before. -/
theorem State.Inv.of_idle {s t : State} (h : s.Inv) (hidle : s.st.busy = false) (hst : t.st = s.st)
    (hphase : t.phase = s.phase) (hwo : t.wo = s.wo) (hfo : t.fo = s.fo) (hcanonical : t.Canonical)
    (hframe : t.fi.len < 2 ^ Config.lenw) (hwire : t.wi.len < 2 ^ Config.lenw) : t.Inv where
  canonical := hcanonical
  frameLen := hframe
  wireLen := hwire
  busy := by rw [hst, hphase, h.busy]
  wireOut := hwo ▸ h.wireOut
  frameOut := hfo ▸ h.frameOut
  phase := by
    obtain ⟨hp, hsettled⟩ := h.idle hidle
    rw [State.phaseInv_idle (hphase.trans hp), hwo, hfo]
    exact hsettled

theorem State.Inv.startEncode {s : State} (h : s.Inv) (hidle : s.st.busy = false) : s.startEncode.Inv :=
  ⟨h.canonical, h.frameLen, h.wireLen, rfl, h.wireOut, h.frameOut,
    (State.phaseInv_eCheck rfl).mpr (h.idle hidle).2⟩

theorem State.Inv.startDecode {s : State} (h : s.Inv) (hidle : s.st.busy = false) (hcap : s.wi.len ≤ Config.wiCap) :
    s.startDecode.Inv :=
  ⟨h.canonical, h.frameLen, h.wireLen, rfl, h.wireOut, h.frameOut,
    (State.phaseInv_decodeAccepted rfl rfl).mpr ⟨hcap, (h.idle hidle).2⟩⟩

/-- After the reset event nothing holds a value (R230, R35). -/
theorem State.resetEvent_inv (s : State) : s.resetEvent.Inv :=
  ⟨⟨rfl, rfl, rfl, rfl, trivial, trivial⟩, Nat.two_pow_pos _, Nat.two_pow_pos _, rfl, nofun, nofun, trivial, trivial⟩

/-! ### The obligations -/

/-- Settles O58: nothing holds a value and no command runs. -/
theorem resetMeetsTheInvariant : Obligations.ResetMeetsTheInvariant :=
  ⟨⟨rfl, rfl, rfl, rfl, trivial, trivial⟩, Nat.two_pow_pos _, Nat.two_pow_pos _, rfl, nofun, nofun, trivial, trivial⟩

/-- Settles O59: by everything a step can make of a state. -/
theorem everyStepKeepsTheInvariant : Obligations.EveryStepKeepsTheInvariant := by
  intro s t hinv hstep
  have h := hinv.host s.pending.tail s.reads s.draws
  cases step_becomes hstep with
  | same ht =>
    rw [ht]
    exact h.host _ _ _
  | advance => exact h.advance
  | reset => exact State.resetEvent_inv _
  | marshal _ hidle => exact h.marshal (h.idle hidle).2.2
  | parse _ hidle =>
    exact h.decodeEnded (State.parse_writtenBy _) (h.idle hidle).2.1 (State.parse_atRest _) (State.parse_decodeEnded _)
  | control hidle crc => exact h.of_idle hidle rfl rfl rfl rfl h.canonical h.frameLen h.wireLen
  | input _ _ hidle hw =>
    refine h.of_idle hidle ?_ ?_ ?_ ?_ (hw.canonical h.canonical) (hw.frameLen h.frameLen) (hw.wireLen h.wireLen) <;>
      rw [hw.rest]
  | startEncode hidle => exact h.startEncode hidle
  | startDecode hidle hcap => exact h.startDecode hidle hcap

end Sys2Proof.Machine

/-! PROOFS. The sequencer refines the atomic commands (R63, R151, R177): a command started by a raw write of `CMD` and
left alone ends in the state of the atomic one (O41, O42). -/

namespace Sys2Proof.Machine

/-! ### A run to a given end -/

/-- If every step from a state with `P` leads to `final` or keeps `P`, and `P` holds of running commands alone, then the
run leads to `final`. -/
theorem run_ends_in {P : State → Prop} {final : State}
    (hrun : ∀ x, P x → x.pending = [] ∧ x.phase ≠ .idle ∧ x.PtrInPhase)
    (hstep : ∀ x, P x → x.advance = final ∨ P x.advance) {s : State} (hs : P s) :
    ∃ n, Sys2Proof.core.run n s = .next final := by
  induction hleft : s.stepsLeft using Nat.strong_induction_on generalizing s with
  | _ left ih =>
    obtain ⟨hpending, hrunning, hin⟩ := hrun s hs
    have hone := run_succ_of_step (step_nil hpending)
    obtain hend | hnext := hstep s hs
    · exact ⟨1, (hone 0).trans (hend ▸ run_zero _)⟩
    · obtain hrest | hon := State.advance_progress hrunning hin
      · exact absurd hrest.2 (hrun _ hnext).2.1
      · obtain ⟨n, hn⟩ := ih _ (hleft ▸ hon.stepsLeft) hnext rfl
        exact ⟨n + 1, (hone n).trans hn⟩

/-! ### ENCODE -/

theorem State.EncodeUnderWay.running {s : State} (h : s.EncodeUnderWay) :
    s.phase.command = some .encode ∧ s.PtrInPhase := by
  obtain ⟨-, hptr⟩ := h
  cases hp : s.phase <;> simp only [hp] at hptr <;> simp [State.PtrInPhase, Phase.command, hp, hptr]

theorem State.advance_writtenBy_of_command {s : State} {c : Command} (hc : s.phase.command = some c) :
    s.WrittenBy c s.advance := by
  obtain ⟨hidle, -⟩ | ⟨c', hc', hw⟩ := s.advance_writtenBy
  · simp [hidle, Phase.command] at hc
  · rw [hc, Option.some.injEq] at hc'
    exact hc' ▸ hw

theorem phase_ne_idle_of_command {p : Phase} {c : Command} (hc : p.command = some c) : p ≠ .idle := by
  rintro rfl
  simp [Phase.command] at hc

/-- An `ENCODE` under way ends where the atomic one does. -/
theorem State.EncodeUnderWay.run {s : State} (h : s.EncodeUnderWay) (hpending : s.pending = []) :
    ∃ n, Sys2Proof.core.run n s = .next s.marshal := by
  refine run_ends_in (P := fun x => x.EncodeUnderWay ∧ x.pending = [] ∧ x.marshal = s.marshal) ?_ ?_ ⟨h, hpending, rfl⟩
  · rintro x ⟨hway, hx, -⟩
    obtain ⟨hc, hin⟩ := hway.running
    exact ⟨hx, phase_ne_idle_of_command hc, hin⟩
  · rintro x ⟨hway, hx, hsame⟩
    have hw := State.advance_writtenBy_of_command hway.running.1
    obtain hend | hnext := hway.advance
    · exact .inl (hend.trans hsame)
    · exact .inr ⟨hnext, hw.pending.trans hx, (hw.marshal_eq hway.1.fits).trans hsame⟩

/-- A command written to `CMD` of an idle block with nothing else pending starts. -/
theorem run_commandWrite {s t : State} {v : Nat} (hpending : s.pending = []) (hv : v < 4)
    (h : s.commandWrite (BitVec.ofNat 2 v) = .next t) (n : Nat) :
    Sys2Proof.core.run (n + 1) { s with pending := [.wr .cmd v] } = Sys2Proof.core.run n t := by
  apply run_succ_of_step
  have hs : ({ s with pending := [] } : State) = s := by rw [← hpending]
  rw [step_of_pending_commandWrite (s := { s with pending := [.wr .cmd v] }) hv rfl]
  exact hs.symm ▸ h

theorem State.startEncode_marshal (s : State) : s.startEncode.marshal = s.marshal := rfl

/-- Settles O41: an oversized Frame ends the command at its check, and another is written byte by byte. -/
theorem sequencerRefinesEncode : Obligations.SequencerRefinesEncode := by
  intro s hidle hpending
  have hstart (n : Nat) := run_commandWrite (v := 1) hpending (by decide) (State.commandWrite_of_idle hidle _) n
  have hcheck : s.startEncode.advance = s.startEncode.stepECheck := rfl
  have hone (n : Nat) := run_succ_of_step (step_nil (s := s.startEncode) hpending) n
  rw [execEncode_of_idle hidle]
  by_cases hbig : 65535 < s.fi.len
  · have hend : s.startEncode.advance = s.marshal := by
      rw [hcheck, State.stepECheck_of_oversized (by exact hbig), State.marshal_of_oversized hbig]
      rfl
    exact ⟨1, (hstart 1).trans ((hone 0).trans (hend ▸ run_zero _))⟩
  · have hfit : s.startEncode.fi.len ≤ 65535 := Nat.le_of_not_lt hbig
    have hw := s.startEncode.stepECheck_writtenBy
    obtain ⟨n, hn⟩ := (State.stepECheck_underWay hfit).run (hw.pending.trans hpending)
    rw [hw.marshal_eq hfit, State.startEncode_marshal] at hn
    exact ⟨n + 1, (hstart _).trans ((hone n).trans hn)⟩

/-! ### DECODE: what the registers hold -/

/-- One more checksum byte is shifted into `SUMRX` (R166). -/
theorem be32_shiftIn (v : Sum) (b : Byte) : be32 (v.extractLsb' 0 24 ++ b) = (be32 v).drop 1 ++ [b] := by
  have hb := b.isLt
  have hv := v.isLt
  have happend : (v.extractLsb' 0 24 ++ b : Sum).toNat = v.toNat % 2 ^ 24 * 256 + b.toNat := by
    rw [BitVec.toNat_append, ← Nat.shiftLeft_add_eq_or_of_lt hb, Nat.shiftLeft_eq, BitVec.extractLsb'_toNat]
    rfl
  simp only [be32, List.drop_succ_cons, List.drop_zero, List.cons_append, List.nil_append, List.cons.injEq, and_true]
  refine ⟨?_, ?_, ?_, ?_⟩ <;> apply BitVec.eq_of_toNat_eq <;>
    simp only [BitVec.extractLsb'_toNat, happend, Nat.shiftRight_eq_div_pow] <;> omega

theorem eq_fromBe32_of_be32 {v : Sum} {a b c d : Byte} (h : be32 v = [a, b, c, d]) : v = fromBe32 a b c d := by
  simp only [be32, List.cons.injEq, and_true] at h
  obtain ⟨rfl, rfl, rfl, rfl⟩ := h
  exact (fromBe32_be32 v).symm

/-- The upper half of a length. -/
theorem fromBe16_upper (a b : Byte) : (fromBe16 a b).extractLsb' 8 8 = a :=
  BitVec.extractLsb'_append_eq_left

/-- What `LEN16` and `SUMRX` hold in each phase of a `DECODE` of the input in `s` (R162, R166). -/
def State.RegistersRead (s x : State) : Prop :=
  match x.phase with
  | .dHdr => x.sumrx = s.sumrx ∧ (x.ptr.toNat = 3 → x.len16.extractLsb' 8 8 = s.wireByte 2)
  | .dPay => x.sumrx = s.sumrx ∧ x.len16 = s.wireLength
  | .dSum =>
    x.len16 = s.wireLength
      ∧ (be32 x.sumrx).drop (8 + s.lengthField - x.ptr.toNat)
        = s.wireIn (4 + s.lengthField) (x.ptr.toNat - (4 + s.lengthField))
  | .dCmp => x.len16 = s.wireLength ∧ x.sumrx = s.wireChecksum s.lengthField
  | .idle | .eCheck | .eHdr | .ePay | .eSum => False

section Registers

variable {s x : State}

theorem State.not_registersRead_of_idle (hphase : x.phase = .idle) : ¬ s.RegistersRead x := by
  simp only [State.RegistersRead, hphase, not_false_eq_true]

theorem State.registersRead_dHdr (hphase : x.phase = .dHdr) :
    s.RegistersRead x ↔ x.sumrx = s.sumrx ∧ (x.ptr.toNat = 3 → x.len16.extractLsb' 8 8 = s.wireByte 2) := by
  simp only [State.RegistersRead, hphase]

theorem State.registersRead_dPay (hphase : x.phase = .dPay) :
    s.RegistersRead x ↔ x.sumrx = s.sumrx ∧ x.len16 = s.wireLength := by
  simp only [State.RegistersRead, hphase]

theorem State.registersRead_dSum (hphase : x.phase = .dSum) :
    s.RegistersRead x ↔ x.len16 = s.wireLength
      ∧ (be32 x.sumrx).drop (8 + s.lengthField - x.ptr.toNat)
        = s.wireIn (4 + s.lengthField) (x.ptr.toNat - (4 + s.lengthField)) := by
  simp only [State.RegistersRead, hphase]

theorem State.registersRead_dCmp (hphase : x.phase = .dCmp) :
    s.RegistersRead x ↔ x.len16 = s.wireLength ∧ x.sumrx = s.wireChecksum s.lengthField := by
  simp only [State.RegistersRead, hphase]

end Registers

/-! ### DECODE: the ends -/

section Ends

variable {s t u : State}

/-- Two states that a `DECODE` of `s` came to end alike if their record and working registers agree. -/
theorem State.WrittenBy.finish_eq (ht : s.WrittenBy .decode t) (hu : s.WrittenBy .decode u) (hfo : t.fo = u.fo)
    (hcrc : t.crc = u.crc) (hptr : t.ptr = u.ptr) (hlen : t.len16 = u.len16) (hsumrx : t.sumrx = u.sumrx)
    (code : StatusCode) : t.finish code = u.finish code := by
  simp only [State.finish, ht.fi, hu.fi, ht.wi, hu.wi, ht.wo rfl, hu.wo rfl, hfo, hcrc, hptr, hlen, hsumrx,
    ht.pending, hu.pending, ht.reads, hu.reads, ht.epoch, hu.epoch, ht.draws, hu.draws]

theorem State.WrittenBy.raise_eq (ht : s.WrittenBy .decode t) (hu : s.WrittenBy .decode u) (hcrc : t.crc = u.crc)
    (hptr : t.ptr = u.ptr) (hlen : t.len16 = u.len16) (hsumrx : t.sumrx = u.sumrx) (e : CodecError) :
    t.raise .decode e = u.raise .decode e := by
  have habsent {x : State} (hx : s.WrittenBy .decode x) : s.WrittenBy .decode { x with fo := .absent } :=
    hx.trans (x.writtenBy_fo (o := .absent) fun _ => trivial)
  exact (habsent ht).finish_eq (habsent hu) rfl hcrc hptr hlen hsumrx _

theorem State.WrittenBy.wireIn_eq {c : Command} (h : s.WrittenBy c t) (a n : Nat) : t.wireIn a n = s.wireIn a n :=
  State.wireIn_congr a n (congrArg WireIn.bytes h.wi) h.epoch

theorem State.WrittenBy.wireByte_eq {c : Command} (h : s.WrittenBy c t) (i : Nat) : t.wireByte i = s.wireByte i := by
  rw [State.wireByte_congr (congrArg WireIn.bytes h.wi) h.epoch]

/-- An error found once `n` bytes have passed. -/
theorem State.WrittenBy.raise_eq_consumed (hu : s.WrittenBy .decode u) {n : Nat} (hnoted : u.Noted n)
    (hptr : u.ptr.toNat = n) (hlen : u.len16 = s.wireLength) (hsumrx : u.sumrx = s.sumrx) (e : CodecError) :
    u.raise .decode e = (s.consumed n).raise .decode e := by
  refine hu.raise_eq (s.consumed_writtenBy n) ?_ ?_ hlen hsumrx e
  · rw [hnoted.crc, hu.wireIn_eq, State.consumed_crc]
  · rw [State.consumed_ptr, ← hptr, BitVec.ofNat_toNat, BitVec.setWidth_eq]

end Ends

/-! ### DECODE: one step in each phase -/

/-- A `DECODE` of the input in `s` has come to `x`. -/
structure State.ReadsInto (s x : State) : Prop where
  written : s.WrittenBy .decode x
  underWay : x.DecodeUnderWay
  registers : s.RegistersRead x

section Steps

variable {s x : State}

/-- Behind the payload: the checksum is missing, or it is read next. -/
theorem State.enterDSum_refines (hw : s.WrittenBy .decode x) (hnoted : x.Noted (4 + x.len16.toNat))
    (hptr : x.ptr.toNat = 4 + x.len16.toNat) (hlong : 4 + x.len16.toNat ≤ x.wi.len) (hlen : x.len16 = s.wireLength)
    (hsumrx : x.sumrx = s.sumrx) : x.enterDSum = s.parse ∨ s.RegistersRead x.enterDSum := by
  have hfield : x.len16.toNat = s.lengthField := by rw [hlen, State.wireLength_toNat]
  rw [hfield] at hptr hlong hnoted
  obtain ⟨hshort, hraise⟩ | ⟨-, henter⟩ := x.enterDSum_outcome (by omega)
  · left
    rw [hw.wi, hfield] at hshort
    rw [hw.wi] at hlong
    rw [hraise, State.parse_of_short_checksum (by omega) (by omega) hshort]
    exact hw.raise_eq_consumed hnoted hptr hlen hsumrx _
  · right
    rw [henter, State.registersRead_dSum rfl]
    refine ⟨hlen, ?_⟩
    dsimp only
    rw [hptr, Nat.sub_self, show 8 + s.lengthField - (4 + s.lengthField) = 4 by omega]
    rfl

/-- Behind the header: the payload is incomplete, or empty, or read next. -/
theorem State.enterDPay_refines (hw : s.WrittenBy .decode x) (hnoted : x.Noted 4) (hptr : x.ptr.toNat = 4)
    (hheader : 4 ≤ x.wi.len) (hlen : x.len16 = s.wireLength) (hsumrx : x.sumrx = s.sumrx) :
    x.enterDPay = s.parse ∨ s.RegistersRead x.enterDPay := by
  obtain ⟨hshort, hraise⟩ | ⟨hlong, hempty, henter⟩ | ⟨-, -, henter⟩ := x.enterDPay_outcome hheader
  · left
    rw [hw.wi, hlen, State.wireLength_toNat] at hshort
    rw [hraise, State.parse_of_short_payload (hw.wi ▸ hheader) hshort]
    exact hw.raise_eq_consumed hnoted hptr hlen hsumrx _
  · rw [henter]
    exact State.enterDSum_refines hw (by rwa [hempty]) (by omega) hlong hlen hsumrx
  · right
    rw [henter, State.registersRead_dPay rfl]
    exact ⟨hsumrx, hlen⟩

theorem State.stepDHdr_refines (hw : s.WrittenBy .decode x) (hphase : x.phase = .dHdr) (hheader : 4 ≤ x.wi.len)
    (hptr : x.ptr.toNat < 4) (hread : x.ptr ≠ 0#17 → x.Noted x.ptr.toNat) (hregs : s.RegistersRead x) :
    x.stepDHdr = s.parse ∨ s.RegistersRead x.stepDHdr := by
  obtain ⟨hsumrx, hupper⟩ := (State.registersRead_dHdr hphase).mp hregs
  have hw' := hw.trans x.headerByteRead_writtenBy
  have hsumrx' := x.headerByteRead_sumrx.trans hsumrx
  have hnext : x.headerByteRead.ptr.toNat = x.ptr.toNat + 1 := by
    rw [State.headerByteRead_ptr]
    exact ptr_succ_toNat (by omega)
  obtain ⟨-, hshort, -⟩ | ⟨-, hnoted, ⟨hlast, hstep⟩ | ⟨hmore, hstep⟩⟩ :=
    State.stepDHdr_outcome hptr fun hne => ⟨hheader, hread hne⟩
  · omega
  · have hlen : x.headerByteRead.len16 = s.wireLength := by
      rw [State.headerByteRead_len16, if_neg (by omega), if_pos hlast, hupper hlast, hw.wireByte_eq, State.wireLength]
    rw [hstep]
    rw [hlast] at hnoted hnext
    exact State.enterDPay_refines hw' hnoted hnext (by rwa [State.headerByteRead_wi]) hlen hsumrx'
  · right
    rw [hstep, State.registersRead_dHdr (by rw [State.headerByteRead_phase, hphase])]
    refine ⟨hsumrx', fun hthree => ?_⟩
    rw [State.headerByteRead_len16, if_pos (by omega), fromBe16_upper, hw.wireByte_eq]

theorem State.stepDPay_refines (h : s.ReadsInto x) (hphase : x.phase = .dPay) :
    x.stepDPay = s.parse ∨ s.RegistersRead x.stepDPay := by
  obtain ⟨hsumrx, hlen⟩ := (State.registersRead_dPay hphase).mp h.registers
  obtain ⟨-, hnoted, hlong, ⟨hlast, hstep⟩ | ⟨-, hstep⟩⟩ := State.stepDPay_outcome hphase h.underWay
  · rw [hstep]
    exact State.enterDSum_refines (h.written.trans (x.writtenBy_absorb _)) (by rwa [hlast] at hnoted) hlast hlong hlen
      hsumrx
  · right
    rw [hstep]
    exact (State.registersRead_dPay (by exact hphase)).mpr ⟨hsumrx, hlen⟩

theorem State.stepDSum_refines (h : s.ReadsInto x) (hphase : x.phase = .dSum) : s.RegistersRead x.stepDSum := by
  obtain ⟨hlen, hsum⟩ := (State.registersRead_dSum hphase).mp h.registers
  obtain ⟨hlow, hhigh, -⟩ := (State.decodeUnderWay_dSum hphase).mp h.underWay
  have hfield : x.len16.toNat = s.lengthField := by rw [hlen, State.wireLength_toNat]
  have hnext := ptr_succ_toNat (p := x.ptr) (by omega)
  have hsum' : (be32 (x.sumrx.extractLsb' 0 24 ++ x.wireByte x.ptr.toNat)).drop (8 + s.lengthField - (x.ptr.toNat + 1))
      = s.wireIn (4 + s.lengthField) (x.ptr.toNat + 1 - (4 + s.lengthField)) := by
    rw [be32_shiftIn, List.drop_append_of_le_length (by simp; omega), List.drop_drop,
      show 1 + (8 + s.lengthField - (x.ptr.toNat + 1)) = 8 + s.lengthField - x.ptr.toNat by omega, hsum,
      show x.ptr.toNat + 1 - (4 + s.lengthField) = x.ptr.toNat - (4 + s.lengthField) + 1 by omega, State.wireIn_succ,
      Nat.add_sub_cancel' (by omega), h.written.wireByte_eq]
  unfold State.stepDSum
  dsimp only
  split_ifs with hlast
  · rw [State.registersRead_dCmp rfl]
    refine ⟨hlen, ?_⟩
    have hptr : x.ptr.toNat + 1 = 8 + s.lengthField := by omega
    rw [hptr, Nat.sub_self, show 8 + s.lengthField - (4 + s.lengthField) = 4 by omega] at hsum'
    have hchecksum := eq_fromBe32_of_be32 hsum'
    dsimp only
    rw [hchecksum, State.wireChecksum]
    ring_nf
  · rw [State.registersRead_dSum (by exact hphase)]
    refine ⟨hlen, ?_⟩
    dsimp only
    rwa [hnext]

/-- The comparison ends as the atomic `DECODE` does (R168, R169). -/
theorem State.stepDCmp_refines (h : s.ReadsInto x) (hphase : x.phase = .dCmp) : x.stepDCmp = s.parse := by
  obtain ⟨hlen, hsum⟩ := (State.registersRead_dCmp hphase).mp h.registers
  obtain ⟨hptr, hcomplete, hnoted⟩ := (State.decodeUnderWay_dCmp hphase).mp h.underWay
  have hfield : x.len16.toNat = s.lengthField := by rw [hlen, State.wireLength_toNat]
  have hframe : x.notedFrame = s.parsedFrame s.wireLength := by
    rw [hnoted.notedFrame, State.parsedFrame, State.parsedFrame, hlen, h.written.wireByte_eq, h.written.wireByte_eq,
      h.written.wireIn_eq]
  have hcrc : x.crc = s.compared.crc := by
    rw [hnoted.crc, hfield, h.written.wireIn_eq]
    rfl
  have hptr' : x.ptr = s.compared.ptr := by
    apply BitVec.eq_of_toNat_eq
    have := x.ptr.isLt
    rw [hptr, hfield, State.compared, BitVec.toNat_ofNat, Nat.mod_eq_of_lt (by omega)]
  have hout : crcOut x.crc = crc32 (s.wireIn 0 (4 + s.lengthField)) := by rw [hcrc]; rfl
  rw [hfield, h.written.wi] at hcomplete
  rw [State.parse_of_complete hcomplete, State.stepDCmp, checksumDiffers_eq, hout, hframe]
  by_cases hsame : x.sumrx = crc32 (s.wireIn 0 (4 + s.lengthField))
  · rw [if_neg (by simpa using hsame), if_pos (hsum ▸ hsame)]
    have hvalid {y : State} (hy : s.WrittenBy .decode y) :=
      hy.trans (y.writtenBy_fo_valid (r := s.parsedFrame s.wireLength) fun _ => Memory.wf_ofBytes _ _)
    exact (hvalid h.written).finish_eq (hvalid s.compared_writtenBy) rfl hcrc hptr' hlen hsum _
  · rw [if_pos (by simpa using hsame), if_neg (hsum ▸ hsame)]
    exact h.written.raise_eq s.compared_writtenBy hcrc hptr' hlen hsum _

/-- A step of a `DECODE` ends as the atomic one does or goes on. -/
theorem State.ReadsInto.advance (h : s.ReadsInto x) : x.advance = s.parse ∨ s.ReadsInto x.advance := by
  have hc := h.underWay.command
  have hw := h.written.trans (State.advance_writtenBy_of_command hc)
  have hout : x.advance = s.parse ∨ s.RegistersRead x.advance := by
    cases hphase : x.phase with
    | dHdr =>
      obtain ⟨-, hptr, hheader, hnoted⟩ := (State.decodeUnderWay_dHdr hphase).mp h.underWay
      simpa only [State.advance, hphase] using
        State.stepDHdr_refines h.written hphase hheader hptr (fun _ => hnoted) h.registers
    | dPay => simpa only [State.advance, hphase] using State.stepDPay_refines h hphase
    | dSum => exact .inr (by simpa only [State.advance, hphase] using State.stepDSum_refines h hphase)
    | dCmp => exact .inl (by simpa only [State.advance, hphase] using State.stepDCmp_refines h hphase)
    | idle | eCheck | eHdr | ePay | eSum => simp [hphase, Phase.command] at hc
  refine hout.imp_right fun hregs => ⟨hw, ?_, hregs⟩
  obtain hend | hway := h.underWay.advance
  · exact absurd hregs (State.not_registersRead_of_idle hend.1)
  · exact hway

end Steps

/-! ### DECODE: the run -/

theorem State.DecodeUnderWay.ptrInPhase {s : State} (h : s.DecodeUnderWay) : s.PtrInPhase := by
  unfold State.DecodeUnderWay at h
  unfold State.PtrInPhase
  split at h <;> simp [*] at h ⊢

/-- A `DECODE` under way ends where the atomic one does. -/
theorem State.ReadsInto.run {s x : State} (h : s.ReadsInto x) (hpending : s.pending = []) :
    ∃ n, Sys2Proof.core.run n x = .next s.parse :=
  run_ends_in (P := s.ReadsInto)
    (fun _ hx => ⟨hx.written.pending.trans hpending, phase_ne_idle_of_command hx.underWay.command,
      hx.underWay.ptrInPhase⟩)
    (fun _ hx => hx.advance) h

theorem State.startDecode_parse (s : State) : s.startDecode.parse = s.parse := rfl

/-- The first step of a `DECODE`: the header is missing, or its first byte is read. -/
theorem State.startDecode_advance (s : State) :
    s.startDecode.advance = s.startDecode.parse ∨ s.startDecode.ReadsInto s.startDecode.advance := by
  have hstep : s.startDecode.advance = s.startDecode.stepDHdr := rfl
  have hfirst : s.startDecode.ptr ≠ 0#17 → s.startDecode.Noted s.startDecode.ptr.toNat := fun hne => absurd rfl hne
  by_cases hheader : s.wi.len < 4
  · left
    rw [hstep, State.stepDHdr_eq, if_pos (by simpa using hheader), State.parse_of_short_header (by exact hheader)]
    rfl
  have hheader : 4 ≤ s.startDecode.wi.len := Nat.le_of_not_lt hheader
  have hregs : s.startDecode.RegistersRead s.startDecode :=
    (State.registersRead_dHdr rfl).mpr ⟨rfl, nofun⟩
  refine (State.stepDHdr_refines (State.writtenBy_refl _ _) rfl hheader (by simp) hfirst hregs).imp_right
    fun hregs' => ⟨s.startDecode.stepDHdr_writtenBy, ?_, hregs'⟩
  obtain hend | hway :=
    State.stepDHdr_endedOrUnderWay (s := s.startDecode) rfl (by simp) fun hne => ⟨hheader, hfirst hne⟩
  · exact absurd hregs' (State.not_registersRead_of_idle hend.1)
  · exact hway

/-- Settles O42: the input ends the command at its first check or is read byte by byte. -/
theorem sequencerRefinesDecode : Obligations.SequencerRefinesDecode := by
  intro s hidle hpending hcap
  have haccept : s.commandWrite (BitVec.ofNat 2 2) = .next s.startDecode :=
    (State.commandWrite_of_idle hidle _).trans (if_pos ((fitsWire_iff _).mpr hcap))
  have hstart (n : Nat) := run_commandWrite (v := 2) hpending (by decide) haccept n
  have hone (n : Nat) := run_succ_of_step (step_nil (s := s.startDecode) hpending) n
  rw [execDecode_of_idle hidle hcap, ← State.startDecode_parse]
  obtain hend | hreads := s.startDecode_advance
  · exact ⟨1, (hstart 1).trans ((hone 0).trans (hend ▸ run_zero _))⟩
  · obtain ⟨n, hn⟩ := hreads.run hpending
    exact ⟨n + 1, (hstart _).trans ((hone n).trans hn)⟩

end Sys2Proof.Machine

/-! PROOFS. Valid Wire Frames (R85): what `ENCODE` delivers is one, `DECODE` succeeds exactly on inputs that begin with
one, a flipped bit makes one invalid, and a presented one decodes (O23, O30, O33, O35 to O37). -/

namespace Sys2Proof.Machine

/-! ### A Wire Frame begins with a valid one (R85) -/

theorem wireBytes_length_wordOf2 (v k : Byte) {p : List Byte} (c : Sum) (hp : p.length ≤ 65535) :
    wordOf2 ((wireBytes v k p c).getD 2 0#8) ((wireBytes v k p c).getD 3 0#8) = p.length := by
  rw [wireBytes_eq_cons]
  exact (wordOf2_be16 _).trans (ofNat_length_toNat hp)

theorem wireBytes_take_covered (v k : Byte) (p : List Byte) (c : Sum) :
    (wireBytes v k p c).take (4 + p.length) = headerBytes v k (BitVec.ofNat 16 p.length) ++ p :=
  List.take_left' (by simp)

theorem wireBytes_checksum_wordOf4 (v k : Byte) (p : List Byte) (c : Sum) :
    wordOf4 ((wireBytes v k p c).getD (4 + p.length) 0#8) ((wireBytes v k p c).getD (5 + p.length) 0#8)
      ((wireBytes v k p c).getD (6 + p.length) 0#8) ((wireBytes v k p c).getD (7 + p.length) 0#8) = c.toNat := by
  have hbyte (m : Nat) : (wireBytes v k p c).getD (4 + m + p.length) 0#8 = (be32 c).getD m 0#8 := by
    rw [List.getD_eq_getElem?_getD, wireBytes_getElem?_checksum, List.getD_eq_getElem?_getD]
  rw [hbyte 0, hbyte 1, hbyte 2, hbyte 3]
  exact wordOf4_be32 c

theorem IsValidFrame.begins {bytes : List Byte} (h : IsValidFrame bytes) : BeginsWithValidFrame bytes := by
  obtain ⟨v, k, p, hp, rfl⟩ := h
  refine ⟨by rw [wireBytes_length]; omega, ?_⟩
  dsimp only
  rw [wireBytes_length_wordOf2 v k _ hp, wireBytes_length, wireBytes_checksum_wordOf4, wireBytes_take_covered]
  exact ⟨le_rfl, rfl⟩

/-- Settles O23: the frame `ENCODE` delivers, of the length it has. -/
theorem encodeDeliversExactlyAValidFrame : Obligations.EncodeDeliversExactlyAValidFrame := by
  intro s hidle hfit
  have hwo := State.marshal_wo hfit
  obtain ⟨hfills, hframe⟩ := State.marshal_wo_valid hwo
  rw [State.wireLen_toNat hfit] at hfills
  exact ⟨s.marshal, execEncode_of_idle hidle, _, hwo, hfills, hframe, hframe.begins⟩

/-! ### DECODE succeeds exactly on valid frames -/

theorem State.wireIn_getD (s : State) {n i : Nat} (h : i < n) : (s.wireIn 0 n).getD i 0#8 = s.wireByte i := by
  rw [List.getD_eq_getElem?_getD, State.wireIn_getElem?, if_pos h, Option.getD_some, Nat.zero_add]

theorem State.wireIn_take (s : State) {m n : Nat} (h : m ≤ n) : (s.wireIn 0 n).take m = s.wireIn 0 m := by
  obtain ⟨k, rfl⟩ := Nat.exists_eq_add_of_le h
  rw [State.wireIn_add]
  exact List.take_left' (State.wireIn_length _ _ _)

/-- What R85 says of the input sequence, in terms of its fields. -/
theorem State.beginsWithValidFrame_iff (s : State) (n : Nat) :
    BeginsWithValidFrame (s.wireIn 0 n) ↔
      4 ≤ n ∧ s.lengthField + 8 ≤ n
        ∧ s.checksumField s.lengthField = (crc32 (s.wireIn 0 (4 + s.lengthField))).toNat := by
  rw [BeginsWithValidFrame, State.wireIn_length]
  refine and_congr_right fun hheader => ?_
  have hfield : wordOf2 ((s.wireIn 0 n).getD 2 0#8) ((s.wireIn 0 n).getD 3 0#8) = s.lengthField := by
    rw [s.wireIn_getD (by omega), s.wireIn_getD (by omega), State.lengthField]
  dsimp only
  rw [hfield]
  refine and_congr_right fun hlong => ?_
  rw [s.wireIn_getD (by omega), s.wireIn_getD (by omega), s.wireIn_getD (by omega), s.wireIn_getD (by omega),
    s.wireIn_take (by omega), State.checksumField]

theorem State.parse_code_eq_ok_iff (s : State) :
    s.parse.st.code = .ok ↔
      4 ≤ s.wi.len ∧ s.lengthField + 8 ≤ s.wi.len
        ∧ s.checksumField s.lengthField = (crc32 (s.wireIn 0 (4 + s.lengthField))).toNat := by
  rw [State.parse_code]
  split_ifs with hheader hpayload hchecksum hdiffers
  · exact ⟨nofun, fun h => by omega⟩
  · exact ⟨nofun, fun h => by omega⟩
  · exact ⟨nofun, fun h => by omega⟩
  · exact ⟨nofun, fun h => absurd h.2.2 hdiffers⟩
  · exact ⟨fun _ => ⟨by omega, by omega, not_not.mp hdiffers⟩, fun _ => rfl⟩

theorem State.parse_fo_isValid_iff (s : State) : s.parse.fo.isValid = true ↔ s.parse.st.code = .ok := by
  cases hcode : s.parse.st.code with
  | ok => simp [State.parse_of_ok hcode, Output.isValid]
  | err e => simp [State.parse_fo_of_error hcode, Output.isValid]

/-- Settles O30: the checks of `DECODE` are those of R85. -/
theorem decodeSucceedsExactlyOnValidFrames : Obligations.DecodeSucceedsExactlyOnValidFrames := by
  intro s hidle hcap
  refine ⟨s.parse, execDecode_of_idle hidle hcap, ?_, s.parse_fo_isValid_iff⟩
  rw [State.parse_code_eq_ok_iff, State.beginsWithValidFrame_iff]

/-- Settles O33: both forms of the start make the check. -/
theorem inputBeyondCapacityIsRefused : Obligations.InputBeyondCapacityIsRefused := by
  intro s hidle hbig
  have hunfit : Config.fitsWire s.wi.len = false := by
    rw [Bool.eq_false_iff, ne_eq, fitsWire_iff]
    omega
  refine ⟨by simp [exec, execDecode, hidle, hunfit], fun rest hpending => ?_⟩
  rw [step_of_pending_commandWrite (by decide) hpending,
    State.commandWrite_of_idle (s := { s with pending := rest }) hidle]
  simp [hunfit]

/-! ### One flipped bit (R176) -/

theorem State.wireIn_eq_of_agree_on {s t : State} {a n : Nat}
    (h : ∀ j, a ≤ j → j < a + n → t.wireByte j = s.wireByte j) : t.wireIn a n = s.wireIn a n :=
  List.map_congr_left fun j hj => h (a + j) (Nat.le_add_right _ _) (by have := List.mem_range.mp hj; omega)

/-- The input around its byte `i`. -/
theorem State.wireIn_split (s : State) {i n : Nat} (h : i < n) :
    s.wireIn 0 n = s.wireIn 0 i ++ s.wireByte i :: s.wireIn (i + 1) (n - (i + 1)) := by
  obtain ⟨k, rfl⟩ := Nat.exists_eq_add_of_lt h
  rw [Nat.add_assoc, Nat.add_comm k 1, State.wireIn_add, State.wireIn_add, Nat.zero_add,
    show i + (1 + k) - (i + 1) = k by omega]
  rfl

/-- The checksum field names its four bytes. -/
theorem State.checksumField_inj {s t : State} {n : Nat} (h : t.checksumField n = s.checksumField n) (m : Nat)
    (hm : m < 4) : t.wireByte (4 + n + m) = s.wireByte (4 + n + m) := by
  have hsum : t.wireChecksum n = s.wireChecksum n := by
    apply BitVec.eq_of_toNat_eq
    rw [State.wireChecksum_toNat, State.wireChecksum_toNat, h]
  have hbytes := congrArg be32 hsum
  rw [State.wireChecksum, State.wireChecksum, be32_fromBe32, be32_fromBe32] at hbytes
  simp only [List.cons.injEq, and_true] at hbytes
  obtain ⟨h0, h1, h2, h3⟩ := hbytes
  rw [Nat.add_right_comm]
  interval_cases m
  · exact h0
  · exact h1
  · exact h2
  · exact h3

/-- One other byte outside the length field makes the checksum wrong. -/
theorem State.checksum_differs_of_byte_ne {s t : State} {i : Nat}
    (hsum : s.checksumField s.lengthField = (crc32 (s.wireIn 0 (4 + s.lengthField))).toNat)
    (hi : i < 8 + s.lengthField) (hne : s.wireByte i ≠ t.wireByte i)
    (hother : ∀ j, j ≠ i → t.wireByte j = s.wireByte j) :
    t.checksumField s.lengthField ≠ (crc32 (t.wireIn 0 (4 + s.lengthField))).toNat := by
  by_cases hcovered : i < 4 + s.lengthField
  · have hfield : t.checksumField s.lengthField = s.checksumField s.lengthField := by
      simp only [State.checksumField, hother (4 + s.lengthField) (by omega), hother (5 + s.lengthField) (by omega),
        hother (6 + s.lengthField) (by omega), hother (7 + s.lengthField) (by omega)]
    have hbefore : t.wireIn 0 i = s.wireIn 0 i :=
      State.wireIn_eq_of_agree_on fun j _ hj => hother j (by omega)
    have hafter (n : Nat) : t.wireIn (i + 1) n = s.wireIn (i + 1) n :=
      State.wireIn_eq_of_agree_on fun j hj _ => hother j (by omega)
    rw [hfield, hsum, ne_eq, BitVec.toNat_inj, s.wireIn_split hcovered, t.wireIn_split hcovered, hbefore, hafter]
    exact crc32_ne_of_byte_ne _ _ hne
  · have hsame : t.wireIn 0 (4 + s.lengthField) = s.wireIn 0 (4 + s.lengthField) :=
      State.wireIn_eq_of_agree_on fun j _ hj => hother j (by omega)
    rw [hsame, ← hsum]
    intro hfield
    have hbyte := State.checksumField_inj hfield (i - (4 + s.lengthField)) (by omega)
    rw [Nat.add_sub_cancel' (by omega)] at hbyte
    exact hne hbyte.symm

/-- Settles O35: the flipped byte is covered by the checksum or lies in its field. -/
theorem flippedBitIsDetected : Obligations.FlippedBitIsDetected := by
  intro s t i k _ hidle hcap hlen hcomplete hsum hi hi2 hi3 hk hflip hother
  have hne : s.wireByte i ≠ t.wireByte i := hflip ▸ byte_ne_flip _ hk
  have hlength : t.lengthField = s.lengthField := by
    rw [State.lengthField, hother 2 hi2.symm, hother 3 hi3.symm, State.lengthField]
  have hcode : t.parse.st.code = .err .checksumMismatch := by
    rw [State.parse_code_eq_checksumMismatch_iff, hlength, hlen]
    exact ⟨hcomplete, State.checksum_differs_of_byte_ne hsum hi hne hother⟩
  refine ⟨t.parse, execDecode_of_idle hidle (hlen ▸ hcap), ?_, State.parse_fo_of_error hcode⟩
  change Status.mk t.parse.st.busy t.parse.st.code = _
  rw [t.parse_atRest.1, hcode]

/-! ### A presented Wire Frame (R234) -/

theorem execWireframe_of_idle {s : State} (hidle : s.st.busy = false) (v k : Byte) {p : List Byte} (c : Sum)
    (hp : p.length ≤ 65535) : exec (.wireframe v k p c) s = .next (s.present (wireBytes v k p c)) := by
  simp [exec, execWireframe, hp, hidle]

theorem State.present_cell (s : State) (l : List Byte) (i : Nat) :
    (s.present l).cell .wiBytes i = if i < l.length then l[i]? else s.cell .wiBytes i := by
  change Memory.read (Memory.writeBytes s.wi.bytes 0 l) i = if i < l.length then l[i]? else Memory.read s.wi.bytes i
  simpa using Memory.read_writeBytes l s.wi.bytes 0 i

/-- `DECODE` reads what has been presented. -/
theorem State.present_wireIn (s : State) (l : List Byte) : (s.present l).wireIn 0 l.length = l := by
  refine List.ext_getElem? fun i => ?_
  rw [State.wireIn_getElem?]
  split_ifs with hi
  · have hcell := s.present_cell l i
    rw [if_pos hi, List.getElem?_eq_getElem hi] at hcell
    rw [Nat.zero_add, State.wireByte_of_cell hcell, List.getElem?_eq_getElem hi]
  · exact (List.getElem?_eq_none (Nat.le_of_not_lt hi)).symm

theorem State.present_wireByte (s : State) {l : List Byte} {i : Nat} (hi : i < l.length) :
    (s.present l).wireByte i = l.getD i 0#8 := by
  rw [← (s.present l).wireIn_getD hi, State.present_wireIn]

section Presented

variable (s : State) (v k : Byte) {p : List Byte} (c : Sum)

theorem State.present_lengthField (hp : p.length ≤ 65535) :
    (s.present (wireBytes v k p c)).lengthField = p.length := by
  rw [State.lengthField, State.present_wireByte _ (by rw [wireBytes_length]; omega),
    State.present_wireByte _ (by rw [wireBytes_length]; omega), wireBytes_length_wordOf2 v k c hp]

theorem State.present_checksumField : (s.present (wireBytes v k p c)).checksumField p.length = c.toNat := by
  have hbyte (m : Nat) (hm : m < 8) :=
    s.present_wireByte (l := wireBytes v k p c) (i := m + p.length) (by rw [wireBytes_length]; omega)
  rw [State.checksumField, hbyte 4 (by decide), hbyte 5 (by decide), hbyte 6 (by decide), hbyte 7 (by decide),
    wireBytes_checksum_wordOf4]

theorem State.present_covered :
    (s.present (wireBytes v k p c)).wireIn 0 (4 + p.length) = headerBytes v k (BitVec.ofNat 16 p.length) ++ p := by
  have hall := s.present_wireIn (wireBytes v k p c)
  rw [wireBytes_length] at hall
  rw [← State.wireIn_take _ (show 4 + p.length ≤ p.length + 8 by omega), hall, wireBytes_take_covered]

theorem State.present_cell_payload {i : Nat} (hi : i < p.length) :
    (s.present (wireBytes v k p c)).cell .wiBytes (4 + i) = p[i]? := by
  rw [State.present_cell, if_pos (by rw [wireBytes_length]; omega), wireBytes_getElem?_payload v k p c hi]

end Presented

/-- Settles O36: the frame's bytes are the first cells of `WI`. -/
theorem wireFrameIsPresentedAtWI : Obligations.WireFrameIsPresentedAtWI := by
  intro s v k p c hidle hp
  have hcell {j : Nat} (hj : j < 4) : (s.present (wireBytes v k p c)).cell .wiBytes j
      = (headerBytes v k (BitVec.ofNat 16 p.length))[j]? := by
    rw [State.present_cell, if_pos (by rw [wireBytes_length]; omega), wireBytes_getElem?_header v k p c hj]
  refine ⟨_, execWireframe_of_idle hidle v k c hp, wireBytes_length v k p c, hcell (by decide), hcell (by decide),
    s.present_lengthField v k c hp, fun i hi => s.present_cell_payload v k c hi, s.present_checksumField v k c,
    fun i hi => ?_, rfl⟩
  rw [State.present_cell, if_neg (by rw [wireBytes_length]; omega)]

/-- Settles O37: presenting leaves an idle block with a complete input, whose checksum decides. -/
theorem presentedFrameDecodesWhenItsChecksumIsRight : Obligations.PresentedFrameDecodesWhenItsChecksumIsRight := by
  intro s v k p c hidle hp
  have hlength := s.present_lengthField v k c hp
  have hfield := s.present_checksumField v k c (p := p)
  have hcovered := s.present_covered v k c (p := p)
  have hpayload {i : Nat} (hi : i < p.length) := s.present_cell_payload v k c hi
  have hlen : (s.present (wireBytes v k p c)).wi.len = p.length + 8 := wireBytes_length v k p c
  have hbyte (j : Nat) (hj : j < 2) :=
    s.present_wireByte (l := wireBytes v k p c) (i := j) (by rw [wireBytes_length]; omega)
  have hcap := wiCap_bounds.1
  have hidle' : (s.present (wireBytes v k p c)).st.busy = false := hidle
  have hrun := execAll_cons_of_next (rest := [.decode]) (execWireframe_of_idle hidle v k c hp)
  generalize s.present (wireBytes v k p c) = t at *
  have hdecode := execDecode_of_idle hidle' (hlen ▸ (by omega))
  refine ⟨t.parse, hrun.trans (execAll_cons_of_next hdecode), fun hright => ?right, fun hwrong => ?wrong⟩
  case right =>
    obtain ⟨u, hu, ⟨r, hfo, hversion, hkind, hrlen⟩, hcells, -, hst, -⟩ :=
      decodeDeliversTheFrame t hidle' (by omega) (by omega) (by rw [hlength, hfield, hcovered, hright])
    rw [hdecode, Host.Outcome.next.injEq] at hu
    rw [hu]
    refine ⟨by rw [hst], ⟨r, hfo, ?_, ?_, by rw [hrlen, hlength]⟩, fun i hi => ?_⟩
    · rw [hversion, hbyte 0 (by decide)]
      rfl
    · rw [hkind, hbyte 1 (by decide)]
      rfl
    · have hi' := hpayload hi
      rw [List.getElem?_eq_getElem hi] at hi'
      rw [hcells i (by omega), State.wireByte_of_cell hi', List.getElem?_eq_getElem hi]
  case wrong =>
    have hcode : t.parse.st.code = .err .checksumMismatch := by
      rw [State.parse_code_eq_checksumMismatch_iff, hlength, hfield, hcovered, hlen]
      exact ⟨by omega, fun h => hwrong (BitVec.toNat_inj.mp h)⟩
    exact ⟨hcode, State.parse_fo_of_error hcode⟩

end Sys2Proof.Machine

/-! PROOFS. The host's accesses (R32, R50, R56, R195, R235 to R237): one equation per kind of access, by what the block
is doing, then the statements about them (O44, O48 to O53, O55 to O57). -/

namespace Sys2Proof.Machine

/-! ### Writes -/

theorem State.inputWrite_of_busy {s : State} (h : s.st.busy = true) (s' : State) :
    s.inputWrite s' = .refused .inputWriteWhileBusy :=
  if_pos h

theorem State.inputWrite_of_idle {s : State} (h : s.st.busy = false) (s' : State) : s.inputWrite s' = .next s' :=
  if_neg (by simp [h])

section Write

variable (s : State) {v i : Nat}

theorem State.writeReg_fiVersion (hv : v < 256) :
    s.writeReg .fiVersion v = s.inputWrite { s with fi := { s.fi with version := BitVec.ofNat 8 v } } :=
  if_pos hv

theorem State.writeReg_fiKind (hv : v < 256) :
    s.writeReg .fiKind v = s.inputWrite { s with fi := { s.fi with kind := BitVec.ofNat 8 v } } :=
  if_pos hv

theorem State.writeReg_fiLen (hv : v < 2 ^ Config.lenw) :
    s.writeReg .fiLen v = s.inputWrite { s with fi := { s.fi with len := v } } :=
  if_pos ((fitsLen_iff v).mpr hv)

theorem State.writeReg_wiLen (hv : v < 2 ^ Config.lenw) :
    s.writeReg .wiLen v = s.inputWrite { s with wi := { s.wi with len := v } } :=
  if_pos ((fitsLen_iff v).mpr hv)

theorem State.writeReg_output {r : Reg} (hr : r ∈ [Reg.st, .woValid, .woLen, .foValid, .foVersion, .foKind, .foLen]) :
    s.writeReg r v = .next s := by
  cases r with
  | st | woValid | woLen | foValid | foVersion | foKind | foLen => rfl
  | fiVersion | fiKind | fiLen | wiLen | cmd => simp at hr

theorem hasCell_fiPayload (hi : i < 65535) : Space.hasCell .fiPayload i = true := decide_eq_true hi

theorem hasCell_woBytes (hi : i < 65543) : Space.hasCell .woBytes i = true := decide_eq_true hi

theorem hasCell_wiBytes (hi : i < Config.wiCap) : Space.hasCell .wiBytes i = true := (fitsWire_iff (i + 1)).mpr hi

theorem hasCell_foPayload (hi : i < 65535) : Space.hasCell .foPayload i = true := decide_eq_true hi

theorem State.poke_fiPayload (hi : i < 65535) (b : Byte) :
    s.poke .fiPayload i b = s.inputWrite { s with fi := { s.fi with payload := Memory.write s.fi.payload i b } } :=
  if_pos (hasCell_fiPayload hi)

theorem State.poke_wiBytes (hi : i < Config.wiCap) (b : Byte) :
    s.poke .wiBytes i b = s.inputWrite { s with wi := { s.wi with bytes := Memory.write s.wi.bytes i b } } :=
  if_pos (hasCell_wiBytes hi)

theorem State.poke_woBytes (hi : i < 65543) (b : Byte) : s.poke .woBytes i b = .next s :=
  if_pos (hasCell_woBytes hi)

theorem State.poke_foPayload (hi : i < 65535) (b : Byte) : s.poke .foPayload i b = .next s :=
  if_pos (hasCell_foPayload hi)

end Write

/-! ### Reads -/

section Read

variable {s : State}

theorem State.outputRead_of_running {c : Command} (h : s.phase.command = some c) (v : Option Nat) :
    s.outputRead c v = .fault .runningOutput :=
  if_pos h

theorem State.outputRead_of_some {c : Command} {v : Option Nat} {n : Nat} (h : s.phase.command ≠ some c)
    (hv : v = some n) : s.outputRead c v = .next (s.returns n) := by
  rw [State.outputRead, if_neg h, hv]
  rfl

theorem State.outputRead_of_none {c : Command} {v : Option Nat} (h : s.phase.command ≠ some c) (hv : v = none) :
    s.outputRead c v = .fault .noValue := by
  rw [State.outputRead, if_neg h, hv]
  rfl

theorem State.answer_cell {space : Space} {i : Nat} {b : Byte} (h : s.cell space i = some b) :
    s.answer ((s.cell space i).map BitVec.toNat) = .next (s.returns b.toNat) := by
  rw [h]
  rfl

variable (s) {i : Nat}

theorem State.peek_fiPayload (hi : i < 65535) :
    s.peek .fiPayload i = s.answer ((s.cell .fiPayload i).map BitVec.toNat) :=
  if_pos (hasCell_fiPayload hi)

theorem State.peek_wiBytes (hi : i < Config.wiCap) :
    s.peek .wiBytes i = s.answer ((s.cell .wiBytes i).map BitVec.toNat) :=
  if_pos (hasCell_wiBytes hi)

theorem State.peek_woBytes (hi : i < 65543) :
    s.peek .woBytes i = s.outputRead .encode ((s.cell .woBytes i).map BitVec.toNat) :=
  if_pos (hasCell_woBytes hi)

theorem State.peek_foPayload (hi : i < 65535) :
    s.peek .foPayload i = s.outputRead .decode ((s.cell .foPayload i).map BitVec.toNat) :=
  if_pos (hasCell_foPayload hi)

end Read

/-! ### Words -/

theorem State.runWord_of_decode (s : State) {w : PortWord} {i : Instr} (h : decode w = .ok i) :
    s.runWord w = if i.isControlWord && s.st.busy then .refused .controlWordWhileBusy else exec i s := by
  rw [State.runWord, h]

theorem execWireframe_of_busy {s : State} (hbusy : s.st.busy = true) (v k : Byte) {p : List Byte} (c : Sum)
    (hp : p.length ≤ 65535) : exec (.wireframe v k p c) s = .refused .inputWriteWhileBusy := by
  simp [exec, execWireframe, hp, hbusy]

/-! ### The obligations on writes -/

/-- Settles O48: each of the writes is an input write, and a presented Wire Frame is refused as one. -/
theorem inputWritesWhileBusyAreRefused : Obligations.InputWritesWhileBusyAreRefused := by
  intro s a rest hbusy hpending hwrite
  have hbusy' : ({ s with pending := rest } : State).st.busy = true := hbusy
  rw [step_cons hpending]
  rcases hwrite with ⟨v, hv, rfl | rfl⟩ | ⟨v, hv, rfl | rfl⟩ | ⟨i, b, hi, rfl⟩ | ⟨i, b, hi, rfl⟩ | ⟨v, k, p, c, hp, rfl⟩
  · exact (State.writeReg_fiVersion _ hv).trans (State.inputWrite_of_busy hbusy' _)
  · exact (State.writeReg_fiKind _ hv).trans (State.inputWrite_of_busy hbusy' _)
  · exact (State.writeReg_fiLen _ hv).trans (State.inputWrite_of_busy hbusy' _)
  · exact (State.writeReg_wiLen _ hv).trans (State.inputWrite_of_busy hbusy' _)
  · exact (State.poke_fiPayload _ hi b).trans (State.inputWrite_of_busy hbusy' _)
  · exact (State.poke_wiBytes _ hi b).trans (State.inputWrite_of_busy hbusy' _)
  · have hdecode := decodingInvertsEncoding (.wireframe v k p c) (by simpa [Instr.wellFormed] using hp)
    exact (State.runWord_of_decode _ hdecode).trans (execWireframe_of_busy hbusy' v k c hp)

/-- Settles O49: no write of an output element reaches the block. -/
theorem hostCannotWriteOutputs : Obligations.HostCannotWriteOutputs := by
  intro s a rest hpending hwrite
  rw [step_cons hpending]
  rcases hwrite with ⟨r, v, rfl, hr⟩ | ⟨i, b, hi, rfl⟩ | ⟨i, b, hi, rfl⟩
  · exact State.writeReg_output _ hr
  · exact State.poke_woBytes _ hi b
  · exact State.poke_foPayload _ hi b

/-- Settles O50: a read after a write, in the space written and in the others. -/
theorem writtenCellsReadBack : Obligations.WrittenCellsReadBack := by
  intro s space i b rest hidle hspace hpending
  rw [step_cons hpending]
  obtain ⟨rfl, hi⟩ | ⟨rfl, hi⟩ := hspace
  · have hread (j : Nat) := Memory.read_write s.fi.payload i j b
    refine ⟨_, (State.poke_fiPayload _ hi b).trans (State.inputWrite_of_idle hidle _), (hread i).trans (if_pos rfl),
      fun space' j hne => ?_, rfl, ?_⟩
    · cases space' with
      | fiPayload => exact (hread j).trans (if_neg fun h => hne (by rw [h]))
      | wiBytes | woBytes | foPayload => rfl
    · rw [step_cons rfl]
      exact (State.peek_fiPayload _ hi).trans (State.answer_cell ((hread i).trans (if_pos rfl)))
  · have hread (j : Nat) := Memory.read_write s.wi.bytes i j b
    refine ⟨_, (State.poke_wiBytes _ hi b).trans (State.inputWrite_of_idle hidle _), (hread i).trans (if_pos rfl),
      fun space' j hne => ?_, rfl, ?_⟩
    · cases space' with
      | wiBytes => exact (hread j).trans (if_neg fun h => hne (by rw [h]))
      | fiPayload | woBytes | foPayload => rfl
    · rw [step_cons rfl]
      exact (State.peek_wiBytes _ hi).trans (State.answer_cell ((hread i).trans (if_pos rfl)))

/-- A number below 256 is the number of its byte. -/
theorem ofNat_byte_toNat {v : Nat} (hv : v < 256) : (BitVec.ofNat 8 v).toNat = v := by
  rw [BitVec.toNat_ofNat]
  omega

/-- A read of an input register behind its write. -/
theorem step_of_pending_read {t : State} {r : Reg} {v : Nat} {rest : List HostAct}
    (hpending : t.pending = .rd r :: rest)
    (hread : State.readReg { t with pending := rest } r = State.answer { t with pending := rest } (some v)) :
    step t = .next { t with pending := rest, reads := v :: t.reads } :=
  (step_cons hpending).trans hread

/-- Settles O51: register by register. -/
theorem writtenRegistersReadBack : Obligations.WrittenRegistersReadBack := by
  intro s r v rest hidle hr hpending
  rw [step_cons hpending]
  obtain ⟨rfl, hv⟩ | ⟨rfl, hv⟩ | ⟨rfl, hv⟩ | ⟨rfl, hv⟩ := hr
  · refine ⟨_, (State.writeReg_fiVersion _ hv).trans (State.inputWrite_of_idle hidle _), rfl, rfl, rfl,
      fun space i => by cases space <;> rfl, fun h => absurd rfl h, fun _ => rfl, fun _ => rfl, fun _ => rfl,
      step_of_pending_read rfl ?_⟩
    rw [State.readReg, ofNat_byte_toNat hv]
  · refine ⟨_, (State.writeReg_fiKind _ hv).trans (State.inputWrite_of_idle hidle _), rfl, rfl, rfl,
      fun space i => by cases space <;> rfl, fun _ => rfl, fun h => absurd rfl h, fun _ => rfl, fun _ => rfl,
      step_of_pending_read rfl ?_⟩
    rw [State.readReg, ofNat_byte_toNat hv]
  · exact ⟨_, (State.writeReg_fiLen _ hv).trans (State.inputWrite_of_idle hidle _), rfl, rfl, rfl,
      fun space i => by cases space <;> rfl, fun _ => rfl, fun _ => rfl, fun h => absurd rfl h, fun _ => rfl,
      step_of_pending_read rfl rfl⟩
  · exact ⟨_, (State.writeReg_wiLen _ hv).trans (State.inputWrite_of_idle hidle _), rfl, rfl, rfl,
      fun space i => by cases space <;> rfl, fun _ => rfl, fun _ => rfl, fun _ => rfl, fun h => absurd rfl h,
      step_of_pending_read rfl rfl⟩

/-! ### The obligations on reads -/

theorem Status.word_toNat_of_idle {st : Status} (h : st.busy = false) : st.word.toNat = st.code.bits.toNat := by
  rw [Status.word, h, BitVec.toNat_append]
  simp

/-- Each of the six numbers is a status code's (R89). -/
theorem exists_code_of_number (n : Fin 6) : ∃ code : StatusCode, code.bits.toNat = n.val := by
  fin_cases n
  · exact ⟨.ok, rfl⟩
  · exact ⟨.err .oversizedPayload, rfl⟩
  · exact ⟨.err .truncatedHeader, rfl⟩
  · exact ⟨.err .truncatedPayload, rfl⟩
  · exact ⟨.err .truncatedChecksum, rfl⟩
  · exact ⟨.err .checksumMismatch, rfl⟩

/-- Settles O44: while busy the free value is the number of one of the six codes. -/
theorem statusReadReturnsBusyAndCode : Obligations.StatusReadReturnsBusyAndCode := by
  intro s rest hpending
  have hstep : step s = .next (State.readStatus { s with pending := rest }) := step_cons hpending
  refine ⟨fun hidle => ?_, fun hbusy => ?_⟩
  · have hread : State.readStatus { s with pending := rest }
        = State.returns { s with pending := rest } s.st.word.toNat := if_neg (by simp [hidle])
    rw [hstep, hread, Status.word_toNat_of_idle hidle]
    rfl
  · obtain ⟨code, hcode⟩ := exists_code_of_number (Config.codeWhileBusy s.draws)
    have hread : State.readStatus { s with pending := rest }
        = State.returns { s with pending := rest, draws := s.draws + 1 } (8 + code.bits.toNat) := by
      rw [hcode]
      exact if_pos hbusy
    exact ⟨_, hstep, code, by rw [hread]; rfl⟩

theorem Output.element_of_not_valid {α : Type} {o : Output α} (h : o.isValid = false) (f : α → Option Nat) :
    o.element f = none := by
  cases o with
  | absent | building => rfl
  | valid r => simp [Output.isValid] at h

theorem State.cell_woBytes_of_not_valid {s : State} (h : s.wo.isValid = false) (i : Nat) :
    s.cell .woBytes i = none := by
  cases hwo : s.wo with
  | absent | building => simp only [State.cell, hwo]
  | valid r => simp [hwo, Output.isValid] at h

theorem State.cell_foPayload_of_not_valid {s : State} (h : s.fo.isValid = false) (i : Nat) :
    s.cell .foPayload i = none := by
  cases hfo : s.fo with
  | absent | building => simp only [State.cell, hfo]
  | valid r => simp [hfo, Output.isValid] at h

/-- Settles O52: what an invalid record or a cell behind the record's length holds is nothing. -/
theorem outputsWithoutValueCannotBeRead : Obligations.OutputsWithoutValueCannotBeRead := by
  intro s a rest hinv hidle hpending hcase
  have hnone {c : Command} {v : Option Nat} (hv : v = none) :
      State.outputRead { s with pending := rest } c v = .fault .noValue := by
    have hc : s.phase.command ≠ some c := by simp [(hinv.idle hidle).1, Phase.command]
    exact State.outputRead_of_none (s := { s with pending := rest }) hc hv
  have hwo {i : Nat} (hi : i < 65543) (hcell : s.cell .woBytes i = none) :
      State.peek { s with pending := rest } .woBytes i = .fault .noValue :=
    (State.peek_woBytes _ hi).trans (hnone (congrArg (Option.map BitVec.toNat) hcell))
  have hfo {i : Nat} (hi : i < 65535) (hcell : s.cell .foPayload i = none) :
      State.peek { s with pending := rest } .foPayload i = .fault .noValue :=
    (State.peek_foPayload _ hi).trans (hnone (congrArg (Option.map BitVec.toNat) hcell))
  rw [step_cons hpending]
  rcases hcase with ⟨hinvalid, rfl | ⟨i, hi, rfl⟩⟩ | ⟨hinvalid, rfl | rfl | rfl | ⟨i, hi, rfl⟩⟩
    | ⟨r, i, hr, hlen, hi, rfl⟩ | ⟨r, i, hr, hlen, hi, rfl⟩
  · exact hnone (Output.element_of_not_valid hinvalid _)
  · exact hwo hi (State.cell_woBytes_of_not_valid hinvalid i)
  · exact hnone (Output.element_of_not_valid hinvalid _)
  · exact hnone (Output.element_of_not_valid hinvalid _)
  · exact hnone (Output.element_of_not_valid hinvalid _)
  · exact hfo hi (State.cell_foPayload_of_not_valid hinvalid i)
  · exact hwo hi ((State.cell_woBytes_of_valid hr i).trans
      (Memory.read_eq_none_of_fills (hinv.wireOut r hr).1 hlen))
  · exact hfo hi ((State.cell_foPayload_of_valid hr i).trans (Memory.read_eq_none_of_fills (hinv.frameOut r hr) hlen))

/-- Settles O53: a read of an output record is answered from the record, and faults while its own command runs. -/
theorem deliveredOutputsCanBeRead : Obligations.DeliveredOutputsCanBeRead := by
  intro s rest
  have answered {c : Command} {v : Option Nat} {n : Nat} (hc : s.phase.command ≠ some c) (hv : v = some n) :
      State.outputRead { s with pending := rest } c v
        = .next { s with pending := rest, reads := n :: s.reads } :=
    State.outputRead_of_some (s := { s with pending := rest }) hc hv
  have faults {c : Command} (hc : s.phase.command = some c) (v : Option Nat) :
      State.outputRead { s with pending := rest } c v = .fault .runningOutput :=
    State.outputRead_of_running (s := { s with pending := rest }) hc v
  refine ⟨fun r hr hc => ⟨fun hp => ?_, fun hp => ?_, fun i b hi hb hp => ?_⟩,
    fun r hr hc => ⟨fun hp => ?_, fun hp => ?_, fun hp => ?_, fun hp => ?_, fun i b hi hb hp => ?_⟩,
    fun hc a hp ha => ?_, fun hc a hp ha => ?_⟩ <;> rw [step_cons hp]
  · exact answered hc (by dsimp only; rw [hr]; rfl)
  · exact answered hc (by dsimp only; rw [hr]; rfl)
  · have hcell : s.cell .woBytes i = some b := (State.cell_woBytes_of_valid hr i).trans hb
    exact (State.peek_woBytes _ hi).trans (answered hc (congrArg (Option.map BitVec.toNat) hcell))
  · exact answered hc (by dsimp only; rw [hr]; rfl)
  · exact answered hc (by dsimp only; rw [hr]; rfl)
  · exact answered hc (by dsimp only; rw [hr]; rfl)
  · exact answered hc (by dsimp only; rw [hr]; rfl)
  · have hcell : s.cell .foPayload i = some b := (State.cell_foPayload_of_valid hr i).trans hb
    exact (State.peek_foPayload _ hi).trans (answered hc (congrArg (Option.map BitVec.toNat) hcell))
  · obtain rfl | rfl | ⟨i, hi, rfl⟩ := ha
    · exact faults hc _
    · exact faults hc _
    · exact (State.peek_woBytes _ hi).trans (faults hc _)
  · obtain rfl | rfl | rfl | rfl | ⟨i, hi, rfl⟩ := ha
    · exact faults hc _
    · exact faults hc _
    · exact faults hc _
    · exact faults hc _
    · exact (State.peek_foPayload _ hi).trans (faults hc _)

/-! ### The obligations on reset and the step -/

/-- Settles O55: the fields of the reset state as written out. -/
theorem resetStateIsAsChosen : Obligations.ResetStateIsAsChosen :=
  ⟨rfl, rfl, rfl, rfl, rfl, rfl, rfl, rfl, rfl, rfl, rfl, rfl⟩

/-- Settles O56: the sequencer stands still in `IDLE`. -/
theorem idleBlockDoesNothing : Obligations.IdleBlockDoesNothing := by
  intro s hpending hidle
  rw [step_nil hpending, State.advance_of_idle hidle]

/-- Settles O57: only a control word to a busy block is not run. -/
theorem stepRunsTheDecodedInstruction : Obligations.StepRunsTheDecodedInstruction := by
  intro s w i rest hpending hdecode
  have hstep := (step_cons hpending).trans (State.runWord_of_decode { s with pending := rest } hdecode)
  refine ⟨fun hrun => hstep.trans (if_neg ?_), fun hcontrol hbusy => hstep.trans (if_pos ?_)⟩
  · obtain hword | hidle := hrun
    · simp [hword]
    · simp [hidle]
  · simp [hcontrol, hbusy]

end Sys2Proof.Machine
